-- ==== Sys2Proof/Word.lean ====
section
/-! DEFINITION. The widths of the machine's values (rules R5, R6 of spec/00_scope.md). -/

namespace Sys2Proof

/-- `u8`: a register, a flag byte, one bus transfer (rule R6). -/
abbrev Byte := BitVec 8

/-- `u16`: the program counter and every address (rules R5, R6). -/
abbrev Word := BitVec 16

end Sys2Proof
end

