-- ==== Sys2Proof/Machine/Bits.lean ====
section
/-! DEFINITION. The bit-field, byte-order and extension helpers of rule R6 (spec/00_scope.md). -/

namespace Sys2Proof.Machine

/-- `lo(w) = w[7:0]` (rule R6). -/
def loByte (w : Word) : Byte := w.extractLsb' 0 8

/-- `hi(w) = w[15:8]` (rule R6). -/
def hiByte (w : Word) : Byte := w.extractLsb' 8 8

/-- `page(w) = w[15:8]` (rules R6, R9). -/
def page (w : Word) : Byte := hiByte w

/-- `{hi, lo}`: the word whose value is `256*hi + lo` (rule R6). -/
def makeWord (hi lo : Byte) : Word := hi ++ lo

/-- `zext_16(v)` (rule R6). -/
def zext16 (v : Byte) : Word := v.setWidth 16

/-- `sext_16(v)`: `v` if `v[7] = 0`, else `0xFF00 + v` (rule R6). -/
def sext16 (v : Byte) : Word := if v.getLsbD 7 then 0xFF00#16 + zext16 v else zext16 v

end Sys2Proof.Machine
end

