-- ==== Sys2Proof/Syntax.lean ====
section
/-! DEFINITION. The instructions: the 56 documented mnemonics and ILLEGAL, one constructor each, with the operand
bytes that follow the opcode. A row of spec/opcode_table.json is a constructor at one addressing mode
(rules R60 to R64 of spec/30_encoding.md). -/

namespace Sys2Proof

/-- The addressing modes that have an effective address, with their operand (rules R62, R89 to R94, R96, R97). -/
inductive EaMode where
  | zp   (d : Byte)   -- $nn
  | zpx  (d : Byte)   -- $nn,X
  | zpy  (d : Byte)   -- $nn,Y
  | abs  (a : Word)   -- $nnnn
  | absx (a : Word)   -- $nnnn,X
  | absy (a : Word)   -- $nnnn,Y
  | indx (d : Byte)   -- ($nn,X)
  | indy (d : Byte)   -- ($nn),Y
deriving DecidableEq, Repr

/-- The operand of an instruction that reads one byte: immediate, or at an effective address (rule R100,
`ReadOperand`). -/
inductive ReadMode where
  | imm (d : Byte)
  | mem (m : EaMode)
deriving DecidableEq, Repr

/-- The operand of a read-modify-write instruction: the accumulator, or at an effective address (rule R100,
`ModifyOperand`). -/
inductive ModifyMode where
  | acc
  | mem (m : EaMode)
deriving DecidableEq, Repr

/-- The operand of JMP: the target, or a pointer to it (rules R92, R95, R180). -/
inductive JmpMode where
  | abs (a : Word)
  | ind (a : Word)
deriving DecidableEq, Repr

/-- One instruction with its operand. -/
inductive Instr where
  -- loads, stores, transfers, stack (spec/41_load_store_transfer.md)
  | lda (m : ReadMode)
  | ldx (m : ReadMode)
  | ldy (m : ReadMode)
  | sta (m : EaMode)
  | stx (m : EaMode)
  | sty (m : EaMode)
  | tax
  | tay
  | tsx
  | txa
  | txs
  | tya
  | pha
  | php
  | pla
  | plp
  -- arithmetic, compare, increment, decrement (spec/42_arithmetic.md)
  | adc (m : ReadMode)
  | sbc (m : ReadMode)
  | cmp (m : ReadMode)
  | cpx (m : ReadMode)
  | cpy (m : ReadMode)
  | inc (m : EaMode)
  | dec (m : EaMode)
  | inx
  | iny
  | dex
  | dey
  -- logic, bit test, shifts, rotates (spec/43_logic_shift.md)
  | and (m : ReadMode)
  | ora (m : ReadMode)
  | eor (m : ReadMode)
  | bit (m : EaMode)
  | asl (m : ModifyMode)
  | lsr (m : ModifyMode)
  | rol (m : ModifyMode)
  | ror (m : ModifyMode)
  -- branches, jumps, subroutines, flag instructions, system (spec/44_control_flags_system.md)
  | bcc (d : Byte)
  | bcs (d : Byte)
  | beq (d : Byte)
  | bmi (d : Byte)
  | bne (d : Byte)
  | bpl (d : Byte)
  | bvc (d : Byte)
  | bvs (d : Byte)
  | jmp (m : JmpMode)
  | jsr (target : Word)
  | rts
  | clc
  | cld
  | cli
  | clv
  | sec
  | sed
  | sei
  | nop
  /-- BRK carries its padding byte, which it fetches and ignores (rule R196). -/
  | brk (padding : Byte)
  | rti
  /-- Any of the 105 opcode bytes that are no documented instruction (rules R65, R66). -/
  | illegal (op : Byte)
deriving DecidableEq, Repr

end Sys2Proof
end

