-- ==== Sys2Proof/WellFormed.lean ====
section
/-! DEFINITION. Which instructions exist: the addressing modes of each mnemonic (the opcode map of rule R63 and the
encoding tables of spec/41 to spec/44) and the illegal bytes (rule R65). Every operand value of a documented
form is legal (rule R67). -/

namespace Sys2Proof

/-- `zp`, `abs`: the modes of BIT, and with an immediate those of CPX and CPY (rules R137, R138, R153). -/
def EaMode.isPlain : EaMode → Bool
  | .zp _ => true
  | .abs _ => true
  | .zpx _ => false
  | .zpy _ => false
  | .absx _ => false
  | .absy _ => false
  | .indx _ => false
  | .indy _ => false

/-- The modes of STA, and with an immediate those of LDA, ADC, SBC, CMP, AND, ORA, EOR (rules R110, R113, R131):
every mode but `zpy`. -/
def EaMode.isAluMode : EaMode → Bool
  | .zp _ => true
  | .zpx _ => true
  | .abs _ => true
  | .absx _ => true
  | .absy _ => true
  | .indx _ => true
  | .indy _ => true
  | .zpy _ => false

/-- `zp`, `zpx`, `abs`, `absx`: the memory modes of INC, DEC, ASL, LSR, ROL, ROR and of LDY (rules R112, R139,
R154). -/
def EaMode.isModifyMode : EaMode → Bool
  | .zp _ => true
  | .zpx _ => true
  | .abs _ => true
  | .absx _ => true
  | .zpy _ => false
  | .absy _ => false
  | .indx _ => false
  | .indy _ => false

/-- `zp`, `zpy`, `abs`, `absy`: the memory modes of LDX (rule R111). -/
def EaMode.isLdxMode : EaMode → Bool
  | .zp _ => true
  | .zpy _ => true
  | .abs _ => true
  | .absy _ => true
  | .zpx _ => false
  | .absx _ => false
  | .indx _ => false
  | .indy _ => false

/-- `zp`, `zpy`, `abs`: the modes of STX (rule R114). -/
def EaMode.isStxMode : EaMode → Bool
  | .zp _ => true
  | .zpy _ => true
  | .abs _ => true
  | .zpx _ => false
  | .absx _ => false
  | .absy _ => false
  | .indx _ => false
  | .indy _ => false

/-- `zp`, `zpx`, `abs`: the modes of STY (rule R115). -/
def EaMode.isStyMode : EaMode → Bool
  | .zp _ => true
  | .zpx _ => true
  | .abs _ => true
  | .zpy _ => false
  | .absx _ => false
  | .absy _ => false
  | .indx _ => false
  | .indy _ => false

/-- An immediate, or a memory mode that `ok` accepts. -/
def ReadMode.allowed (ok : EaMode → Bool) : ReadMode → Bool
  | .imm _ => true
  | .mem m => ok m

/-- The accumulator, or a memory mode of the read-modify-write instructions. -/
def ModifyMode.allowed : ModifyMode → Bool
  | .acc => true
  | .mem m => m.isModifyMode

/-- The 105 illegal opcode bytes, as rule R65 lists them, one row of the list after the other. -/
def illegalOpcodes : List Byte :=
  [0x02, 0x03, 0x04, 0x07, 0x0B, 0x0C, 0x0F, 0x12, 0x13, 0x14, 0x17, 0x1A, 0x1B, 0x1C, 0x1F] ++
  [0x22, 0x23, 0x27, 0x2B, 0x2F, 0x32, 0x33, 0x34, 0x37, 0x3A, 0x3B, 0x3C, 0x3F, 0x42, 0x43] ++
  [0x44, 0x47, 0x4B, 0x4F, 0x52, 0x53, 0x54, 0x57, 0x5A, 0x5B, 0x5C, 0x5F, 0x62, 0x63, 0x64] ++
  [0x67, 0x6B, 0x6F, 0x72, 0x73, 0x74, 0x77, 0x7A, 0x7B, 0x7C, 0x7F, 0x80, 0x82, 0x83, 0x87] ++
  [0x89, 0x8B, 0x8F, 0x92, 0x93, 0x97, 0x9B, 0x9C, 0x9E, 0x9F, 0xA3, 0xA7, 0xAB, 0xAF, 0xB2] ++
  [0xB3, 0xB7, 0xBB, 0xBF, 0xC2, 0xC3, 0xC7, 0xCB, 0xCF, 0xD2, 0xD3, 0xD4, 0xD7, 0xDA, 0xDB] ++
  [0xDC, 0xDF, 0xE2, 0xE3, 0xE7, 0xEB, 0xEF, 0xF2, 0xF3, 0xF4, 0xF7, 0xFA, 0xFB, 0xFC, 0xFF]

/-- `op` is one of the 105 illegal opcode bytes (rule R65). -/
def isIllegalOpcode (op : Byte) : Bool := illegalOpcodes.contains op

/-- The instruction has an encoding: its mnemonic has its addressing mode (rule R63), or its byte is illegal
(rule R65). -/
def Instr.wf : Instr → Bool
  | .lda m => m.allowed EaMode.isAluMode
  | .ldx m => m.allowed EaMode.isLdxMode
  | .ldy m => m.allowed EaMode.isModifyMode
  | .sta m => m.isAluMode
  | .stx m => m.isStxMode
  | .sty m => m.isStyMode
  | .tax => true
  | .tay => true
  | .tsx => true
  | .txa => true
  | .txs => true
  | .tya => true
  | .pha => true
  | .php => true
  | .pla => true
  | .plp => true
  | .adc m => m.allowed EaMode.isAluMode
  | .sbc m => m.allowed EaMode.isAluMode
  | .cmp m => m.allowed EaMode.isAluMode
  | .cpx m => m.allowed EaMode.isPlain
  | .cpy m => m.allowed EaMode.isPlain
  | .inc m => m.isModifyMode
  | .dec m => m.isModifyMode
  | .inx => true
  | .iny => true
  | .dex => true
  | .dey => true
  | .and m => m.allowed EaMode.isAluMode
  | .ora m => m.allowed EaMode.isAluMode
  | .eor m => m.allowed EaMode.isAluMode
  | .bit m => m.isPlain
  | .asl m => m.allowed
  | .lsr m => m.allowed
  | .rol m => m.allowed
  | .ror m => m.allowed
  | .bcc _ => true
  | .bcs _ => true
  | .beq _ => true
  | .bmi _ => true
  | .bne _ => true
  | .bpl _ => true
  | .bvc _ => true
  | .bvs _ => true
  | .jmp _ => true
  | .jsr _ => true
  | .rts => true
  | .clc => true
  | .cld => true
  | .cli => true
  | .clv => true
  | .sec => true
  | .sed => true
  | .sei => true
  | .nop => true
  | .brk _ => true
  | .rti => true
  | .illegal op => isIllegalOpcode op

end Sys2Proof
end

