-- ==== Sys2Proof/Decode.lean ====
section
/-! DEFINITION. Decoding (the opcode map, rule R63 of spec/30_encoding.md), then encoding (the encoding tables of
spec/41 to spec/44). Both are written from the spec apart, and the laws prove that they agree. -/

namespace Sys2Proof

open Sys2Proof.Machine (makeWord loByte hiByte)

/-- Row 0x of the opcode map (rule R63): the opcodes 0x00 to 0x0F, by low nibble. -/
def decodeRow0 (lo : Nat) (op b1 b2 : Byte) : Instr :=
  match lo with
  | 0x0 => .brk b1
  | 0x1 => .ora (.mem (.indx b1))
  | 0x5 => .ora (.mem (.zp b1))
  | 0x6 => .asl (.mem (.zp b1))
  | 0x8 => .php
  | 0x9 => .ora (.imm b1)
  | 0xA => .asl .acc
  | 0xD => .ora (.mem (.abs (makeWord b2 b1)))
  | 0xE => .asl (.mem (.abs (makeWord b2 b1)))
  | _ => .illegal op

/-- Row 1x of the opcode map (rule R63): the opcodes 0x10 to 0x1F, by low nibble. -/
def decodeRow1 (lo : Nat) (op b1 b2 : Byte) : Instr :=
  match lo with
  | 0x0 => .bpl b1
  | 0x1 => .ora (.mem (.indy b1))
  | 0x5 => .ora (.mem (.zpx b1))
  | 0x6 => .asl (.mem (.zpx b1))
  | 0x8 => .clc
  | 0x9 => .ora (.mem (.absy (makeWord b2 b1)))
  | 0xD => .ora (.mem (.absx (makeWord b2 b1)))
  | 0xE => .asl (.mem (.absx (makeWord b2 b1)))
  | _ => .illegal op

/-- Row 2x of the opcode map (rule R63): the opcodes 0x20 to 0x2F, by low nibble. -/
def decodeRow2 (lo : Nat) (op b1 b2 : Byte) : Instr :=
  match lo with
  | 0x0 => .jsr (makeWord b2 b1)
  | 0x1 => .and (.mem (.indx b1))
  | 0x4 => .bit (.zp b1)
  | 0x5 => .and (.mem (.zp b1))
  | 0x6 => .rol (.mem (.zp b1))
  | 0x8 => .plp
  | 0x9 => .and (.imm b1)
  | 0xA => .rol .acc
  | 0xC => .bit (.abs (makeWord b2 b1))
  | 0xD => .and (.mem (.abs (makeWord b2 b1)))
  | 0xE => .rol (.mem (.abs (makeWord b2 b1)))
  | _ => .illegal op

/-- Row 3x of the opcode map (rule R63): the opcodes 0x30 to 0x3F, by low nibble. -/
def decodeRow3 (lo : Nat) (op b1 b2 : Byte) : Instr :=
  match lo with
  | 0x0 => .bmi b1
  | 0x1 => .and (.mem (.indy b1))
  | 0x5 => .and (.mem (.zpx b1))
  | 0x6 => .rol (.mem (.zpx b1))
  | 0x8 => .sec
  | 0x9 => .and (.mem (.absy (makeWord b2 b1)))
  | 0xD => .and (.mem (.absx (makeWord b2 b1)))
  | 0xE => .rol (.mem (.absx (makeWord b2 b1)))
  | _ => .illegal op

/-- Row 4x of the opcode map (rule R63): the opcodes 0x40 to 0x4F, by low nibble. -/
def decodeRow4 (lo : Nat) (op b1 b2 : Byte) : Instr :=
  match lo with
  | 0x0 => .rti
  | 0x1 => .eor (.mem (.indx b1))
  | 0x5 => .eor (.mem (.zp b1))
  | 0x6 => .lsr (.mem (.zp b1))
  | 0x8 => .pha
  | 0x9 => .eor (.imm b1)
  | 0xA => .lsr .acc
  | 0xC => .jmp (.abs (makeWord b2 b1))
  | 0xD => .eor (.mem (.abs (makeWord b2 b1)))
  | 0xE => .lsr (.mem (.abs (makeWord b2 b1)))
  | _ => .illegal op

/-- Row 5x of the opcode map (rule R63): the opcodes 0x50 to 0x5F, by low nibble. -/
def decodeRow5 (lo : Nat) (op b1 b2 : Byte) : Instr :=
  match lo with
  | 0x0 => .bvc b1
  | 0x1 => .eor (.mem (.indy b1))
  | 0x5 => .eor (.mem (.zpx b1))
  | 0x6 => .lsr (.mem (.zpx b1))
  | 0x8 => .cli
  | 0x9 => .eor (.mem (.absy (makeWord b2 b1)))
  | 0xD => .eor (.mem (.absx (makeWord b2 b1)))
  | 0xE => .lsr (.mem (.absx (makeWord b2 b1)))
  | _ => .illegal op

/-- Row 6x of the opcode map (rule R63): the opcodes 0x60 to 0x6F, by low nibble. -/
def decodeRow6 (lo : Nat) (op b1 b2 : Byte) : Instr :=
  match lo with
  | 0x0 => .rts
  | 0x1 => .adc (.mem (.indx b1))
  | 0x5 => .adc (.mem (.zp b1))
  | 0x6 => .ror (.mem (.zp b1))
  | 0x8 => .pla
  | 0x9 => .adc (.imm b1)
  | 0xA => .ror .acc
  | 0xC => .jmp (.ind (makeWord b2 b1))
  | 0xD => .adc (.mem (.abs (makeWord b2 b1)))
  | 0xE => .ror (.mem (.abs (makeWord b2 b1)))
  | _ => .illegal op

/-- Row 7x of the opcode map (rule R63): the opcodes 0x70 to 0x7F, by low nibble. -/
def decodeRow7 (lo : Nat) (op b1 b2 : Byte) : Instr :=
  match lo with
  | 0x0 => .bvs b1
  | 0x1 => .adc (.mem (.indy b1))
  | 0x5 => .adc (.mem (.zpx b1))
  | 0x6 => .ror (.mem (.zpx b1))
  | 0x8 => .sei
  | 0x9 => .adc (.mem (.absy (makeWord b2 b1)))
  | 0xD => .adc (.mem (.absx (makeWord b2 b1)))
  | 0xE => .ror (.mem (.absx (makeWord b2 b1)))
  | _ => .illegal op

/-- Row 8x of the opcode map (rule R63): the opcodes 0x80 to 0x8F, by low nibble. -/
def decodeRow8 (lo : Nat) (op b1 b2 : Byte) : Instr :=
  match lo with
  | 0x1 => .sta (.indx b1)
  | 0x4 => .sty (.zp b1)
  | 0x5 => .sta (.zp b1)
  | 0x6 => .stx (.zp b1)
  | 0x8 => .dey
  | 0xA => .txa
  | 0xC => .sty (.abs (makeWord b2 b1))
  | 0xD => .sta (.abs (makeWord b2 b1))
  | 0xE => .stx (.abs (makeWord b2 b1))
  | _ => .illegal op

/-- Row 9x of the opcode map (rule R63): the opcodes 0x90 to 0x9F, by low nibble. -/
def decodeRow9 (lo : Nat) (op b1 b2 : Byte) : Instr :=
  match lo with
  | 0x0 => .bcc b1
  | 0x1 => .sta (.indy b1)
  | 0x4 => .sty (.zpx b1)
  | 0x5 => .sta (.zpx b1)
  | 0x6 => .stx (.zpy b1)
  | 0x8 => .tya
  | 0x9 => .sta (.absy (makeWord b2 b1))
  | 0xA => .txs
  | 0xD => .sta (.absx (makeWord b2 b1))
  | _ => .illegal op

/-- Row Ax of the opcode map (rule R63): the opcodes 0xA0 to 0xAF, by low nibble. -/
def decodeRowA (lo : Nat) (op b1 b2 : Byte) : Instr :=
  match lo with
  | 0x0 => .ldy (.imm b1)
  | 0x1 => .lda (.mem (.indx b1))
  | 0x2 => .ldx (.imm b1)
  | 0x4 => .ldy (.mem (.zp b1))
  | 0x5 => .lda (.mem (.zp b1))
  | 0x6 => .ldx (.mem (.zp b1))
  | 0x8 => .tay
  | 0x9 => .lda (.imm b1)
  | 0xA => .tax
  | 0xC => .ldy (.mem (.abs (makeWord b2 b1)))
  | 0xD => .lda (.mem (.abs (makeWord b2 b1)))
  | 0xE => .ldx (.mem (.abs (makeWord b2 b1)))
  | _ => .illegal op

/-- Row Bx of the opcode map (rule R63): the opcodes 0xB0 to 0xBF, by low nibble. -/
def decodeRowB (lo : Nat) (op b1 b2 : Byte) : Instr :=
  match lo with
  | 0x0 => .bcs b1
  | 0x1 => .lda (.mem (.indy b1))
  | 0x4 => .ldy (.mem (.zpx b1))
  | 0x5 => .lda (.mem (.zpx b1))
  | 0x6 => .ldx (.mem (.zpy b1))
  | 0x8 => .clv
  | 0x9 => .lda (.mem (.absy (makeWord b2 b1)))
  | 0xA => .tsx
  | 0xC => .ldy (.mem (.absx (makeWord b2 b1)))
  | 0xD => .lda (.mem (.absx (makeWord b2 b1)))
  | 0xE => .ldx (.mem (.absy (makeWord b2 b1)))
  | _ => .illegal op

/-- Row Cx of the opcode map (rule R63): the opcodes 0xC0 to 0xCF, by low nibble. -/
def decodeRowC (lo : Nat) (op b1 b2 : Byte) : Instr :=
  match lo with
  | 0x0 => .cpy (.imm b1)
  | 0x1 => .cmp (.mem (.indx b1))
  | 0x4 => .cpy (.mem (.zp b1))
  | 0x5 => .cmp (.mem (.zp b1))
  | 0x6 => .dec (.zp b1)
  | 0x8 => .iny
  | 0x9 => .cmp (.imm b1)
  | 0xA => .dex
  | 0xC => .cpy (.mem (.abs (makeWord b2 b1)))
  | 0xD => .cmp (.mem (.abs (makeWord b2 b1)))
  | 0xE => .dec (.abs (makeWord b2 b1))
  | _ => .illegal op

/-- Row Dx of the opcode map (rule R63): the opcodes 0xD0 to 0xDF, by low nibble. -/
def decodeRowD (lo : Nat) (op b1 b2 : Byte) : Instr :=
  match lo with
  | 0x0 => .bne b1
  | 0x1 => .cmp (.mem (.indy b1))
  | 0x5 => .cmp (.mem (.zpx b1))
  | 0x6 => .dec (.zpx b1)
  | 0x8 => .cld
  | 0x9 => .cmp (.mem (.absy (makeWord b2 b1)))
  | 0xD => .cmp (.mem (.absx (makeWord b2 b1)))
  | 0xE => .dec (.absx (makeWord b2 b1))
  | _ => .illegal op

/-- Row Ex of the opcode map (rule R63): the opcodes 0xE0 to 0xEF, by low nibble. -/
def decodeRowE (lo : Nat) (op b1 b2 : Byte) : Instr :=
  match lo with
  | 0x0 => .cpx (.imm b1)
  | 0x1 => .sbc (.mem (.indx b1))
  | 0x4 => .cpx (.mem (.zp b1))
  | 0x5 => .sbc (.mem (.zp b1))
  | 0x6 => .inc (.zp b1)
  | 0x8 => .inx
  | 0x9 => .sbc (.imm b1)
  | 0xA => .nop
  | 0xC => .cpx (.mem (.abs (makeWord b2 b1)))
  | 0xD => .sbc (.mem (.abs (makeWord b2 b1)))
  | 0xE => .inc (.abs (makeWord b2 b1))
  | _ => .illegal op

/-- Row Fx of the opcode map (rule R63): the opcodes 0xF0 to 0xFF, by low nibble. -/
def decodeRowF (lo : Nat) (op b1 b2 : Byte) : Instr :=
  match lo with
  | 0x0 => .beq b1
  | 0x1 => .sbc (.mem (.indy b1))
  | 0x5 => .sbc (.mem (.zpx b1))
  | 0x6 => .inc (.zpx b1)
  | 0x8 => .sed
  | 0x9 => .sbc (.mem (.absy (makeWord b2 b1)))
  | 0xD => .sbc (.mem (.absx (makeWord b2 b1)))
  | 0xE => .inc (.absx (makeWord b2 b1))
  | _ => .illegal op

/-- `decode : u8 -> (mnemonic, mode)`, total (rule R64), with the operand bytes put into the operand: byte 1 is `d8`
or the low byte of `a16`, byte 2 its high byte (rules R60, R62). A byte the form does not have is ignored. -/
def decodeInstr (op b1 b2 : Byte) : Instr :=
  let lo := op.toNat % 16
  match op.toNat / 16 with
  | 0x0 => decodeRow0 lo op b1 b2
  | 0x1 => decodeRow1 lo op b1 b2
  | 0x2 => decodeRow2 lo op b1 b2
  | 0x3 => decodeRow3 lo op b1 b2
  | 0x4 => decodeRow4 lo op b1 b2
  | 0x5 => decodeRow5 lo op b1 b2
  | 0x6 => decodeRow6 lo op b1 b2
  | 0x7 => decodeRow7 lo op b1 b2
  | 0x8 => decodeRow8 lo op b1 b2
  | 0x9 => decodeRow9 lo op b1 b2
  | 0xA => decodeRowA lo op b1 b2
  | 0xB => decodeRowB lo op b1 b2
  | 0xC => decodeRowC lo op b1 b2
  | 0xD => decodeRowD lo op b1 b2
  | 0xE => decodeRowE lo op b1 b2
  | _ => decodeRowF lo op b1 b2

/-- The length in bytes of a form with an effective address (rule R61). -/
def EaMode.length : EaMode → Nat
  | .zp _ => 2
  | .zpx _ => 2
  | .zpy _ => 2
  | .abs _ => 3
  | .absx _ => 3
  | .absy _ => 3
  | .indx _ => 2
  | .indy _ => 2

/-- The length of a form that reads its operand (rule R61). -/
def ReadMode.length : ReadMode → Nat
  | .imm _ => 2
  | .mem m => m.length

/-- The length of a read-modify-write form (rule R61). -/
def ModifyMode.length : ModifyMode → Nat
  | .acc => 1
  | .mem m => m.length

/-- The length of an instruction in bytes (rule R61): BRK consumes 2, an illegal opcode 1. -/
def Instr.length : Instr → Nat
  | .lda m => m.length
  | .ldx m => m.length
  | .ldy m => m.length
  | .sta m => m.length
  | .stx m => m.length
  | .sty m => m.length
  | .tax => 1
  | .tay => 1
  | .tsx => 1
  | .txa => 1
  | .txs => 1
  | .tya => 1
  | .pha => 1
  | .php => 1
  | .pla => 1
  | .plp => 1
  | .adc m => m.length
  | .sbc m => m.length
  | .cmp m => m.length
  | .cpx m => m.length
  | .cpy m => m.length
  | .inc m => m.length
  | .dec m => m.length
  | .inx => 1
  | .iny => 1
  | .dex => 1
  | .dey => 1
  | .and m => m.length
  | .ora m => m.length
  | .eor m => m.length
  | .bit m => m.length
  | .asl m => m.length
  | .lsr m => m.length
  | .rol m => m.length
  | .ror m => m.length
  | .bcc _ => 2
  | .bcs _ => 2
  | .beq _ => 2
  | .bmi _ => 2
  | .bne _ => 2
  | .bpl _ => 2
  | .bvc _ => 2
  | .bvs _ => 2
  | .jmp _ => 3
  | .jsr _ => 3
  | .rts => 1
  | .clc => 1
  | .cld => 1
  | .cli => 1
  | .clv => 1
  | .sec => 1
  | .sed => 1
  | .sei => 1
  | .nop => 1
  | .brk _ => 2
  | .rti => 1
  | .illegal _ => 1

/-- `len(op)`: the opcode alone fixes the length (rules R60, R61). -/
def opcodeLength (op : Byte) : Nat := (decodeInstr op 0 0).length

/-- Why a list of bytes holds no instruction: there is no byte, or fewer than the opcode's form has. No byte value is
undecodable, since an illegal opcode decodes to `Instr.illegal` (rule R64). -/
inductive DecodeError where
  | empty
  | truncated (op : Byte)
deriving DecidableEq, Repr

/-- The first instruction of a list of bytes, and the bytes after it. -/
def decode : List Byte → Except DecodeError (Instr × List Byte)
  | [] => .error .empty
  | op :: rest =>
    match opcodeLength op, rest with
    | 1, rest => .ok (decodeInstr op 0 0, rest)
    | 2, b1 :: rest => .ok (decodeInstr op b1 0, rest)
    | 3, b1 :: b2 :: rest => .ok (decodeInstr op b1 b2, rest)
    | _, _ => .error (.truncated op)

/-- Byte `k` of the little-endian number `w` of `nbits` bits, 0 above them (rule R60: the opcode is bits 7 to 0, the
next byte bits 15 to 8). -/
def tableByte (nbits w k : Nat) : Byte := BitVec.ofNat 8 (w % 2 ^ nbits / 2 ^ (8 * k))

/-- The instruction the decoder reads from the bits `w`, numbered as spec/opcode_table.json numbers them. -/
def decodeTableWord (nbits w : Nat) : Option Instr :=
  match decode [tableByte nbits w 0, tableByte nbits w 1, tableByte nbits w 2] with
  | .ok (i, _) => some i
  | .error _ => none

/-! The encoder. -/

/-- The memory opcodes of LDA by mode (rule R110). -/
def opcodeLda : EaMode → Option Byte
  | .zp _ => some 0xA5
  | .zpx _ => some 0xB5
  | .zpy _ => none
  | .abs _ => some 0xAD
  | .absx _ => some 0xBD
  | .absy _ => some 0xB9
  | .indx _ => some 0xA1
  | .indy _ => some 0xB1

/-- The memory opcodes of LDX by mode (rule R111). -/
def opcodeLdx : EaMode → Option Byte
  | .zp _ => some 0xA6
  | .zpx _ => none
  | .zpy _ => some 0xB6
  | .abs _ => some 0xAE
  | .absx _ => none
  | .absy _ => some 0xBE
  | .indx _ => none
  | .indy _ => none

/-- The memory opcodes of LDY by mode (rule R112). -/
def opcodeLdy : EaMode → Option Byte
  | .zp _ => some 0xA4
  | .zpx _ => some 0xB4
  | .zpy _ => none
  | .abs _ => some 0xAC
  | .absx _ => some 0xBC
  | .absy _ => none
  | .indx _ => none
  | .indy _ => none

/-- The opcodes of STA by mode (rule R113). -/
def opcodeSta : EaMode → Option Byte
  | .zp _ => some 0x85
  | .zpx _ => some 0x95
  | .zpy _ => none
  | .abs _ => some 0x8D
  | .absx _ => some 0x9D
  | .absy _ => some 0x99
  | .indx _ => some 0x81
  | .indy _ => some 0x91

/-- The opcodes of STX by mode (rule R114). -/
def opcodeStx : EaMode → Option Byte
  | .zp _ => some 0x86
  | .zpx _ => none
  | .zpy _ => some 0x96
  | .abs _ => some 0x8E
  | .absx _ => none
  | .absy _ => none
  | .indx _ => none
  | .indy _ => none

/-- The opcodes of STY by mode (rule R115). -/
def opcodeSty : EaMode → Option Byte
  | .zp _ => some 0x84
  | .zpx _ => some 0x94
  | .zpy _ => none
  | .abs _ => some 0x8C
  | .absx _ => none
  | .absy _ => none
  | .indx _ => none
  | .indy _ => none

/-- The memory opcodes of ADC by mode (rule R131). -/
def opcodeAdc : EaMode → Option Byte
  | .zp _ => some 0x65
  | .zpx _ => some 0x75
  | .zpy _ => none
  | .abs _ => some 0x6D
  | .absx _ => some 0x7D
  | .absy _ => some 0x79
  | .indx _ => some 0x61
  | .indy _ => some 0x71

/-- The memory opcodes of SBC by mode (rule R133). -/
def opcodeSbc : EaMode → Option Byte
  | .zp _ => some 0xE5
  | .zpx _ => some 0xF5
  | .zpy _ => none
  | .abs _ => some 0xED
  | .absx _ => some 0xFD
  | .absy _ => some 0xF9
  | .indx _ => some 0xE1
  | .indy _ => some 0xF1

/-- The memory opcodes of CMP by mode (rule R136). -/
def opcodeCmp : EaMode → Option Byte
  | .zp _ => some 0xC5
  | .zpx _ => some 0xD5
  | .zpy _ => none
  | .abs _ => some 0xCD
  | .absx _ => some 0xDD
  | .absy _ => some 0xD9
  | .indx _ => some 0xC1
  | .indy _ => some 0xD1

/-- The memory opcodes of CPX by mode (rule R137). -/
def opcodeCpx : EaMode → Option Byte
  | .zp _ => some 0xE4
  | .zpx _ => none
  | .zpy _ => none
  | .abs _ => some 0xEC
  | .absx _ => none
  | .absy _ => none
  | .indx _ => none
  | .indy _ => none

/-- The memory opcodes of CPY by mode (rule R138). -/
def opcodeCpy : EaMode → Option Byte
  | .zp _ => some 0xC4
  | .zpx _ => none
  | .zpy _ => none
  | .abs _ => some 0xCC
  | .absx _ => none
  | .absy _ => none
  | .indx _ => none
  | .indy _ => none

/-- The opcodes of INC by mode (rule R139). -/
def opcodeInc : EaMode → Option Byte
  | .zp _ => some 0xE6
  | .zpx _ => some 0xF6
  | .zpy _ => none
  | .abs _ => some 0xEE
  | .absx _ => some 0xFE
  | .absy _ => none
  | .indx _ => none
  | .indy _ => none

/-- The opcodes of DEC by mode (rule R140). -/
def opcodeDec : EaMode → Option Byte
  | .zp _ => some 0xC6
  | .zpx _ => some 0xD6
  | .zpy _ => none
  | .abs _ => some 0xCE
  | .absx _ => some 0xDE
  | .absy _ => none
  | .indx _ => none
  | .indy _ => none

/-- The memory opcodes of AND by mode (rule R150). -/
def opcodeAnd : EaMode → Option Byte
  | .zp _ => some 0x25
  | .zpx _ => some 0x35
  | .zpy _ => none
  | .abs _ => some 0x2D
  | .absx _ => some 0x3D
  | .absy _ => some 0x39
  | .indx _ => some 0x21
  | .indy _ => some 0x31

/-- The memory opcodes of ORA by mode (rule R151). -/
def opcodeOra : EaMode → Option Byte
  | .zp _ => some 0x05
  | .zpx _ => some 0x15
  | .zpy _ => none
  | .abs _ => some 0x0D
  | .absx _ => some 0x1D
  | .absy _ => some 0x19
  | .indx _ => some 0x01
  | .indy _ => some 0x11

/-- The memory opcodes of EOR by mode (rule R152). -/
def opcodeEor : EaMode → Option Byte
  | .zp _ => some 0x45
  | .zpx _ => some 0x55
  | .zpy _ => none
  | .abs _ => some 0x4D
  | .absx _ => some 0x5D
  | .absy _ => some 0x59
  | .indx _ => some 0x41
  | .indy _ => some 0x51

/-- The opcodes of BIT by mode (rule R153). -/
def opcodeBit : EaMode → Option Byte
  | .zp _ => some 0x24
  | .zpx _ => none
  | .zpy _ => none
  | .abs _ => some 0x2C
  | .absx _ => none
  | .absy _ => none
  | .indx _ => none
  | .indy _ => none

/-- The memory opcodes of ASL by mode (rule R154). -/
def opcodeAsl : EaMode → Option Byte
  | .zp _ => some 0x06
  | .zpx _ => some 0x16
  | .zpy _ => none
  | .abs _ => some 0x0E
  | .absx _ => some 0x1E
  | .absy _ => none
  | .indx _ => none
  | .indy _ => none

/-- The memory opcodes of LSR by mode (rule R155). -/
def opcodeLsr : EaMode → Option Byte
  | .zp _ => some 0x46
  | .zpx _ => some 0x56
  | .zpy _ => none
  | .abs _ => some 0x4E
  | .absx _ => some 0x5E
  | .absy _ => none
  | .indx _ => none
  | .indy _ => none

/-- The memory opcodes of ROL by mode (rule R156). -/
def opcodeRol : EaMode → Option Byte
  | .zp _ => some 0x26
  | .zpx _ => some 0x36
  | .zpy _ => none
  | .abs _ => some 0x2E
  | .absx _ => some 0x3E
  | .absy _ => none
  | .indx _ => none
  | .indy _ => none

/-- The memory opcodes of ROR by mode (rule R157). -/
def opcodeRor : EaMode → Option Byte
  | .zp _ => some 0x66
  | .zpx _ => some 0x76
  | .zpy _ => none
  | .abs _ => some 0x6E
  | .absx _ => some 0x7E
  | .absy _ => none
  | .indx _ => none
  | .indy _ => none

/-- The opcode byte of an instruction; none where the mnemonic does not have the addressing mode. -/
def Instr.opcode : Instr → Option Byte
  | .lda (.imm _) => some 0xA9
  | .lda (.mem m) => opcodeLda m
  | .ldx (.imm _) => some 0xA2
  | .ldx (.mem m) => opcodeLdx m
  | .ldy (.imm _) => some 0xA0
  | .ldy (.mem m) => opcodeLdy m
  | .sta m => opcodeSta m
  | .stx m => opcodeStx m
  | .sty m => opcodeSty m
  | .tax => some 0xAA
  | .tay => some 0xA8
  | .tsx => some 0xBA
  | .txa => some 0x8A
  | .txs => some 0x9A
  | .tya => some 0x98
  | .pha => some 0x48
  | .php => some 0x08
  | .pla => some 0x68
  | .plp => some 0x28
  | .adc (.imm _) => some 0x69
  | .adc (.mem m) => opcodeAdc m
  | .sbc (.imm _) => some 0xE9
  | .sbc (.mem m) => opcodeSbc m
  | .cmp (.imm _) => some 0xC9
  | .cmp (.mem m) => opcodeCmp m
  | .cpx (.imm _) => some 0xE0
  | .cpx (.mem m) => opcodeCpx m
  | .cpy (.imm _) => some 0xC0
  | .cpy (.mem m) => opcodeCpy m
  | .inc m => opcodeInc m
  | .dec m => opcodeDec m
  | .inx => some 0xE8
  | .iny => some 0xC8
  | .dex => some 0xCA
  | .dey => some 0x88
  | .and (.imm _) => some 0x29
  | .and (.mem m) => opcodeAnd m
  | .ora (.imm _) => some 0x09
  | .ora (.mem m) => opcodeOra m
  | .eor (.imm _) => some 0x49
  | .eor (.mem m) => opcodeEor m
  | .bit m => opcodeBit m
  | .asl .acc => some 0x0A
  | .asl (.mem m) => opcodeAsl m
  | .lsr .acc => some 0x4A
  | .lsr (.mem m) => opcodeLsr m
  | .rol .acc => some 0x2A
  | .rol (.mem m) => opcodeRol m
  | .ror .acc => some 0x6A
  | .ror (.mem m) => opcodeRor m
  | .bcc _ => some 0x90
  | .bcs _ => some 0xB0
  | .beq _ => some 0xF0
  | .bmi _ => some 0x30
  | .bne _ => some 0xD0
  | .bpl _ => some 0x10
  | .bvc _ => some 0x50
  | .bvs _ => some 0x70
  | .jmp (.abs _) => some 0x4C
  | .jmp (.ind _) => some 0x6C
  | .jsr _ => some 0x20
  | .rts => some 0x60
  | .clc => some 0x18
  | .cld => some 0xD8
  | .cli => some 0x58
  | .clv => some 0xB8
  | .sec => some 0x38
  | .sed => some 0xF8
  | .sei => some 0x78
  | .nop => some 0xEA
  | .brk _ => some 0x00
  | .rti => some 0x40
  | .illegal op => if isIllegalOpcode op then some op else none

/-- The operand bytes of an effective-address form, low byte first (rules R60, R62). -/
def EaMode.operandBytes : EaMode → List Byte
  | .zp d => [d]
  | .zpx d => [d]
  | .zpy d => [d]
  | .abs a => [loByte a, hiByte a]
  | .absx a => [loByte a, hiByte a]
  | .absy a => [loByte a, hiByte a]
  | .indx d => [d]
  | .indy d => [d]

/-- The operand bytes of a reading form. -/
def ReadMode.operandBytes : ReadMode → List Byte
  | .imm d => [d]
  | .mem m => m.operandBytes

/-- The operand bytes of a read-modify-write form. -/
def ModifyMode.operandBytes : ModifyMode → List Byte
  | .acc => []
  | .mem m => m.operandBytes

/-- The operand bytes of JMP. -/
def JmpMode.operandBytes : JmpMode → List Byte
  | .abs a => [loByte a, hiByte a]
  | .ind a => [loByte a, hiByte a]

/-- The bytes after the opcode (rules R60, R62). -/
def Instr.operandBytes : Instr → List Byte
  | .lda m => m.operandBytes
  | .ldx m => m.operandBytes
  | .ldy m => m.operandBytes
  | .sta m => m.operandBytes
  | .stx m => m.operandBytes
  | .sty m => m.operandBytes
  | .tax => []
  | .tay => []
  | .tsx => []
  | .txa => []
  | .txs => []
  | .tya => []
  | .pha => []
  | .php => []
  | .pla => []
  | .plp => []
  | .adc m => m.operandBytes
  | .sbc m => m.operandBytes
  | .cmp m => m.operandBytes
  | .cpx m => m.operandBytes
  | .cpy m => m.operandBytes
  | .inc m => m.operandBytes
  | .dec m => m.operandBytes
  | .inx => []
  | .iny => []
  | .dex => []
  | .dey => []
  | .and m => m.operandBytes
  | .ora m => m.operandBytes
  | .eor m => m.operandBytes
  | .bit m => m.operandBytes
  | .asl m => m.operandBytes
  | .lsr m => m.operandBytes
  | .rol m => m.operandBytes
  | .ror m => m.operandBytes
  | .bcc d => [d]
  | .bcs d => [d]
  | .beq d => [d]
  | .bmi d => [d]
  | .bne d => [d]
  | .bpl d => [d]
  | .bvc d => [d]
  | .bvs d => [d]
  | .jmp m => m.operandBytes
  | .jsr a => [loByte a, hiByte a]
  | .rts => []
  | .clc => []
  | .cld => []
  | .cli => []
  | .clv => []
  | .sec => []
  | .sed => []
  | .sei => []
  | .nop => []
  | .brk d => [d]
  | .rti => []
  | .illegal _ => []

/-- The bytes of an instruction, in address order; none for an ill-formed one. -/
def encode (i : Instr) : Option (List Byte) := i.opcode.map (· :: i.operandBytes)

end Sys2Proof
end

