-- ==== Sys2Proof/Config.lean ====
section
/-! DEFINITION. What the spec leaves open (the rows marked OPEN of rule R5, spec/00_scope.md): free values that
nothing in Lean can evaluate, and the named parameters of an implementation. -/

namespace Sys2Proof

/-- `DEC_V`: the overflow flag after a decimal-mode ADC or SBC, "a free boolean per execution (a draw)" (rules R5,
R135). The argument is the draw's number, `State.draws`, so every execution has a draw of its own. -/
opaque Config.decV : Nat → Bool

/-- `DEC_INVALID`, the `u8`: the result of a decimal-mode ADC or SBC whose operands are not both valid BCD (rules
R132, R134). -/
opaque Config.decInvalidResult : Nat → Byte

/-- `DEC_INVALID`, the `u1`: the carry of a decimal-mode ADC or SBC whose operands are not both valid BCD (rules
R132, R134). -/
opaque Config.decInvalidCarry : Nat → Bool

/-- Whether a request of the kind being entered, raised by one of the Bus accesses of that entry, is still pending after it.
R207 clears the bit after the entry, R211 says such a request is seen at the next step f, and no ruling of
spec/90_conflicts.md names the point: free (DESIGN CHOICE, log entry 13). -/
opaque Config.keepsRequestDuringEntry : Bool

/-- Whether a request raised by one of the two vector peeks of `reset()` is still pending after it. R230 clears the bits
before the peeks and R44 lets any peek raise a request, R235 says none is pending, and no ruling names the point: free
(DESIGN CHOICE, log entry 18). -/
opaque Config.keepsRequestDuringReset : Bool

/-- Whether a dead instance stays dead when the snapshot of a live one is loaded into it. R252 has `load` replace all four
`ES` bits, R24, R25, R26 and decision D10 have nothing but creation end a FatalError, and no ruling names the point: free
(DESIGN CHOICE, log entry 17). -/
opaque Config.loadKeepsFatal : Bool

/-- `TRUE_PATTERN` and `FALSE_PATTERN`, the two sentinel constants of the snapshot: an argument of `save` and `load`,
never fixed by the model (rules R5, R251, decision D18). -/
structure Config.BoolPatterns where
  truePattern  : BitVec 32
  falsePattern : BitVec 32
deriving DecidableEq, Repr

/-- "Two distinct `u32` values neither of which is 0 or 1" (rule R251). -/
abbrev Config.BoolPatterns.Legal (p : Config.BoolPatterns) : Prop :=
  p.truePattern ≠ p.falsePattern ∧ p.truePattern ≠ 0 ∧ p.truePattern ≠ 1 ∧
    p.falsePattern ≠ 0 ∧ p.falsePattern ≠ 1

end Sys2Proof
end

