-- ==== Sys2Proof/Machine/Memory.lean ====
section
/-! DEFINITION. The bytes behind the Bus: 65,536 of them (rules R28, R40), as a list in one canonical form. -/

namespace Sys2Proof.Machine

/-- The bytes that differ from `Memory.fill`, by address, addresses strictly rising. -/
abbrev Memory := List Host.Cell

/-- What an unlisted address reads as. DESIGN CHOICE (log entry 2), unsafe: the spec leaves every byte to the Bus
(rule R51, decision D25); 0x00 is the initial content of the Bus instance of spec/95_test_vectors.md section 0. -/
def Memory.fill : Byte := 0x00

/-- The byte at an address. -/
def Memory.read : Memory → Nat → Byte
  | [], _ => Memory.fill
  | (k, v) :: m, a => if k = a then v else Memory.read m a

/-- Put a byte before the rest of a canonical list, unless it is what an unlisted address reads as. -/
def Memory.cons (a : Nat) (v : Byte) (m : Memory) : Memory := if v = Memory.fill then m else (a, v) :: m

/-- Store a byte; the canonical form is kept. -/
def Memory.write : Memory → Nat → Byte → Memory
  | [], a, v => Memory.cons a v []
  | (k, w) :: m, a, v =>
    if a < k then Memory.cons a v ((k, w) :: m)
    else if a = k then Memory.cons a v m
    else (k, w) :: Memory.write m a v

/-- Canonical form from address `lo` up: addresses strictly rising and below 65,536, no entry equal to
`Memory.fill`. -/
def Memory.wfFrom (lo : Nat) : Memory → Bool
  | [] => true
  | (k, v) :: m => decide (lo ≤ k) && decide (k < 65536) && decide (v ≠ Memory.fill) && Memory.wfFrom (k + 1) m

/-- The memory is in canonical form. -/
def Memory.wf (m : Memory) : Bool := Memory.wfFrom 0 m

end Sys2Proof.Machine
end

