-- ==== Sys2Proof/Machine/State.lean ====
section
/-! DEFINITION. The state: ProcessorState exactly as rule R10 (spec/10_state.md) lists it, the Bus it drives (rules R40
to R44, spec/20_memory.md), the debug collaborator's answers (rule R216) and the number of the next draw. -/

namespace Sys2Proof.Machine

/-- The seven flags, "each a single bit semantically" (rule R17). `z` is the flag Z; the source stores its complement,
which only the snapshot shows (rule R18). -/
@[ext]
structure Flags where
  n : Bool
  v : Bool
  b : Bool
  d : Bool
  i : Bool
  z : Bool
  c : Bool
deriving DecidableEq, Repr

/-- ExecutionStatus `ES`: the pending interrupts, StopExecution and FatalError (rule R24). -/
@[ext]
structure ExecStatus where
  irq   : Bool
  nmi   : Bool
  stop  : Bool
  fatal : Bool
deriving DecidableEq, Repr

/-- ProcessorState: "exactly" the registers, the flags and ExecutionStatus (rule R10). -/
@[ext]
structure ProcessorState where
  a  : Byte
  x  : Byte
  y  : Byte
  sp : Byte
  pc : Word
  ir : Byte
  p  : Flags
  es : ExecStatus
deriving DecidableEq, Repr

/-- Requests a collaborator raises at one moment, each setting one `ES` bit (rules R44, R204, R205, R215). -/
structure Requests where
  irq  : Bool
  nmi  : Bool
  stop : Bool
deriving DecidableEq, Repr

/-- No request. -/
def Requests.none : Requests := ⟨false, false, false⟩

/-- What the Bus oracle does at one access beyond plain RAM (rule R44): `data` is the byte a peek answers in place of
the byte stored there (a device register, a switched bank, ROM), `raises` the requests a handler raises. -/
structure BusAnswer where
  data   : Option Byte
  raises : Requests
deriving DecidableEq, Repr

/-- The answer of plain RAM: the stored byte and no request. -/
def BusAnswer.plain : BusAnswer := ⟨.none, .none⟩

/-- One call of the engine on the Bus (rules R7, R41 to R43). -/
inductive BusEvent where
  | peek (addr : Word)
  | poke (addr : Word) (v : Byte)
  | cycles (n : Nat)
deriving DecidableEq, Repr

/-- The Bus. `mem` is the byte each address holds; `cycles` the master cycle counter, an unbounded natural (rules R43,
R213). `script` holds the oracle's answers to the coming accesses, one for each, first first; past its end the Bus is the
plain RAM of rule R44, so over a finite run every oracle is some script (log entry 3). `trace` is the single total order
of bus events (rule R53), latest first. -/
@[ext]
structure Bus where
  mem    : Memory
  cycles : Nat
  script : List BusAnswer
  trace  : List BusEvent
deriving DecidableEq, Repr

/-- One answer of the debug collaborator at step a: stop before the pending instruction (`DebugStop` is true, `ES` is
unchanged), or go on, perhaps having raised a request (rules R83, R204, R215, R216). -/
inductive HookAnswer where
  | stop
  | goOn (raises : Requests)
deriving DecidableEq, Repr

/-- The machine. -/
@[ext]
structure State where
  /-- ProcessorState (rule R10). -/
  cpu   : ProcessorState
  /-- The Bus (rule R11). -/
  bus   : Bus
  /-- The debug collaborator's answers to the coming consultations; `[]` is the minimal build, whose hook is always
  false (rules R5, R83). -/
  hook  : List HookAnswer
  /-- The model's own counter: the number of the next free value (rule R7, `draw`). -/
  draws : Nat
deriving DecidableEq, Repr

/-- Why `execute` leaves its loop, so that no further iteration runs in this call (rule R82). Each is raised by `step`
before it fetches, and by no instruction. All are safe: the machine stands still. -/
inductive Fault where
  /-- Raised by `step` when `ES.Fatal = 1`: `execute` returns `false`, for ever (rules R25, R82, R201). Safe: the spec
  itself stops here. -/
  | fatalError
  /-- Raised by `step` when `ES.Stop = 1`: `execute` returns `true` and the host's next call resumes (rules R82, R215;
  `execute` models that call). Safe: the spec itself stops here. -/
  | stopped
  /-- Raised by `step` when the debug hook asks for a stop: `execute` returns `true` without consuming the pending
  instruction (rules R83, R216). Safe: the spec itself stops here. -/
  | debugStop
deriving DecidableEq, Repr

/-- Why an instruction has no meaning in the model. -/
inductive Refusal where
  /-- Kept for an arm of `exec` without a meaning. Safe: nothing is provable of it. Nothing raises it: every arm has
  its meaning. -/
  | notModelled (mnemonic : String)
deriving DecidableEq, Repr

/-- The values at creation of what the spec leaves free, `POWER_ON` (rules R5, R30, R231), with `ES = 0`. DESIGN CHOICE
(log entry 1), unsafe: every free value is zero. `create` takes any other. -/
def ProcessorState.powerOn : ProcessorState :=
  { a := 0, x := 0, y := 0, sp := 0, pc := 0, ir := 0,
    p := ⟨false, false, false, false, false, false, false⟩,
    es := ⟨false, false, false, false⟩ }

/-- The machine right after creation and `reset()` (rules R230, R231) on a Bus of plain RAM that lists nothing: `I` is set,
`PC` is the word at the reset vector, two zero bytes, and the Bus has seen the two vector peeks. -/
def State.reset : State :=
  { cpu := { ProcessorState.powerOn with p := ⟨false, false, false, false, true, false, false⟩, pc := 0x0000 },
    bus := { mem := [], cycles := 0, script := [], trace := [.peek 0xFFFD, .peek 0xFFFC] },
    hook := [], draws := 0 }

end Sys2Proof.Machine
end

