-- ==== Sys2Proof/Machine/Flags.lean ====
section
/-! DEFINITION. Every flag computation and every result of the arithmetic unit: functions of bytes and flags alone
(spec/10_state.md rules R20 to R22, spec/42_arithmetic.md, spec/43_logic_shift.md). -/

namespace Sys2Proof.Machine

/-- `SetNZ(v)` (rule R20). -/
def Flags.setNZ (p : Flags) (v : Byte) : Flags := { p with n := v.getLsbD 7, z := decide (v = 0) }

/-- `P()`: `N V 1 B D I Z C`, bit 5 constant 1 (rule R21). -/
def Flags.pack (p : Flags) : Byte :=
  BitVec.ofBool p.n ++ BitVec.ofBool p.v ++ 1#1 ++ BitVec.ofBool p.b ++ BitVec.ofBool p.d ++ BitVec.ofBool p.i ++
    BitVec.ofBool p.z ++ BitVec.ofBool p.c

/-- `LoadP(b)`: all seven flags, bit 5 ignored (rule R22). -/
def Flags.unpack (b : Byte) : Flags :=
  { n := b.getLsbD 7, v := b.getLsbD 6, b := b.getLsbD 4, d := b.getLsbD 3, i := b.getLsbD 2, z := b.getLsbD 1,
    c := b.getLsbD 0 }

/-- Requests set bits of `ES` and clear none; a request already pending is absorbed (rules R204, R205, R215). -/
def ExecStatus.raise (es : ExecStatus) (r : Requests) : ExecStatus :=
  { es with irq := es.irq || r.irq, nmi := es.nmi || r.nmi, stop := es.stop || r.stop }

/-- `ES` with its requests as they are, or with none; Fatal stays. -/
def ExecStatus.keepRequests (es : ExecStatus) (keep : Bool) : ExecStatus :=
  { es with irq := es.irq && keep, nmi := es.nmi && keep, stop := es.stop && keep }

/-- What an addition or subtraction yields: the byte, the carry out, the overflow. -/
structure AluResult where
  r    : Byte
  cout : Bool
  v    : Bool
deriving DecidableEq, Repr

/-- `AddBin(a, m, c)`: the nine-bit sum (rule R130). -/
def addBin (a m : Byte) (c : Bool) : AluResult :=
  let t : BitVec 9 := a.setWidth 9 + m.setWidth 9 + (BitVec.ofBool c).setWidth 9
  let r : Byte := t.setWidth 8
  { r := r, cout := t.getLsbD 8, v := ((a ^^^ r) &&& (m ^^^ r)).getLsbD 7 }

/-- The high nibble as a number. -/
def hiNibble (v : Byte) : Nat := v.toNat / 16

/-- The low nibble as a number. -/
def loNibble (v : Byte) : Nat := v.toNat % 16

/-- Valid BCD: both nibbles at most 9 (rules R9, R132). -/
def validBcd (v : Byte) : Bool := decide (hiNibble v ≤ 9) && decide (loNibble v ≤ 9)

/-- `dec(v) = 10*v[7:4] + v[3:0]` (rule R132). -/
def bcdValue (v : Byte) : Nat := 10 * hiNibble v + loNibble v

/-- `bcd(n) = {n div 10, n mod 10}` for `n` in 0 to 99 (rule R132). -/
def toBcd (n : Nat) : Byte := BitVec.ofNat 8 (16 * (n / 10) + n % 10)

/-- A carry as a number. -/
def carryNat (c : Bool) : Nat := if c then 1 else 0

/-- The byte and carry of draw number `k`, for operands that are not both valid BCD (rules R132, R134, `DEC_INVALID`), with
the drawn overflow (rule R135). Free values (log entry 4). -/
def drawnResult (k : Nat) : AluResult :=
  { r := Config.decInvalidResult k, cout := Config.decInvalidCarry k, v := Config.decV k }

/-- `DecAdd(a, m, c)` (rule R132); V is draw number `k` (rule R135). -/
def decAdd (k : Nat) (a m : Byte) (c : Bool) : AluResult :=
  if validBcd a && validBcd m then
    let s := bcdValue a + bcdValue m + carryNat c
    { r := toBcd (s % 100), cout := decide (99 < s), v := Config.decV k }
  else drawnResult k

/-- `DecSub(a, m, c)` (rule R134); V is draw number `k` (rule R135). -/
def decSub (k : Nat) (a m : Byte) (c : Bool) : AluResult :=
  if validBcd a && validBcd m then
    let d : Int := (bcdValue a : Int) - bcdValue m - (1 - carryNat c)
    { r := toBcd (d % 100).toNat, cout := decide (0 ≤ d), v := Config.decV k }
  else drawnResult k

/-- The flags after an addition or subtraction: `C`, `V` and `SetNZ` of the result (rules R131, R133, R135). -/
def Flags.setAlu (p : Flags) (t : AluResult) : Flags := { p.setNZ t.r with c := t.cout, v := t.v }

/-- The flags after a compare of register `r` with `m`: `C` is unsigned `r >= m`, `N` and `Z` are those of the wrapped
difference; `V`, and the incoming `C` and `D`, play no part (rules R136 to R138). -/
def Flags.setCompare (p : Flags) (r m : Byte) : Flags := { p.setNZ (r - m) with c := decide (m.toNat ≤ r.toNat) }

/-- The flags after BIT: `Z` of the and, `N` and `V` copied from the memory byte (rule R153). -/
def Flags.setBit (p : Flags) (a m : Byte) : Flags :=
  { p with z := decide (a &&& m = 0), n := m.getLsbD 7, v := m.getLsbD 6 }

/-- The flags after a shift or rotate: `C` is the bit shifted out, `N` and `Z` are those of the result (rules R154 to
R157). -/
def Flags.setShift (p : Flags) (out : Bool) (r : Byte) : Flags := { p.setNZ r with c := out }

/-- ASL: bit 0 becomes 0 (rule R154). -/
def shiftLeft (v : Byte) : Byte := v <<< 1

/-- LSR: bit 7 becomes 0 (rule R155). -/
def shiftRight (v : Byte) : Byte := v >>> 1

/-- ROL: the old carry enters at bit 0 (rule R156). -/
def rotateLeft (c : Bool) (v : Byte) : Byte := (v <<< 1) ||| (BitVec.ofBool c).setWidth 8

/-- ROR: the old carry enters at bit 7 (rule R157). -/
def rotateRight (c : Bool) (v : Byte) : Byte := (v >>> 1) ||| ((BitVec.ofBool c).setWidth 8 <<< 7)

/-- `DecAddDefault`, the total algorithm rule R132 offers to simulators. No instruction uses it: at an operand that is not
valid BCD the model's result is free. -/
def decAddDefault (a m : Byte) (c : Bool) : Byte × Bool :=
  let t := loNibble a + loNibble m + carryNat c
  let al := if 10 ≤ t then (t + 6) % 16 + 16 else t
  let u := 16 * hiNibble a + 16 * hiNibble m + al
  let s := if 0xA0 ≤ u then u + 0x60 else u
  (BitVec.ofNat 8 s, decide (0x100 ≤ s))

/-- `DecSubDefault`, the total algorithm rule R134 offers to simulators. No instruction uses it. -/
def decSubDefault (a m : Byte) (c : Bool) : Byte × Bool :=
  let t : Int := (loNibble a : Int) - loNibble m + carryNat c - 1
  let al : Int := if t < 0 then (t - 6) % 16 - 16 else t
  let u : Int := 16 * (hiNibble a : Int) - 16 * hiNibble m + al
  let s : Int := if u < 0 then u - 0x60 else u
  (BitVec.ofInt 8 s, (addBin a (~~~m) c).cout)

end Sys2Proof.Machine
end

