-- ==== Sys2Proof/Machine/Ops.lean ====
section
/-! DEFINITION. The named operations over registers, the Bus and the stack, and the entry to a handler with the return
from one (spec/20_memory.md, spec/60_exceptions.md, the primitives of rule R7). -/

namespace Sys2Proof.Machine

/-! Registers. -/

/-- `A <- v`. -/
def State.setA (s : State) (v : Byte) : State := { s with cpu := { s.cpu with a := v } }

/-- `X <- v`. -/
def State.setX (s : State) (v : Byte) : State := { s with cpu := { s.cpu with x := v } }

/-- `Y <- v`. -/
def State.setY (s : State) (v : Byte) : State := { s with cpu := { s.cpu with y := v } }

/-- `SP <- v`. -/
def State.setSP (s : State) (v : Byte) : State := { s with cpu := { s.cpu with sp := v } }

/-- `PC <- v`. -/
def State.setPC (s : State) (v : Word) : State := { s with cpu := { s.cpu with pc := v } }

/-- `IR <- v`. -/
def State.setIR (s : State) (v : Byte) : State := { s with cpu := { s.cpu with ir := v } }

/-- Write the flags. -/
def State.setP (s : State) (p : Flags) : State := { s with cpu := { s.cpu with p := p } }

/-- Write ExecutionStatus. -/
def State.setES (s : State) (es : ExecStatus) : State := { s with cpu := { s.cpu with es := es } }

/-- `SetNZ(v)` (rule R20). -/
def State.setNZ (s : State) (v : Byte) : State := s.setP (s.cpu.p.setNZ v)

/-- `raise Fatal`: `ES.Fatal <- 1` (rules R7, R201). -/
def State.raiseFatal (s : State) : State := s.setES { s.cpu.es with fatal := true }

/-- A collaborator raises requests (rules R204, R205, R215). -/
def State.raise (s : State) (r : Requests) : State := s.setES (s.cpu.es.raise r)

/-- Use up one draw (rule R7). -/
def State.nextDraw (s : State) : State := { s with draws := s.draws + 1 }

/-! The Bus. -/

/-- The oracle's answer to the next access: the head of its script, plain RAM past the end (rule R44). -/
def Bus.answer (b : Bus) : BusAnswer := b.script.headD .plain

/-- The Bus after an access: its answer is used up and the event recorded. -/
def Bus.record (b : Bus) (e : BusEvent) : Bus := { b with script := b.script.tail, trace := e :: b.trace }

/-- `MemRead(addr, 1)`: one `Bus.peek` (rules R41, R44, R45). -/
def peek (addr : Word) (s : State) : Byte × State :=
  (s.bus.answer.data.getD (s.bus.mem.read addr.toNat),
    { s.raise s.bus.answer.raises with bus := s.bus.record (.peek addr) })

/-- `MemWrite(addr, 1, v)`: one `Bus.poke` (rules R42, R44, R45). -/
def poke (addr : Word) (v : Byte) (s : State) : State :=
  { s.raise s.bus.answer.raises with
    bus := { s.bus.record (.poke addr v) with mem := s.bus.mem.write addr.toNat v } }

/-- `Cycles(n)`: one `Bus.incrementCycles(n)`, which is no access (rules R43, R213). -/
def addCycles (n : Nat) (s : State) : State :=
  { s with bus := { s.bus with cycles := s.bus.cycles + n, trace := .cycles n :: s.bus.trace } }

/-- `{hi, lo}` with the low byte peeked first, at `lo`, and the high byte then, at `hi` (rules R46, R95, R96). -/
def peekWord (lo hi : Word) (s : State) : Word × State :=
  let l := peek lo s
  let h := peek hi l.2
  (makeWord h.1 l.1, h.2)

/-- `MemRead16(addr)` (rules R7, R46). -/
def memRead16 (addr : Word) (s : State) : Word × State := peekWord addr (addr + 1) s

/-- `Fetch()`: the byte at `PC`, and `PC` one further (rules R7, R84). -/
def fetch (s : State) : Byte × State :=
  let r := peek s.cpu.pc s
  (r.1, r.2.setPC (s.cpu.pc + 1))

/-! The stack. -/

/-- The address of the stack byte `SP` designates, `0x0100 + SP` (rules R15, R49). -/
def stackAddr (sp : Byte) : Word := 0x0100#16 + zext16 sp

/-- `Push(v)`: write, then decrement (rule R49). -/
def push (v : Byte) (s : State) : State := (poke (stackAddr s.cpu.sp) v s).setSP (s.cpu.sp - 1)

/-- `Pull()`: increment, then read (rule R49). -/
def pull (s : State) : Byte × State := peek (stackAddr (s.cpu.sp + 1)) (s.setSP (s.cpu.sp + 1))

/-- Push a word, high byte first (rules R46, R181, R196, R208). -/
def pushWord (w : Word) (s : State) : State := push (loByte w) (push (hiByte w) s)

/-- Pull a word, low byte first (rules R182, R197). -/
def pullWord (s : State) : Word × State :=
  let l := pull s
  let h := pull l.2
  (makeWord h.1 l.1, h.2)

/-! Taking an exception, and the return from one. -/

/-- The NMI vector (rules R5, R50). -/
def vecNmi : Word := 0xFFFA

/-- The reset vector (rules R5, R50). -/
def vecReset : Word := 0xFFFC

/-- The IRQ and BRK vector (rules R5, R50). -/
def vecIrq : Word := 0xFFFE

/-- Enter the handler at the word `vec` holds: push `PC`, push the status byte given, clear `D` if asked, set `I`, load
`PC` through the vector (the common part of rules R196 and R208). -/
def takeException (clearDecimal : Bool) (status : Byte) (vec : Word) (s : State) : State :=
  let s1 := push status (pushWord s.cpu.pc s)
  let s2 := s1.setP { s1.cpu.p with d := if clearDecimal then false else s1.cpu.p.d, i := true }
  let r := memRead16 vec s2
  r.2.setPC r.1

/-- `Enter(vec)`, the hardware interrupt entry: 7 cycles, the status byte with bit 4 clear, `D` cleared (rule R208). -/
def interruptEntry (vec : Word) (s : State) : State :=
  takeException true (s.cpu.p.pack &&& 0xEF) vec (addCycles 7 s)

/-- The return from a handler: the status byte into all seven flags, then `PC` (rules R197, R211). -/
def returnFromException (s : State) : State :=
  let b := pull s
  let w := pullWord (b.2.setP (Flags.unpack b.1))
  w.2.setPC w.1

end Sys2Proof.Machine
end

