-- ==== Sys2Proof/Machine/Operands.lean ====
section
/-! DEFINITION. The addressing modes and the three access patterns (spec/40_dispatch_and_addressing.md). The operand bytes
stand in the instruction: they are fetched before any other access of its routine (rules R58, R101), by `fetchInstr`. -/

namespace Sys2Proof.Machine

/-- An effective address, and whether an indexed sum left its base's page (`crossed`; false for a mode that does not
define it). -/
structure Ea where
  addr    : Word
  crossed : Bool
deriving DecidableEq, Repr

/-- `base + index` modulo 2^16, and whether it left the page of `base` (rules R93, R94, R97). -/
def indexed (base : Word) (index : Byte) : Ea :=
  let ea := base + zext16 index
  { addr := ea, crossed := decide (page ea ≠ page base) }

/-- `EA(mode)`: the effective address, with the pointer peeks of the indirect modes (rules R89 to R94, R96, R97, R100). -/
def effectiveAddress (m : EaMode) (s : State) : Ea × State :=
  match m with
  | .zp d => (⟨zext16 d, false⟩, s)
  | .zpx d => (⟨zext16 (d + s.cpu.x), false⟩, s)
  | .zpy d => (⟨zext16 (d + s.cpu.y), false⟩, s)
  | .abs a => (⟨a, false⟩, s)
  | .absx a => (indexed a s.cpu.x, s)
  | .absy a => (indexed a s.cpu.y, s)
  | .indx d =>
    let p := d + s.cpu.x
    let r := peekWord (zext16 p) (zext16 (p + 1)) s
    (⟨r.1, false⟩, r.2)
  | .indy d =>
    let r := peekWord (zext16 d) (zext16 (d + 1)) s
    (indexed r.1 s.cpu.y, r.2)

/-- The page-crossing penalty, one `Cycles(1)` before the data peek (rules R100, R248). -/
def pagePenalty (e : Ea) (s : State) : State := if e.crossed then addCycles 1 s else s

/-- `ReadOperand(mode)` (rule R100). -/
def readOperand (m : ReadMode) (s : State) : Byte × State :=
  match m with
  | .imm d => (d, s)
  | .mem m =>
    let e := effectiveAddress m s
    peek e.1.addr (pagePenalty e.1 e.2)

/-- `WriteOperand(mode, v)`: no read of the target, no penalty (rule R100). -/
def writeOperand (m : EaMode) (v : Byte) (s : State) : State :=
  let e := effectiveAddress m s
  poke e.1.addr v e.2

/-- `ModifyOperand(mode, f)`: one read, then one write, or `A` (rule R100). Answers the value before `f`. -/
def modifyOperand (m : ModifyMode) (f : Byte → Byte) (s : State) : Byte × State :=
  match m with
  | .acc => (s.cpu.a, s.setA (f s.cpu.a))
  | .mem m =>
    let e := effectiveAddress m s
    let v := peek e.1.addr e.2
    (v.1, poke e.1.addr (f v.1) v.2)

/-- Relative: the target of a branch, from the address of the next instruction (rule R98). -/
def branchTarget (pc : Word) (d : Byte) : Word := pc + sext16 d

/-- Absolute indirect: the pointer of JMP, whose high byte comes from the same page (rule R95). -/
def indirectTarget (ptr : Word) (s : State) : Word × State :=
  peekWord ptr (makeWord (hiByte ptr) (loByte ptr + 1)) s

end Sys2Proof.Machine
end

