-- ==== Sys2Proof/Machine/Result.lean ====
section
/-! DEFINITION. What a meaning answers. -/

namespace Sys2Proof.Machine

/-- The outcome of one instruction or step. -/
abbrev Result := Host.Outcome State Fault Refusal

end Sys2Proof.Machine
end

