-- ==== Sys2Proof/Machine/Arithmetic.lean ====
section
/-! DEFINITION. Arithmetic, compares, increments and decrements (spec/42_arithmetic.md). -/

namespace Sys2Proof.Machine

/-- Write an addition's or subtraction's result to `A` and the flags (rules R131, R133). -/
def State.setAlu (s : State) (t : AluResult) : State := (s.setA t.r).setP (s.cpu.p.setAlu t)

/-- `A` combined with `m`: by `bin` when `D = 0`; by `dec` with a fresh draw when `D = 1` (rules R131, R133, R135). -/
def addSub (bin : Byte → Byte → Bool → AluResult) (dec : Nat → Byte → Byte → Bool → AluResult) (m : Byte)
    (s : State) : State :=
  if s.cpu.p.d then (s.setAlu (dec s.draws s.cpu.a m s.cpu.p.c)).nextDraw
  else s.setAlu (bin s.cpu.a m s.cpu.p.c)

/-- ADC (rule R131). -/
def execAdc (m : ReadMode) (s : State) : Result :=
  let v := readOperand m s
  .next (addSub addBin decAdd v.1 v.2)

/-- SBC (rule R133): in binary mode the adder takes the complemented operand. -/
def execSbc (m : ReadMode) (s : State) : Result :=
  let v := readOperand m s
  .next (addSub (fun a m c => addBin a (~~~m) c) decSub v.1 v.2)

/-- Compare a register with the operand; only flags are written (rules R136 to R138). -/
def compare (r : Byte) (m : ReadMode) (s : State) : State :=
  let v := readOperand m s
  v.2.setP (v.2.cpu.p.setCompare r v.1)

/-- CMP (rule R136). -/
def execCmp (m : ReadMode) (s : State) : Result := .next (compare s.cpu.a m s)

/-- CPX (rule R137). -/
def execCpx (m : ReadMode) (s : State) : Result := .next (compare s.cpu.x m s)

/-- CPY (rule R138). -/
def execCpy (m : ReadMode) (s : State) : Result := .next (compare s.cpu.y m s)

/-- Modify a memory byte, then `SetNZ` of its new value (rules R139, R140). -/
def modifyNZ (m : EaMode) (f : Byte → Byte) (s : State) : State :=
  let v := modifyOperand (.mem m) f s
  v.2.setNZ (f v.1)

/-- INC (rule R139). -/
def execInc (m : EaMode) (s : State) : Result := .next (modifyNZ m (· + 1) s)

/-- DEC (rule R140). -/
def execDec (m : EaMode) (s : State) : Result := .next (modifyNZ m (· - 1) s)

/-- INX (rule R141). -/
def execInx (s : State) : Result := .next ((s.setX (s.cpu.x + 1)).setNZ (s.cpu.x + 1))

/-- INY (rule R142). -/
def execIny (s : State) : Result := .next ((s.setY (s.cpu.y + 1)).setNZ (s.cpu.y + 1))

/-- DEX (rule R143). -/
def execDex (s : State) : Result := .next ((s.setX (s.cpu.x - 1)).setNZ (s.cpu.x - 1))

/-- DEY (rule R144). -/
def execDey (s : State) : Result := .next ((s.setY (s.cpu.y - 1)).setNZ (s.cpu.y - 1))

end Sys2Proof.Machine
end

