-- ==== Sys2Proof/Machine/Control.lean ====
section
/-! DEFINITION. Branches, jumps, subroutines, flag instructions and NOP (spec/44_control_flags_system.md). -/

namespace Sys2Proof.Machine

/-- The common rule of the branches (rule R170): a taken one costs a cycle, and another one when it leaves the page of
the next instruction (rule R249). `PC` is the address of the next instruction. -/
def branch (taken : Bool) (d : Byte) (s : State) : State :=
  if taken then
    let target := branchTarget s.cpu.pc d
    let s1 := addCycles 1 s
    let s2 := if page target ≠ page s.cpu.pc then addCycles 1 s1 else s1
    s2.setPC target
  else s

/-- BCC (rule R171). -/
def execBcc (d : Byte) (s : State) : Result := .next (branch (!s.cpu.p.c) d s)

/-- BCS (rule R172). -/
def execBcs (d : Byte) (s : State) : Result := .next (branch s.cpu.p.c d s)

/-- BEQ (rule R173). -/
def execBeq (d : Byte) (s : State) : Result := .next (branch s.cpu.p.z d s)

/-- BMI (rule R174). -/
def execBmi (d : Byte) (s : State) : Result := .next (branch s.cpu.p.n d s)

/-- BNE (rule R175). -/
def execBne (d : Byte) (s : State) : Result := .next (branch (!s.cpu.p.z) d s)

/-- BPL (rule R176). -/
def execBpl (d : Byte) (s : State) : Result := .next (branch (!s.cpu.p.n) d s)

/-- BVC (rule R177). -/
def execBvc (d : Byte) (s : State) : Result := .next (branch (!s.cpu.p.v) d s)

/-- BVS (rule R178). -/
def execBvs (d : Byte) (s : State) : Result := .next (branch s.cpu.p.v d s)

/-- JMP (rule R180), direct or through a pointer (rule R95). -/
def execJmp (m : JmpMode) (s : State) : Result :=
  match m with
  | .abs a => .next (s.setPC a)
  | .ind a =>
    let t := indirectTarget a s
    .next (t.2.setPC t.1)

/-- JSR (rule R181): the address of its last byte is pushed. -/
def execJsr (target : Word) (s : State) : Result := .next ((pushWord (s.cpu.pc - 1) s).setPC target)

/-- RTS (rule R182): one past the word pulled. -/
def execRts (s : State) : Result :=
  let w := pullWord s
  .next (w.2.setPC (w.1 + 1))

/-- CLC (rule R185). -/
def execClc (s : State) : Result := .next (s.setP { s.cpu.p with c := false })

/-- CLD (rule R186). -/
def execCld (s : State) : Result := .next (s.setP { s.cpu.p with d := false })

/-- CLI (rule R187). -/
def execCli (s : State) : Result := .next (s.setP { s.cpu.p with i := false })

/-- CLV (rule R188). -/
def execClv (s : State) : Result := .next (s.setP { s.cpu.p with v := false })

/-- SEC (rule R189). -/
def execSec (s : State) : Result := .next (s.setP { s.cpu.p with c := true })

/-- SED (rule R190). -/
def execSed (s : State) : Result := .next (s.setP { s.cpu.p with d := true })

/-- SEI (rule R191). -/
def execSei (s : State) : Result := .next (s.setP { s.cpu.p with i := true })

/-- NOP (rule R195): nothing; `PC` has already advanced. -/
def execNop (s : State) : Result := .next s

end Sys2Proof.Machine
end

