-- ==== Sys2Proof/Machine/LoadStore.lean ====
section
/-! DEFINITION. Loads, stores, register transfers and stack instructions (spec/41_load_store_transfer.md). -/

namespace Sys2Proof.Machine

/-- Load: a register takes the operand, `SetNZ` (rules R110 to R112). -/
def load (m : ReadMode) (set : State → Byte → State) (s : State) : State :=
  let v := readOperand m s
  (set v.2 v.1).setNZ v.1

/-- Transfer: a register takes a value, `SetNZ` (rules R116 to R119, R121). -/
def transfer (v : Byte) (set : State → Byte → State) (s : State) : State := (set s v).setNZ v

/-- LDA (rule R110). -/
def execLda (m : ReadMode) (s : State) : Result := .next (load m State.setA s)

/-- LDX (rule R111). -/
def execLdx (m : ReadMode) (s : State) : Result := .next (load m State.setX s)

/-- LDY (rule R112). -/
def execLdy (m : ReadMode) (s : State) : Result := .next (load m State.setY s)

/-- STA (rule R113): no flag is written. -/
def execSta (m : EaMode) (s : State) : Result := .next (writeOperand m s.cpu.a s)

/-- STX (rule R114): no flag is written. -/
def execStx (m : EaMode) (s : State) : Result := .next (writeOperand m s.cpu.x s)

/-- STY (rule R115): no flag is written. -/
def execSty (m : EaMode) (s : State) : Result := .next (writeOperand m s.cpu.y s)

/-- TAX (rule R116). -/
def execTax (s : State) : Result := .next (transfer s.cpu.a State.setX s)

/-- TAY (rule R117). -/
def execTay (s : State) : Result := .next (transfer s.cpu.a State.setY s)

/-- TSX (rule R118). -/
def execTsx (s : State) : Result := .next (transfer s.cpu.sp State.setX s)

/-- TXA (rule R119). -/
def execTxa (s : State) : Result := .next (transfer s.cpu.x State.setA s)

/-- TYA (rule R121). -/
def execTya (s : State) : Result := .next (transfer s.cpu.y State.setA s)

/-- TXS (rule R120): the one transfer that writes no flag. -/
def execTxs (s : State) : Result := .next (s.setSP s.cpu.x)

/-- PHA (rule R122). -/
def execPha (s : State) : Result := .next (push s.cpu.a s)

/-- PHP (rule R123): bit 4 is the stored `B`, bit 5 is 1. -/
def execPhp (s : State) : Result := .next (push s.cpu.p.pack s)

/-- PLA (rule R124). -/
def execPla (s : State) : Result :=
  let v := pull s
  .next ((v.2.setA v.1).setNZ v.1)

/-- PLP (rule R125). -/
def execPlp (s : State) : Result :=
  let b := pull s
  .next (b.2.setP (Flags.unpack b.1))

end Sys2Proof.Machine
end

