-- ==== Sys2Proof/Machine/Logic.lean ====
section
/-! DEFINITION. Logical operations, BIT, shifts and rotates (spec/43_logic_shift.md). -/

namespace Sys2Proof.Machine

/-- `A <- A op m`, `SetNZ` (rules R150 to R152). -/
def logic (op : Byte → Byte → Byte) (m : ReadMode) (s : State) : State :=
  let v := readOperand m s
  (v.2.setA (op v.2.cpu.a v.1)).setNZ (op v.2.cpu.a v.1)

/-- AND (rule R150). -/
def execAnd (m : ReadMode) (s : State) : Result := .next (logic (· &&& ·) m s)

/-- ORA (rule R151). -/
def execOra (m : ReadMode) (s : State) : Result := .next (logic (· ||| ·) m s)

/-- EOR (rule R152). -/
def execEor (m : ReadMode) (s : State) : Result := .next (logic (· ^^^ ·) m s)

/-- BIT (rule R153): `A` is not written. -/
def execBit (m : EaMode) (s : State) : Result :=
  let v := readOperand (.mem m) s
  .next (v.2.setP (v.2.cpu.p.setBit v.2.cpu.a v.1))

/-- A shift or rotate: the operand becomes `f` of itself, `C` its bit `out`, `SetNZ` of the result (rules R154 to
R157). -/
def shift (m : ModifyMode) (f : Byte → Byte) (out : Nat) (s : State) : State :=
  let v := modifyOperand m f s
  v.2.setP (v.2.cpu.p.setShift (v.1.getLsbD out) (f v.1))

/-- ASL (rule R154). -/
def execAsl (m : ModifyMode) (s : State) : Result := .next (shift m shiftLeft 7 s)

/-- LSR (rule R155). -/
def execLsr (m : ModifyMode) (s : State) : Result := .next (shift m shiftRight 0 s)

/-- ROL (rule R156). -/
def execRol (m : ModifyMode) (s : State) : Result := .next (shift m (rotateLeft s.cpu.p.c) 7 s)

/-- ROR (rule R157). -/
def execRor (m : ModifyMode) (s : State) : Result := .next (shift m (rotateRight s.cpu.p.c) 0 s)

end Sys2Proof.Machine
end

