-- ==== Sys2Proof/Machine/System.lean ====
section
/-! DEFINITION. BRK, RTI and the illegal opcodes (spec/44_control_flags_system.md, spec/60_exceptions.md). -/

namespace Sys2Proof.Machine

/-- BRK (rules R196, R202): the padding byte is fetched with the instruction and ignored; `B` is set before the status
byte is pushed; `D` is left alone. `PC` is the address of BRK plus 2. -/
def execBrk (_padding : Byte) (s : State) : Result :=
  let s1 := s.setP { s.cpu.p with b := true }
  .next (takeException false s1.cpu.p.pack vecIrq s1)

/-- RTI (rules R197, R211). -/
def execRti (s : State) : Result := .next (returnFromException s)

/-- An illegal opcode (rules R66, R201): `ES.Fatal <- 1` and nothing else. The byte itself stands in `IR`. -/
def execIllegal (_op : Byte) (s : State) : Result := .next s.raiseFatal

end Sys2Proof.Machine
end

