-- ==== Sys2Proof/Machine/Timing.lean ====
section
/-! DEFINITION. `CYCLE_TABLE[256]`, the base count each opcode is charged (rule R247, spec/70_reset_and_hazards.md). Timing
only: it reaches the cycle counter and nothing else (rule R246). -/

namespace Sys2Proof.Machine

/-- One row of the table, by high nibble; the entry of an illegal opcode is 0. -/
def cycleRow : Nat → List Nat
  | 0x0 => [7, 6, 0, 0, 0, 3, 5, 0, 3, 2, 2, 0, 0, 4, 6, 0]
  | 0x1 => [2, 5, 0, 0, 0, 4, 6, 0, 2, 4, 0, 0, 0, 4, 7, 0]
  | 0x2 => [6, 6, 0, 0, 3, 3, 5, 0, 4, 2, 2, 0, 4, 4, 6, 0]
  | 0x3 => [2, 5, 0, 0, 0, 4, 6, 0, 2, 4, 0, 0, 0, 4, 7, 0]
  | 0x4 => [6, 6, 0, 0, 0, 3, 5, 0, 3, 2, 2, 0, 3, 4, 6, 0]
  | 0x5 => [2, 5, 0, 0, 0, 4, 6, 0, 2, 4, 0, 0, 0, 4, 7, 0]
  | 0x6 => [6, 6, 0, 0, 0, 3, 5, 0, 4, 2, 2, 0, 5, 4, 6, 0]
  | 0x7 => [2, 5, 0, 0, 0, 4, 6, 0, 2, 4, 0, 0, 0, 4, 7, 0]
  | 0x8 => [0, 6, 0, 0, 3, 3, 3, 0, 2, 0, 2, 0, 4, 4, 4, 0]
  | 0x9 => [2, 6, 0, 0, 4, 4, 4, 0, 2, 5, 2, 0, 0, 5, 0, 0]
  | 0xA => [2, 6, 2, 0, 3, 3, 3, 0, 2, 2, 2, 0, 4, 4, 4, 0]
  | 0xB => [2, 5, 0, 0, 4, 4, 4, 0, 2, 4, 2, 0, 4, 4, 4, 0]
  | 0xC => [2, 6, 0, 0, 3, 3, 5, 0, 2, 2, 2, 0, 4, 4, 6, 0]
  | 0xD => [2, 5, 0, 0, 0, 4, 6, 0, 2, 4, 0, 0, 0, 4, 7, 0]
  | 0xE => [2, 6, 0, 0, 3, 3, 5, 0, 2, 2, 2, 0, 4, 4, 6, 0]
  | _ => [2, 5, 0, 0, 0, 4, 6, 0, 2, 4, 0, 0, 0, 4, 7, 0]

/-- `CYCLE_TABLE[op]` (rule R247). -/
def cycleTable (op : Byte) : Nat := (cycleRow (op.toNat / 16)).getD (op.toNat % 16) 0

end Sys2Proof.Machine
end

