-- ==== Sys2Proof/Machine/Loop.lean ====
section
/-! DEFINITION. The parts of one iteration of the dispatch loop around the instruction's meaning: the exit check, step a,
steps b and c with the operand fetches, step f (spec/40_dispatch_and_addressing.md, spec/60_exceptions.md). -/

namespace Sys2Proof.Machine

/-- The exit check, less the count, which `execute` keeps: FatalError before StopExecution (rule R82). -/
def exitCheck (s : State) : Option Fault :=
  if s.cpu.es.fatal then some .fatalError
  else if s.cpu.es.stop then some .stopped
  else none

/-- Step a: consult the debug hook. It asks for a stop, with `ES` unchanged, or goes on, perhaps with a request raised
(rules R83, R204, R216). -/
def consultHook (s : State) : Bool × State :=
  match s.hook with
  | [] => (false, s)
  | .stop :: rest => (true, { s with hook := rest })
  | .goOn r :: rest => (false, { s with hook := rest }.raise r)

/-- Step b: `IR <- MemRead(PC, 1); PC <- (PC + 1) mod 2^16` (rule R84). -/
def fetchOpcode (s : State) : Byte × State :=
  let r := fetch s
  (r.1, r.2.setIR r.1)

/-- Steps b and c, then the operand bytes at ascending addresses, which every routine fetches before any other access
(rules R58, R84, R85, R101). -/
def fetchInstr (s : State) : Instr × State :=
  let op := fetchOpcode s
  let s1 := addCycles (cycleTable op.1) op.2
  match opcodeLength op.1 with
  | 1 => (decodeInstr op.1 0 0, s1)
  | 2 =>
    let b1 := fetch s1
    (decodeInstr op.1 b1.1 0, b1.2)
  | _ =>
    let b1 := fetch s1
    let b2 := fetch b1.2
    (decodeInstr op.1 b1.1 b2.1, b2.2)

/-- `InterruptSequence()`: NMI first, IRQ only with `I = 0`, one entry, and only the bit of the interrupt entered is
cleared (rule R207). The entry runs with the bit clear, which no access of it can see, so that a request of the same kind
raised by the entry shows; whether it stays pending (R211) or the clear absorbs it (R207) is free (log entry 13). -/
def interruptSequence (s : State) : State :=
  if s.cpu.es.nmi then
    let t := interruptEntry vecNmi (s.setES { s.cpu.es with nmi := false })
    t.setES { t.cpu.es with nmi := t.cpu.es.nmi && Config.keepsRequestDuringEntry }
  else if s.cpu.es.irq && !s.cpu.p.i then
    let t := interruptEntry vecIrq (s.setES { s.cpu.es with irq := false })
    t.setES { t.cpu.es with irq := t.cpu.es.irq && Config.keepsRequestDuringEntry }
  else s

/-- Step f: the interrupt sequence, if a request is pending (rule R99). -/
def boundary (s : State) : State :=
  if s.cpu.es.irq || s.cpu.es.nmi then interruptSequence s else s

/-- Step f after a meaning that goes on. -/
def finish : Result → Result
  | .next t => .next (boundary t)
  | .fault f => .fault f
  | .refused r => .refused r

/-- One iteration of the loop, less the count: the exit check, steps a to d, step f (rule R80). -/
def iteration (s : State) : Result :=
  match exitCheck s with
  | some f => .fault f
  | none =>
    let h := consultHook s
    if h.1 then .fault .debugStop
    else
      let f := fetchInstr h.2
      finish (exec f.1 f.2)

/-- `s` with the three bytes of the table word `w` at `PC`, and nothing in the way of the next step running them: the Bus
plain RAM, the debug hook absent, no Fatal or Stop (log entry 5). -/
def placeWord (s : State) (nbits w : Nat) : State :=
  let pc := s.cpu.pc
  let m0 := s.bus.mem.write pc.toNat (tableByte nbits w 0)
  let m1 := m0.write (pc + 1).toNat (tableByte nbits w 1)
  let m2 := m1.write (pc + 2).toNat (tableByte nbits w 2)
  { (s.setES { s.cpu.es with fatal := false, stop := false }) with
    bus := { s.bus with mem := m2, script := [] }, hook := [] }

end Sys2Proof.Machine
end

