-- ==== Sys2Proof/Machine/Step.lean ====
section
/-! DEFINITION. One step: one iteration of the loop of a running `execute` call whose count is not used up (rule R80,
spec/40_dispatch_and_addressing.md). -/

namespace Sys2Proof.Machine

/-- One iteration of the dispatch loop. -/
def step (s : State) : Host.Outcome State Fault Refusal := iteration s

/-- `s` with the instruction of the table word `w` where the next step fetches it, and that step ready to run it. -/
def State.withFetchWord (s : State) (nbits w : Nat) : State := placeWord s nbits w

end Sys2Proof.Machine
end

