-- ==== Sys2Proof/Machine/Execute.lean ====
section
/-! DEFINITION. The host's operations on the engine: creation, `reset()`, `execute(count)`, the three requests and
`name()` (rules R80 to R82, R230, R231, R250, R253). -/

namespace Sys2Proof.Machine

/-- Creation: `ES = 0`, the values of `POWER_ON` (`p`, whose `es` plays no part), and a Bus (rule R231). -/
def create (p : ProcessorState) (bus : Bus) : State :=
  { cpu := { p with es := ⟨false, false, false, false⟩ }, bus := bus, hook := [], draws := 0 }

/-- `reset()`: `I`, three `ES` bits and `PC`, with two peeks (rule R230). Whether a request those peeks raise stays pending
after it (R44) or not (R235) is free (DESIGN CHOICE, log entry 18). -/
def hostReset (s : State) : State :=
  let s1 := s.setP { s.cpu.p with i := true }
  let s2 := s1.setES { s1.cpu.es with irq := false, nmi := false, stop := false }
  let r := memRead16 vecReset s2
  let t := r.2.setPC r.1
  t.setES (t.cpu.es.keepRequests Config.keepsRequestDuringReset)

/-- Step 1 of `execute`: every `ES` bit but Fatal is cleared (rule R81). -/
def beginExecute (s : State) : State :=
  s.setES { s.cpu.es with irq := false, nmi := false, stop := false }

/-- What an `execute` call returns and leaves. -/
structure ExecuteResult where
  running : Bool
  state   : State
deriving DecidableEq, Repr

/-- The loop of `execute`, for `count` more instructions (rules R80, R82). -/
def executeLoop : Nat → State → ExecuteResult
  | 0, s => { running := !s.cpu.es.fatal, state := s }
  | count + 1, s =>
    match step s with
    | .next t => executeLoop count t
    | .fault .fatalError => { running := false, state := s }
    | .fault .stopped => { running := true, state := s }
    | .fault .debugStop => { running := true, state := (consultHook s).2 }
    | .refused _ => { running := false, state := s }

/-- `execute(count)`: `running` is what it returns (rule R80). -/
def execute (count : Nat) (s : State) : ExecuteResult := executeLoop count (beginExecute s)

/-- An IRQ request by a collaborator (rule R204). -/
def requestIrq (s : State) : State := s.raise { Requests.none with irq := true }

/-- An NMI request by a collaborator (rule R205). -/
def requestNmi (s : State) : State := s.raise { Requests.none with nmi := true }

/-- A stop request by a collaborator (rule R215). -/
def requestStop (s : State) : State := s.raise { Requests.none with stop := true }

/-- The three states of the engine (rule R26). -/
inductive EngineState where
  | running
  | stopped
  | fatalError
deriving DecidableEq, Repr

/-- The engine's coarse state, a function of `ES` (rule R26). -/
def engineState (s : State) : EngineState :=
  if s.cpu.es.fatal then .fatalError else if s.cpu.es.stop then .stopped else .running

/-- `name()` (rule R253). -/
def engineName : String := "M6502Low"

end Sys2Proof.Machine
end

