-- ==== Sys2Proof/Machine/Snapshot.lean ====
section
/-! DEFINITION. `save` and `load`: the 68-byte snapshot of ProcessorState (rules R251, R252,
spec/70_reset_and_hazards.md). -/

namespace Sys2Proof.Machine

/-- A number as four bytes, least significant first (rule R251). -/
def le32 (n : Nat) : List Byte :=
  [BitVec.ofNat 8 n, BitVec.ofNat 8 (n / 0x100), BitVec.ofNat 8 (n / 0x10000), BitVec.ofNat 8 (n / 0x1000000)]

/-- The tag: length 8 and the ASCII bytes of `M6502Low` (rule R251). -/
def snapshotTag : List Byte := le32 8 ++ [0x4D, 0x36, 0x35, 0x30, 0x32, 0x4C, 0x6F, 0x77]

/-- A boolean as one of the two patterns (rule R251). -/
def boolField (pat : Config.BoolPatterns) (b : Bool) : List Byte :=
  le32 (if b then pat.truePattern else pat.falsePattern).toNat

/-- ExecutionStatus as an integer (rules R24, R251). -/
def ExecStatus.toNat (es : ExecStatus) : Nat :=
  (if es.stop then 1 else 0) + (if es.fatal then 2 else 0) + (if es.irq then 4 else 0) + (if es.nmi then 8 else 0)

/-- `save`: the fields in the order of rule R251; the sixth boolean is `notZero`, the complement of `Z`. -/
def save (pat : Config.BoolPatterns) (c : ProcessorState) : List Byte :=
  snapshotTag ++
    (le32 c.a.toNat ++ le32 c.x.toNat ++ le32 c.y.toNat ++ le32 c.sp.toNat ++ le32 c.ir.toNat ++ le32 c.pc.toNat) ++
    (boolField pat c.p.n ++ boolField pat c.p.v ++ boolField pat c.p.b ++ boolField pat c.p.d ++ boolField pat c.p.i ++
      boolField pat (!c.p.z) ++ boolField pat c.p.c) ++
    le32 c.es.toNat

/-- The number of the four bytes at offset `at`; none where the stream is short. -/
def fieldAt (blob : List Byte) (offset : Nat) : Option Nat :=
  match blob.drop offset with
  | b0 :: b1 :: b2 :: b3 :: _ => some (b0.toNat + 0x100 * b1.toNat + 0x10000 * b2.toNat + 0x1000000 * b3.toNat)
  | _ => none

/-- A register field of `w` bits; none above its width (rule R252, decision D28). -/
def loadBits (w : Nat) (blob : List Byte) (offset : Nat) : Option (BitVec w) :=
  (fieldAt blob offset).bind fun n => if n < 2 ^ w then some (BitVec.ofNat w n) else none

/-- A boolean field; none where it is neither pattern (rule R252, decision D28). -/
def loadBool (pat : Config.BoolPatterns) (blob : List Byte) (offset : Nat) : Option Bool :=
  (fieldAt blob offset).bind fun n =>
    if n = pat.truePattern.toNat then some true else if n = pat.falsePattern.toNat then some false else none

/-- The ExecutionStatus field; none with a bit above 0x0F (rule R252, decision D28). -/
def loadStatus (blob : List Byte) (offset : Nat) : Option ExecStatus :=
  (loadBits 4 blob offset).map fun n =>
    { stop := n.getLsbD 0, fatal := n.getLsbD 1, irq := n.getLsbD 2, nmi := n.getLsbD 3 }

/-- The ProcessorState a blob holds; none on any failure (rule R252). Bytes after the 68th are not read. -/
def parseSnapshot (pat : Config.BoolPatterns) (blob : List Byte) : Option ProcessorState :=
  if blob.take 12 = snapshotTag then do
    let a ← loadBits 8 blob 12
    let x ← loadBits 8 blob 16
    let y ← loadBits 8 blob 20
    let sp ← loadBits 8 blob 24
    let ir ← loadBits 8 blob 28
    let pc ← loadBits 16 blob 32
    let n ← loadBool pat blob 36
    let v ← loadBool pat blob 40
    let b ← loadBool pat blob 44
    let d ← loadBool pat blob 48
    let i ← loadBool pat blob 52
    let notZero ← loadBool pat blob 56
    let c ← loadBool pat blob 60
    let es ← loadStatus blob 64
    return { a := a, x := x, y := y, sp := sp, pc := pc, ir := ir,
             p := { n := n, v := v, b := b, d := d, i := i, z := !notZero, c := c }, es := es }
  else none

/-- `load`: all of ProcessorState is replaced, or nothing; the Bus is not touched (rule R252). Whether a dead instance that
loads a live snapshot is revived (R252) or stays dead (R24, R25, R26, decision D10) is free (DESIGN CHOICE, log
entry 17). -/
def loadSnapshot (pat : Config.BoolPatterns) (blob : List Byte) (s : State) : Bool × State :=
  match parseSnapshot pat blob with
  | some c =>
    (true, { s with cpu := { c with
      es := { c.es with fatal := c.es.fatal || s.cpu.es.fatal && Config.loadKeepsFatal } } })
  | none => (false, s)

end Sys2Proof.Machine
end

