-- ==== Sys2Proof/Safety.lean ====
section
/-! DEFINITION. The terms claims use: what a run may leave behind, the invariant of the Bus, and which states run. -/

namespace Sys2Proof.Machine

/-- The cycles a list of bus events charges. -/
def traceCycles : List BusEvent → Nat
  | [] => 0
  | .cycles n :: t => n + traceCycles t
  | .peek _ :: t => traceCycles t
  | .poke _ _ :: t => traceCycles t

/-- The accesses among a list of bus events: the peeks and the pokes. -/
def traceAccesses : List BusEvent → Nat
  | [] => 0
  | .cycles _ :: t => traceAccesses t
  | .peek _ :: t => traceAccesses t + 1
  | .poke _ _ :: t => traceAccesses t + 1

/-- The invariant: memory is in canonical form, and the cycle counter is the sum of the increments the Bus has seen
(rules R43, R213: it only ever moves by `incrementCycles`). -/
abbrev State.Inv (s : State) : Prop := s.bus.mem.wf = true ∧ s.bus.cycles = traceCycles s.bus.trace

/-- The byte the Bus answers at the access number `k` from now on (0 is the next), if that access is a peek at `a` and no poke
at `a` comes before it: the script's answer, or else the byte stored (rule R44, log entry 3). -/
def Bus.answered (b : Bus) (k : Nat) (a : Word) : Byte :=
  ((b.script.drop k).headD .plain).data.getD (b.mem.read a.toNat)

/-- `ES` after the requests of some answers of the Bus, in their order (rules R44, R204, R205, R215). -/
def ExecStatus.raiseAll (es : ExecStatus) (answers : List BusAnswer) : ExecStatus :=
  answers.foldl (fun e ans => e.raise ans.raises) es

/-- From `s` to `t` the collaborators did what the script says and nothing else: each of the accesses made used up one answer
of the Bus, `ES` changed by exactly the requests of those answers (not at all on plain RAM), and the debug hook was not
consulted (rules R44, R204, R205, R215). -/
def Collaborators (s t : State) : Prop :=
  ∃ k : Nat, traceAccesses t.bus.trace = traceAccesses s.bus.trace + k ∧
    t.bus.script = s.bus.script.drop k ∧
    t.cpu.es = s.cpu.es.raiseAll (s.bus.script.take k) ∧
    t.hook = s.hook

/-- From `s` to `t` the engine only used the Bus: no register, no flag and no draw changed. -/
def BusOnly (s t : State) : Prop :=
  t.cpu = { s.cpu with es := t.cpu.es } ∧ Collaborators s t ∧ t.draws = s.draws

/-- Every byte of memory reads as before, but perhaps those at the addresses listed. -/
def MemorySameOutside (addrs : List Word) (s t : State) : Prop :=
  ∀ a : Word, a ∉ addrs → t.bus.mem.read a.toNat = s.bus.mem.read a.toNat

/-- The frame of an instruction beside the registers and flags: memory outside the addresses listed, the collaborators'
part, the draws, and the cycles charged beyond the base count. -/
def Frame (addrs : List Word) (cycles : Nat) (s t : State) : Prop :=
  MemorySameOutside addrs s t ∧ Collaborators s t ∧ t.draws = s.draws ∧ t.bus.cycles = s.bus.cycles + cycles

/-- The address a form with an effective address reads or stores to. -/
def addressOf (m : EaMode) (s : State) : Word := (effectiveAddress m s).1.addr

/-- The byte a read-modify-write instruction reads before it stores (rule R100). -/
def byteRead (m : EaMode) (s : State) : Byte := (peek (addressOf m s) (effectiveAddress m s).2).1

/-- The page-crossing penalty of a read (rule R248). -/
def penaltyOf (m : ReadMode) (s : State) : Nat :=
  match m with
  | .imm _ => 0
  | .mem m => if (effectiveAddress m s).1.crossed then 1 else 0

/-- The pointer peeks of a mode, latest first (rules R96, R97, R101). -/
def pointerPeeks (m : EaMode) (s : State) : List BusEvent :=
  match m with
  | .indx d => [.peek (zext16 (d + s.cpu.x + 1)), .peek (zext16 (d + s.cpu.x))]
  | .indy d => [.peek (zext16 (d + 1)), .peek (zext16 d)]
  | .zp _ => []
  | .zpx _ => []
  | .zpy _ => []
  | .abs _ => []
  | .absx _ => []
  | .absy _ => []

/-- The flags after `SetNZ(v)`, written out (rule R20). -/
def nzOf (p : Flags) (v : Byte) : Flags := { p with n := v.getLsbD 7, z := decide (v = 0) }

/-- `i` is encoded by `bytes`, decodes from them whatever follows, and costs `cycles` as its base count. -/
def EncodedBy (i : Instr) (bytes : List Byte) (cycles : Nat) : Prop :=
  encode i = some bytes ∧ (∀ rest, decode (bytes ++ rest) = .ok (i, rest)) ∧ cycleTable (bytes.headD 0) = cycles

/-- The encoding table of LDA, ADC, SBC, CMP, AND, ORA and EOR, whose opcodes differ and whose modes, lengths and
cycles do not (rules R110, R131, R133, R136, R150 to R152). -/
def AluEncodings (i : ReadMode → Instr) (imm zp zpx abs absx absy indx indy : Byte) : Prop :=
  ∀ (d : Byte) (a : Word),
    EncodedBy (i (.imm d)) [imm, d] 2 ∧
    EncodedBy (i (.mem (.zp d))) [zp, d] 3 ∧
    EncodedBy (i (.mem (.zpx d))) [zpx, d] 4 ∧
    EncodedBy (i (.mem (.abs a))) [abs, loByte a, hiByte a] 4 ∧
    EncodedBy (i (.mem (.absx a))) [absx, loByte a, hiByte a] 4 ∧
    EncodedBy (i (.mem (.absy a))) [absy, loByte a, hiByte a] 4 ∧
    EncodedBy (i (.mem (.indx d))) [indx, d] 6 ∧
    EncodedBy (i (.mem (.indy d))) [indy, d] 5

/-- The memory rows of the encoding tables of INC, DEC, ASL, LSR, ROL and ROR (rules R139, R140, R154 to R157). -/
def ModifyEncodings (i : EaMode → Instr) (zp zpx abs absx : Byte) : Prop :=
  ∀ (d : Byte) (a : Word),
    EncodedBy (i (.zp d)) [zp, d] 5 ∧
    EncodedBy (i (.zpx d)) [zpx, d] 6 ∧
    EncodedBy (i (.abs a)) [abs, loByte a, hiByte a] 6 ∧
    EncodedBy (i (.absx a)) [absx, loByte a, hiByte a] 7

end Sys2Proof.Machine

namespace Sys2Proof

/-- The parts of the machine an instruction can write, but for `ES` and what collaborators do. -/
inductive Part where
  | a
  | x
  | y
  | sp
  | pc
  | n
  | v
  | b
  | d
  | i
  | z
  | c
  | memory
deriving DecidableEq, Repr

/-- Where a read-modify-write form puts its result (rule R100). -/
def ModifyMode.writes : ModifyMode → List Part
  | .acc => [.a]
  | .mem _ => [.memory]

/-- What each instruction writes, as rule R17 lists the writers of the flags, and rules R12 to R16 and R49 those of the
registers and memory (spec/10_state.md section 2); `pc` is a write other than the sequential advance. `IR` is written by
no instruction (rule R23). -/
def Instr.writes : Instr → List Part
  | .lda _ => [.a, .n, .z]
  | .ldx _ => [.x, .n, .z]
  | .ldy _ => [.y, .n, .z]
  | .sta _ => [.memory]
  | .stx _ => [.memory]
  | .sty _ => [.memory]
  | .tax => [.x, .n, .z]
  | .tay => [.y, .n, .z]
  | .tsx => [.x, .n, .z]
  | .txa => [.a, .n, .z]
  | .txs => [.sp]
  | .tya => [.a, .n, .z]
  | .pha => [.sp, .memory]
  | .php => [.sp, .memory]
  | .pla => [.a, .sp, .n, .z]
  | .plp => [.sp, .n, .v, .b, .d, .i, .z, .c]
  | .adc _ => [.a, .n, .v, .z, .c]
  | .sbc _ => [.a, .n, .v, .z, .c]
  | .cmp _ => [.n, .z, .c]
  | .cpx _ => [.n, .z, .c]
  | .cpy _ => [.n, .z, .c]
  | .inc _ => [.n, .z, .memory]
  | .dec _ => [.n, .z, .memory]
  | .inx => [.x, .n, .z]
  | .iny => [.y, .n, .z]
  | .dex => [.x, .n, .z]
  | .dey => [.y, .n, .z]
  | .and _ => [.a, .n, .z]
  | .ora _ => [.a, .n, .z]
  | .eor _ => [.a, .n, .z]
  | .bit _ => [.n, .v, .z]
  | .asl m => m.writes ++ [.n, .z, .c]
  | .lsr m => m.writes ++ [.n, .z, .c]
  | .rol m => m.writes ++ [.n, .z, .c]
  | .ror m => m.writes ++ [.n, .z, .c]
  | .bcc _ => [.pc]
  | .bcs _ => [.pc]
  | .beq _ => [.pc]
  | .bmi _ => [.pc]
  | .bne _ => [.pc]
  | .bpl _ => [.pc]
  | .bvc _ => [.pc]
  | .bvs _ => [.pc]
  | .jmp _ => [.pc]
  | .jsr _ => [.sp, .pc, .memory]
  | .rts => [.sp, .pc]
  | .clc => [.c]
  | .cld => [.d]
  | .cli => [.i]
  | .clv => [.v]
  | .sec => [.c]
  | .sed => [.d]
  | .sei => [.i]
  | .nop => []
  | .brk _ => [.sp, .pc, .b, .i, .memory]
  | .rti => [.sp, .pc, .n, .v, .b, .d, .i, .z, .c]
  | .illegal _ => []

end Sys2Proof

namespace Sys2Proof.Machine

/-- A fatal error has not happened (rule R25). -/
abbrev State.Alive (s : State) : Prop := s.cpu.es.fatal = false

/-- The next iteration fetches: neither exit condition holds and the debug hook does not ask for a stop (rules R82,
R83). -/
abbrev State.Runs (s : State) : Prop := exitCheck s = none ∧ (consultHook s).1 = false

end Sys2Proof.Machine
end

