-- ==== Sys2Proof/Certificates/Slice0/Obligations.lean ====
section
/-! DEFINITION. The statements for the provers, from the numbered rules of spec/. `exec` runs an instruction whose bytes
have been fetched: `PC` is already the address of the next instruction (rule R16). -/

open Sys2Proof Sys2Proof.Machine

/-! Encoding. -/

/-- Decoding an encoded well-formed instruction gives it back, whatever bytes follow, with every operand at every value
(rules R60, R63, R64, R67). -/
def Obligations.DecodeOfEncode : Prop :=
  ∀ (i : Instr) (rest : List Byte), i.wf = true →
    ∃ bytes, encode i = some bytes ∧ decode (bytes ++ rest) = .ok (i, rest)

/-- Whatever decodes is a well-formed instruction, and encodes to exactly the bytes it was decoded from; BRK carries the
padding byte it ignores (rules R60 to R64). -/
def Obligations.EncodeOfDecode : Prop :=
  ∀ (bytes rest : List Byte) (i : Instr), decode bytes = .ok (i, rest) →
    i.wf = true ∧ ∃ b, encode i = some b ∧ bytes = b ++ rest

/-- Decoding is total over the opcode bytes, and exactly the 105 bytes of rule R65 are illegal, as a list and in pattern
form. -/
def Obligations.IllegalBytesAreTheListed : Prop :=
  illegalOpcodes.length = 105 ∧ illegalOpcodes.Nodup ∧
  (∀ op b1 b2 : Byte, decodeInstr op b1 b2 = .illegal op ↔ isIllegalOpcode op = true) ∧
  ∀ op : Byte,
    let row := op.toNat / 16
    let lo := op.toNat % 16
    isIllegalOpcode op = true ↔
      lo ∈ [0x3, 0x7, 0xB, 0xF] ∨ (lo = 0x2 ∧ row ≠ 0xA) ∨
      (lo = 0x4 ∧ row ∈ [0x0, 0x1, 0x3, 0x4, 0x5, 0x6, 0x7, 0xD, 0xF]) ∨
      (lo = 0xA ∧ row ∈ [0x1, 0x3, 0x5, 0x7, 0xD, 0xF]) ∨
      (lo = 0xC ∧ row ∈ [0x0, 0x1, 0x3, 0x5, 0x7, 0x9, 0xD, 0xF]) ∨
      op ∈ [0x80#8, 0x89#8, 0x9E#8]

/-- The opcode byte alone fixes the length, 1, 2 or 3, and a list of bytes fails to decode only where it is too short
(rules R60, R61). -/
def Obligations.OpcodeFixesLength : Prop :=
  ∀ op b1 b2 : Byte,
    (decodeInstr op b1 b2).length = opcodeLength op ∧ 1 ≤ opcodeLength op ∧ opcodeLength op ≤ 3 ∧
    ∀ rest : List Byte, (∃ i r, decode (op :: rest) = .ok (i, r)) ↔ opcodeLength op ≤ rest.length + 1

/-- A word of each family, written out from the opcode map, decodes to its instruction (rule R63). -/
def Obligations.SampleWordsDecode : Prop :=
  decodeTableWord 16 0x34A9 = some (.lda (.imm 0x34)) ∧
  decodeTableWord 24 0x1234BD = some (.lda (.mem (.absx 0x1234))) ∧
  decodeTableWord 16 0x1096 = some (.stx (.zpy 0x10)) ∧
  decodeTableWord 16 0x4071 = some (.adc (.mem (.indy 0x40))) ∧
  decodeTableWord 8 0x2A = some (.rol .acc) ∧
  decodeTableWord 16 0xFED0 = some (.bne 0xFE) ∧
  decodeTableWord 24 0x10FF6C = some (.jmp (.ind 0x10FF)) ∧
  decodeTableWord 16 0xEA00 = some (.brk 0xEA) ∧
  decodeTableWord 8 0x40 = some .rti ∧
  decodeTableWord 8 0x02 = some (.illegal 0x02)

/-! Addressing and the Bus. -/

/-- The effective address of every mode, in numbers, on any Bus: zero-page sums and pointers wrap inside page 0, absolute sums
at 2^16, a pointer is made of the next two answers of the Bus, low byte first, and `crossed` compares the pages where an
absolute sum is indexed and is false elsewhere (rules R89 to R94, R96, R97). -/
def Obligations.EffectiveAddresses : Prop :=
  ∀ (s : State) (d : Byte) (a : Word),
    let rd := fun k n : Nat => (s.bus.answered k (BitVec.ofNat 16 n)).toNat
    let x := s.cpu.x.toNat
    let y := s.cpu.y.toNat
    let crossedFrom := fun (base : Nat) (e : Ea) => e.crossed = decide (e.addr.toNat / 256 ≠ base / 256)
    (∀ m : EaMode, (m = .zp d ∨ m = .zpx d ∨ m = .zpy d ∨ m = .abs a ∨ m = .indx d) →
      (effectiveAddress m s).1.crossed = false) ∧
    (addressOf (.zp d) s).toNat = d.toNat ∧
    (addressOf (.zpx d) s).toNat = (d.toNat + x) % 256 ∧
    (addressOf (.zpy d) s).toNat = (d.toNat + y) % 256 ∧
    addressOf (.abs a) s = a ∧
    (addressOf (.absx a) s).toNat = (a.toNat + x) % 65536 ∧
    crossedFrom a.toNat (effectiveAddress (.absx a) s).1 ∧
    (addressOf (.absy a) s).toNat = (a.toNat + y) % 65536 ∧
    crossedFrom a.toNat (effectiveAddress (.absy a) s).1 ∧
    (addressOf (.indx d) s).toNat = 256 * rd 1 ((d.toNat + x + 1) % 256) + rd 0 ((d.toNat + x) % 256) ∧
    (let base := 256 * rd 1 ((d.toNat + 1) % 256) + rd 0 d.toNat
     (addressOf (.indy d) s).toNat = (base + y) % 65536 ∧
     crossedFrom base (effectiveAddress (.indy d) s).1)

/-- Every instruction with an operand makes exactly these Bus calls beyond its operand fetches, in this order (latest first),
on any Bus: the pointer peeks of its mode; then the penalty of a crossing read and one peek; or one poke and no peek; or
one peek and one poke. An immediate or accumulator operand makes none (rules R59, R100, R101). -/
def Obligations.AccessPatternEvents : Prop :=
  ∀ (m : EaMode) (s : State),
    let ea := addressOf m s
    let calls := fun (i : Instr) (events : List BusEvent) =>
      ∃ t, exec i s = .next t ∧ t.bus.trace = events ++ (pointerPeeks m s ++ s.bus.trace)
    let silent := fun i : Instr => ∃ t, exec i s = .next t ∧ t.bus = s.bus
    let reads := fun r : ReadMode =>
      [Instr.lda r, .ldx r, .ldy r, .adc r, .sbc r, .cmp r, .cpx r, .cpy r, .and r, .ora r, .eor r]
    let shifts := fun r : ModifyMode => [Instr.asl r, .lsr r, .rol r, .ror r]
    (∀ i ∈ .bit m :: reads (.mem m),
      calls i (.peek ea :: if penaltyOf (.mem m) s = 1 then [.cycles 1] else [])) ∧
    calls (.sta m) [.poke ea s.cpu.a] ∧ calls (.stx m) [.poke ea s.cpu.x] ∧ calls (.sty m) [.poke ea s.cpu.y] ∧
    (∀ i ∈ .inc m :: .dec m :: shifts (.mem m), ∃ v, calls i [.poke ea v, .peek ea]) ∧
    (∀ d : Byte, ∀ i ∈ reads (.imm d), silent i) ∧
    (∀ i ∈ shifts .acc, silent i)

/-- What one access does, on any Bus: a peek answers the byte of the script's next answer, or else the byte stored; a poke
stores its byte; either raises exactly the requests of that answer, uses it up, is recorded, and changes nothing else. So
every read is the answer its place in the order of accesses gives it: a fetch, a pull, an operand after the pointer peeks
of its mode. An immediate operand is the instruction's own byte and makes no access. On plain RAM every answer is the byte
stored, and no request is raised (rules R41, R42, R44, R62, R88, R204 to R206, R215; that the oracle is a script is log
entry 3). -/
def Obligations.PlainBusReadsStoredByte : Prop :=
  ∀ s : State,
    let ans := s.bus.script.headD ⟨none, ⟨false, false, false⟩⟩
    let es := s.cpu.es
    let accessed := fun (e : BusEvent) (mem : Memory) =>
      { s with
        cpu := { s.cpu with
          es := ⟨es.irq || ans.raises.irq, es.nmi || ans.raises.nmi, es.stop || ans.raises.stop, es.fatal⟩ },
        bus := { s.bus with mem := mem, script := s.bus.script.tail, trace := e :: s.bus.trace } }
    (∀ a : Word, peek a s = (ans.data.getD (s.bus.mem.read a.toNat), accessed (.peek a) s.bus.mem)) ∧
    (∀ (a : Word) (v : Byte), poke a v s = accessed (.poke a v) (s.bus.mem.write a.toNat v)) ∧
    (fetch s).1 = s.bus.answered 0 s.cpu.pc ∧
    (pull s).1 = s.bus.answered 0 (stackAddr (s.cpu.sp + 1)) ∧
    (∀ d : Byte, readOperand (.imm d) s = (d, s)) ∧
    (∀ m : EaMode,
      (readOperand (.mem m) s).1 = s.bus.answered (pointerPeeks m s).length (addressOf m s) ∧
      byteRead m s = s.bus.answered (pointerPeeks m s).length (addressOf m s)) ∧
    (s.bus.script = [] →
      (∀ (k : Nat) (a : Word), s.bus.answered k a = s.bus.mem.read a.toNat) ∧
      (∀ a : Word, (peek a s).1 = s.bus.mem.read a.toNat) ∧
      (∀ m : EaMode, (readOperand (.mem m) s).1 = s.bus.mem.read (addressOf m s).toNat) ∧
      (∀ m : EaMode, byteRead m s = s.bus.mem.read (addressOf m s).toNat) ∧
      (fetch s).1 = s.bus.mem.read s.cpu.pc.toNat ∧
      (pull s).1 = s.bus.mem.read (0x0100 + (s.cpu.sp.toNat + 1) % 256) ∧
      ∀ (a : Word) (v : Byte), (peek a s).2.cpu = s.cpu ∧ (poke a v s).cpu = s.cpu)

/-- A peek after a poke answers the byte poked at that address, and the byte of before at any other; a poke keeps memory
in its canonical form (rules R44, R53). -/
def Obligations.PeekAfterPoke : Prop :=
  ∀ (s : State) (a b : Word) (v : Byte), s.bus.script = [] → s.bus.mem.wf = true →
    (peek a (poke a v s)).1 = v ∧ (a ≠ b → (peek b (poke a v s)).1 = (peek b s).1) ∧
    (poke a v s).bus.mem.wf = true

/-- `Push` writes at `0x0100 + SP`, then decrements; `Pull` increments, then reads; both wrap modulo 256 and stay in page
0x01; a pull after a push gives the byte back (rule R49). -/
def Obligations.StackPrimitives : Prop :=
  ∀ (s : State) (v : Byte),
    (push v s).bus.trace = .poke (0x0100#16 + zext16 s.cpu.sp) v :: s.bus.trace ∧
    (push v s).cpu.sp.toNat = (s.cpu.sp.toNat + 255) % 256 ∧
    (pull s).2.bus.trace = .peek (0x0100#16 + zext16 (pull s).2.cpu.sp) :: s.bus.trace ∧
    (pull s).2.cpu.sp.toNat = (s.cpu.sp.toNat + 1) % 256 ∧
    (stackAddr s.cpu.sp).toNat = 0x0100 + s.cpu.sp.toNat ∧
    (s.bus.script = [] → s.bus.mem.wf = true →
      (pull (push v s)).1 = v ∧ (pull (push v s)).2.cpu = s.cpu)

/-! Loads, stores, transfers, the stack. -/

/-- LDA, LDX, LDY: the register takes the operand, `N` and `Z` follow it, and nothing else changes; with their encodings
and the page-crossing penalty (rules R110 to R112). -/
def Obligations.LoadsSetRegister : Prop :=
  AluEncodings .lda 0xA9 0xA5 0xB5 0xAD 0xBD 0xB9 0xA1 0xB1 ∧
  (∀ (d : Byte) (a : Word),
    EncodedBy (.ldx (.imm d)) [0xA2, d] 2 ∧ EncodedBy (.ldx (.mem (.zp d))) [0xA6, d] 3 ∧
    EncodedBy (.ldx (.mem (.zpy d))) [0xB6, d] 4 ∧ EncodedBy (.ldx (.mem (.abs a))) [0xAE, loByte a, hiByte a] 4 ∧
    EncodedBy (.ldx (.mem (.absy a))) [0xBE, loByte a, hiByte a] 4 ∧
    EncodedBy (.ldy (.imm d)) [0xA0, d] 2 ∧ EncodedBy (.ldy (.mem (.zp d))) [0xA4, d] 3 ∧
    EncodedBy (.ldy (.mem (.zpx d))) [0xB4, d] 4 ∧ EncodedBy (.ldy (.mem (.abs a))) [0xAC, loByte a, hiByte a] 4 ∧
    EncodedBy (.ldy (.mem (.absx a))) [0xBC, loByte a, hiByte a] 4) ∧
  ∀ (m : ReadMode) (s : State),
    let v := (readOperand m s).1
    let p := nzOf s.cpu.p v
    (∃ t, exec (.lda m) s = .next t ∧ t.cpu = { s.cpu with a := v, p := p, es := t.cpu.es } ∧
      Frame [] (penaltyOf m s) s t) ∧
    (∃ t, exec (.ldx m) s = .next t ∧ t.cpu = { s.cpu with x := v, p := p, es := t.cpu.es } ∧
      Frame [] (penaltyOf m s) s t) ∧
    (∃ t, exec (.ldy m) s = .next t ∧ t.cpu = { s.cpu with y := v, p := p, es := t.cpu.es } ∧
      Frame [] (penaltyOf m s) s t)

/-- STA, STX, STY: the register's byte at the effective address, which is not read first; no flag or register, no other byte,
no penalty; with their encodings (rules R113 to R115). -/
def Obligations.StoresWriteRegister : Prop :=
  (∀ (d : Byte) (a : Word),
    EncodedBy (.sta (.zp d)) [0x85, d] 3 ∧ EncodedBy (.sta (.zpx d)) [0x95, d] 4 ∧
    EncodedBy (.sta (.abs a)) [0x8D, loByte a, hiByte a] 4 ∧ EncodedBy (.sta (.absx a)) [0x9D, loByte a, hiByte a] 5 ∧
    EncodedBy (.sta (.absy a)) [0x99, loByte a, hiByte a] 5 ∧ EncodedBy (.sta (.indx d)) [0x81, d] 6 ∧
    EncodedBy (.sta (.indy d)) [0x91, d] 6 ∧
    EncodedBy (.stx (.zp d)) [0x86, d] 3 ∧ EncodedBy (.stx (.zpy d)) [0x96, d] 4 ∧
    EncodedBy (.stx (.abs a)) [0x8E, loByte a, hiByte a] 4 ∧
    EncodedBy (.sty (.zp d)) [0x84, d] 3 ∧ EncodedBy (.sty (.zpx d)) [0x94, d] 4 ∧
    EncodedBy (.sty (.abs a)) [0x8C, loByte a, hiByte a] 4) ∧
  ∀ (m : EaMode) (s : State),
    let stored := fun (t : State) (v : Byte) =>
      t.cpu = { s.cpu with es := t.cpu.es } ∧ Frame [addressOf m s] 0 s t ∧
      t.bus.trace = .poke (addressOf m s) v :: (pointerPeeks m s ++ s.bus.trace) ∧
      (s.bus.mem.wf = true → t.bus.mem.read (addressOf m s).toNat = v)
    (∃ t, exec (.sta m) s = .next t ∧ stored t s.cpu.a) ∧
    (∃ t, exec (.stx m) s = .next t ∧ stored t s.cpu.x) ∧
    (∃ t, exec (.sty m) s = .next t ∧ stored t s.cpu.y)

/-- TAX, TAY, TSX, TXA, TYA copy a register and set `N` and `Z`; TXS copies and writes no flag; nothing else changes
(rules R116 to R121). -/
def Obligations.TransfersCopyRegister : Prop :=
  EncodedBy .tax [0xAA] 2 ∧ EncodedBy .tay [0xA8] 2 ∧ EncodedBy .tsx [0xBA] 2 ∧ EncodedBy .txa [0x8A] 2 ∧
  EncodedBy .txs [0x9A] 2 ∧ EncodedBy .tya [0x98] 2 ∧
  ∀ s : State,
    exec .tax s = .next { s with cpu := { s.cpu with x := s.cpu.a, p := nzOf s.cpu.p s.cpu.a } } ∧
    exec .tay s = .next { s with cpu := { s.cpu with y := s.cpu.a, p := nzOf s.cpu.p s.cpu.a } } ∧
    exec .tsx s = .next { s with cpu := { s.cpu with x := s.cpu.sp, p := nzOf s.cpu.p s.cpu.sp } } ∧
    exec .txa s = .next { s with cpu := { s.cpu with a := s.cpu.x, p := nzOf s.cpu.p s.cpu.x } } ∧
    exec .txs s = .next { s with cpu := { s.cpu with sp := s.cpu.x } } ∧
    exec .tya s = .next { s with cpu := { s.cpu with a := s.cpu.y, p := nzOf s.cpu.p s.cpu.y } }

/-- PHA and PHP push `A` and `P()`, with the stored `B` in bit 4 and 1 in bit 5, and change nothing else (rules R122,
R123). -/
def Obligations.PushesStoreByte : Prop :=
  EncodedBy .pha [0x48] 3 ∧ EncodedBy .php [0x08] 3 ∧
  ∀ s : State,
    let pushed := fun (t : State) (v : Byte) =>
      t.cpu = { s.cpu with sp := s.cpu.sp - 1, es := t.cpu.es } ∧ Frame [stackAddr s.cpu.sp] 0 s t ∧
      t.bus.trace = .poke (stackAddr s.cpu.sp) v :: s.bus.trace ∧
      (s.bus.mem.wf = true → t.bus.mem.read (stackAddr s.cpu.sp).toNat = v)
    (∃ t, exec .pha s = .next t ∧ pushed t s.cpu.a) ∧
    (∃ t, exec .php s = .next t ∧ pushed t s.cpu.p.pack ∧ s.cpu.p.pack.getLsbD 5 = true ∧
      s.cpu.p.pack.getLsbD 4 = s.cpu.p.b)

/-- PLA and PLP pull into `A` with `N` and `Z`, and into all seven flags, with one peek at the incremented `SP`; nothing
else changes (rules R124, R125). -/
def Obligations.PullsLoadByte : Prop :=
  EncodedBy .pla [0x68] 4 ∧ EncodedBy .plp [0x28] 4 ∧
  ∀ s : State,
    let v := (pull s).1
    let peeked := fun t : State => t.bus.trace = .peek (stackAddr (s.cpu.sp + 1)) :: s.bus.trace
    v = s.bus.answered 0 (stackAddr (s.cpu.sp + 1)) ∧
    (∃ t, exec .pla s = .next t ∧ Frame [] 0 s t ∧ peeked t ∧
      t.cpu = { s.cpu with a := v, sp := s.cpu.sp + 1, p := nzOf s.cpu.p v, es := t.cpu.es }) ∧
    (∃ t, exec .plp s = .next t ∧ Frame [] 0 s t ∧ peeked t ∧
      t.cpu = { s.cpu with
        sp := s.cpu.sp + 1,
        p := ⟨v.getLsbD 7, v.getLsbD 6, v.getLsbD 4, v.getLsbD 3, v.getLsbD 2, v.getLsbD 1, v.getLsbD 0⟩,
        es := t.cpu.es })

/-- The status byte: `P()` as a number, and `LoadP` its inverse but for bit 5 (rules R21, R22). -/
def Obligations.StatusBytePacksFlags : Prop :=
  (∀ p : Flags, p.pack.toNat = 128 * carryNat p.n + 64 * carryNat p.v + 32 + 16 * carryNat p.b + 8 * carryNat p.d +
      4 * carryNat p.i + 2 * carryNat p.z + carryNat p.c) ∧
  (∀ p : Flags, Flags.unpack p.pack = p) ∧
  (∀ b : Byte, (Flags.unpack b).pack = b ||| 0x20)

/-! Arithmetic. -/

/-- The adder: the byte is the sum modulo 256, the carry out its exceeding 255, `v` the signed sum's lying outside -128 to
127 (rule R130). -/
def Obligations.AdderLaw : Prop :=
  ∀ (a m : Byte) (c : Bool),
    let t := addBin a m c
    t.r.toNat = (a.toNat + m.toNat + carryNat c) % 256 ∧
    t.cout = decide (255 < a.toNat + m.toNat + carryNat c) ∧
    t.v = decide (a.toInt + m.toInt + carryNat c < -128 ∨ 127 < a.toInt + m.toInt + carryNat c)

/-- ADC: its encodings, and with `D = 0` the values of `A`, `C`, `V`, `N` and `Z` in numbers, and nothing else (rule R131,
its binary mode). -/
def Obligations.AdcBinary : Prop :=
  AluEncodings .adc 0x69 0x65 0x75 0x6D 0x7D 0x79 0x61 0x71 ∧
  ∀ (m : ReadMode) (s : State), s.cpu.p.d = false →
    let v := (readOperand m s).1
    let sum := s.cpu.a.toNat + v.toNat + carryNat s.cpu.p.c
    let signed := s.cpu.a.toInt + v.toInt + carryNat s.cpu.p.c
    let r := BitVec.ofNat 8 sum
    ∃ t, exec (.adc m) s = .next t ∧ Frame [] (penaltyOf m s) s t ∧
      t.cpu = { s.cpu with
        a := r,
        p := { nzOf s.cpu.p r with c := decide (255 < sum), v := decide (signed < -128 ∨ 127 < signed) },
        es := t.cpu.es }

/-- SBC: its encodings, and with `D = 0` the difference less the borrow, `C` for no borrow, `V` for signed overflow, `N`, `Z`, and nothing
else (rule R133, its binary mode). -/
def Obligations.SbcBinary : Prop :=
  AluEncodings .sbc 0xE9 0xE5 0xF5 0xED 0xFD 0xF9 0xE1 0xF1 ∧
  ∀ (m : ReadMode) (s : State), s.cpu.p.d = false →
    let v := (readOperand m s).1
    let borrow := 1 - carryNat s.cpu.p.c
    let signed := s.cpu.a.toInt - v.toInt - borrow
    let r := BitVec.ofInt 8 ((s.cpu.a.toNat : Int) - v.toNat - borrow)
    ∃ t, exec (.sbc m) s = .next t ∧ Frame [] (penaltyOf m s) s t ∧
      t.cpu = { s.cpu with
        a := r,
        p := { nzOf s.cpu.p r with
          c := decide (v.toNat + borrow ≤ s.cpu.a.toNat), v := decide (signed < -128 ∨ 127 < signed) },
        es := t.cpu.es }

/-- ADC and SBC with `D = 1` on valid BCD operands, whose four nibbles are at most 9: the decimal result and carry, `N` and `Z` of the result; of `V`
nothing is said, so the statement holds for every value of the draw; one draw is used (rules R132, R134, R135; log entries 4 and 14). -/
def Obligations.DecimalResults : Prop :=
  ∀ (m : ReadMode) (s : State), s.cpu.p.d = true →
    let v := (readOperand m s).1
    s.cpu.a.toNat / 16 ≤ 9 → s.cpu.a.toNat % 16 ≤ 9 → v.toNat / 16 ≤ 9 → v.toNat % 16 ≤ 9 →
    let dec := fun b : Byte => 10 * (b.toNat / 16) + b.toNat % 16
    let sum := dec s.cpu.a + dec v + carryNat s.cpu.p.c
    let diff : Int := (dec s.cpu.a : Int) - dec v - (1 - carryNat s.cpu.p.c)
    let bcd := fun n : Nat => BitVec.ofNat 8 (16 * (n / 10) + n % 10)
    let ran := fun (t : State) (r : Byte) (c : Bool) =>
      t.cpu = { s.cpu with a := r, p := { nzOf s.cpu.p r with c := c, v := t.cpu.p.v }, es := t.cpu.es } ∧
      MemorySameOutside [] s t ∧ Collaborators s t ∧ t.draws = s.draws + 1 ∧
      t.bus.cycles = s.bus.cycles + penaltyOf m s
    (∃ t, exec (.adc m) s = .next t ∧ ran t (bcd (sum % 100)) (decide (99 < sum))) ∧
    (∃ t, exec (.sbc m) s = .next t ∧ ran t (bcd (diff % 100).toNat) (decide (0 ≤ diff)))

/-- ADC and SBC with `D = 1` on an operand that is not valid BCD, some nibble of which is above 9: the instruction runs, of `A`, `C` and `V` nothing is
said, `N` and `Z` follow the byte `A` takes, and nothing else changes but the draw used (rules R132, R134,
R135; log entries 4 and 14). -/
def Obligations.DecimalInvalidOperandsRun : Prop :=
  ∀ (m : ReadMode) (s : State), s.cpu.p.d = true →
    let v := (readOperand m s).1
    9 < s.cpu.a.toNat / 16 ∨ 9 < s.cpu.a.toNat % 16 ∨ 9 < v.toNat / 16 ∨ 9 < v.toNat % 16 →
    let ran := fun t : State =>
      t.cpu = { s.cpu with
        a := t.cpu.a, p := { nzOf s.cpu.p t.cpu.a with c := t.cpu.p.c, v := t.cpu.p.v }, es := t.cpu.es } ∧
      MemorySameOutside [] s t ∧ Collaborators s t ∧ t.draws = s.draws + 1 ∧
      t.bus.cycles = s.bus.cycles + penaltyOf m s
    (∃ t, exec (.adc m) s = .next t ∧ ran t) ∧ (∃ t, exec (.sbc m) s = .next t ∧ ran t)

/-- CMP, CPX, CPY: `C` is unsigned not-less-than, `N` and `Z` those of the wrapped difference, nothing else, `V` neither;
with their encodings (rules R136 to R138). -/
def Obligations.ComparesSetFlags : Prop :=
  AluEncodings .cmp 0xC9 0xC5 0xD5 0xCD 0xDD 0xD9 0xC1 0xD1 ∧
  (∀ (d : Byte) (a : Word),
    EncodedBy (.cpx (.imm d)) [0xE0, d] 2 ∧ EncodedBy (.cpx (.mem (.zp d))) [0xE4, d] 3 ∧
    EncodedBy (.cpx (.mem (.abs a))) [0xEC, loByte a, hiByte a] 4 ∧
    EncodedBy (.cpy (.imm d)) [0xC0, d] 2 ∧ EncodedBy (.cpy (.mem (.zp d))) [0xC4, d] 3 ∧
    EncodedBy (.cpy (.mem (.abs a))) [0xCC, loByte a, hiByte a] 4) ∧
  ∀ (m : ReadMode) (s : State),
    let v := (readOperand m s).1
    let compared := fun (t : State) (r : Byte) =>
      t.cpu = { s.cpu with p := { nzOf s.cpu.p (r - v) with c := decide (v.toNat ≤ r.toNat) }, es := t.cpu.es } ∧
      Frame [] (penaltyOf m s) s t
    (∃ t, exec (.cmp m) s = .next t ∧ compared t s.cpu.a) ∧
    (∃ t, exec (.cpx m) s = .next t ∧ compared t s.cpu.x) ∧
    (∃ t, exec (.cpy m) s = .next t ∧ compared t s.cpu.y)

/-- INC and DEC: the byte at the effective address plus or minus one modulo 256, with one read and one write of it; `N` and
`Z` of the new byte, nothing else, no penalty; with their encodings (rules R139, R140). -/
def Obligations.IncrementsMemory : Prop :=
  ModifyEncodings .inc 0xE6 0xF6 0xEE 0xFE ∧ ModifyEncodings .dec 0xC6 0xD6 0xCE 0xDE ∧
  ∀ (m : EaMode) (s : State),
    let modified := fun (t : State) (r : Byte) =>
      t.cpu = { s.cpu with p := nzOf s.cpu.p r, es := t.cpu.es } ∧ Frame [addressOf m s] 0 s t ∧
      t.bus.trace = .poke (addressOf m s) r :: .peek (addressOf m s) :: (pointerPeeks m s ++ s.bus.trace) ∧
      (s.bus.mem.wf = true → t.bus.mem.read (addressOf m s).toNat = r)
    (∃ t, exec (.inc m) s = .next t ∧ modified t (BitVec.ofNat 8 ((byteRead m s).toNat + 1))) ∧
    (∃ t, exec (.dec m) s = .next t ∧ modified t (BitVec.ofNat 8 ((byteRead m s).toNat + 255)))

/-- INX, INY, DEX, DEY: the register plus or minus one modulo 256, `N` and `Z`, nothing else (rules R141 to R144). -/
def Obligations.IncrementsIndex : Prop :=
  EncodedBy .inx [0xE8] 2 ∧ EncodedBy .iny [0xC8] 2 ∧ EncodedBy .dex [0xCA] 2 ∧ EncodedBy .dey [0x88] 2 ∧
  ∀ s : State,
    let withX := fun v : Byte => { s with cpu := { s.cpu with x := v, p := nzOf s.cpu.p v } }
    let withY := fun v : Byte => { s with cpu := { s.cpu with y := v, p := nzOf s.cpu.p v } }
    exec .inx s = .next (withX (BitVec.ofNat 8 (s.cpu.x.toNat + 1))) ∧
    exec .iny s = .next (withY (BitVec.ofNat 8 (s.cpu.y.toNat + 1))) ∧
    exec .dex s = .next (withX (BitVec.ofNat 8 (s.cpu.x.toNat + 255))) ∧
    exec .dey s = .next (withY (BitVec.ofNat 8 (s.cpu.y.toNat + 255)))

/-- The total algorithms offered to simulators agree with the decimal rules on every valid input (rules R132, R134). -/
def Obligations.DecimalDefaultsAgree : Prop :=
  ∀ (k : Nat) (a m : Byte) (c : Bool),
    a.toNat / 16 ≤ 9 → a.toNat % 16 ≤ 9 → m.toNat / 16 ≤ 9 → m.toNat % 16 ≤ 9 →
    decAddDefault a m c = ((decAdd k a m c).r, (decAdd k a m c).cout) ∧
    decSubDefault a m c = ((decSub k a m c).r, (decSub k a m c).cout)

/-! Logic, shifts. -/

/-- AND, ORA, EOR: `A` combined bit by bit with the operand, `N` and `Z` of the result, nothing else; with their encodings
(rules R150 to R152). -/
def Obligations.LogicCombinesBits : Prop :=
  AluEncodings .and 0x29 0x25 0x35 0x2D 0x3D 0x39 0x21 0x31 ∧
  AluEncodings .ora 0x09 0x05 0x15 0x0D 0x1D 0x19 0x01 0x11 ∧
  AluEncodings .eor 0x49 0x45 0x55 0x4D 0x5D 0x59 0x41 0x51 ∧
  ∀ (m : ReadMode) (s : State),
    let v := (readOperand m s).1
    let combined := fun (t : State) (op : Bool → Bool → Bool) =>
      (∀ k < 8, t.cpu.a.getLsbD k = op (s.cpu.a.getLsbD k) (v.getLsbD k)) ∧
      t.cpu = { s.cpu with a := t.cpu.a, p := nzOf s.cpu.p t.cpu.a, es := t.cpu.es } ∧
      Frame [] (penaltyOf m s) s t
    (∃ t, exec (.and m) s = .next t ∧ combined t and) ∧
    (∃ t, exec (.ora m) s = .next t ∧ combined t or) ∧
    (∃ t, exec (.eor m) s = .next t ∧ combined t xor)

/-- BIT: `Z` of the and, `N` and `V` from the memory byte, nothing else, `A` neither; with its encodings (rule R153). -/
def Obligations.BitTestsMemory : Prop :=
  (∀ (d : Byte) (a : Word), EncodedBy (.bit (.zp d)) [0x24, d] 3 ∧
    EncodedBy (.bit (.abs a)) [0x2C, loByte a, hiByte a] 4) ∧
  ∀ (m : EaMode) (s : State),
    let v := (readOperand (.mem m) s).1
    ∃ t, exec (.bit m) s = .next t ∧ Frame [] (penaltyOf (.mem m) s) s t ∧
      t.cpu = { s.cpu with
        p := { s.cpu.p with z := decide (s.cpu.a &&& v = 0), n := v.getLsbD 7, v := v.getLsbD 6 }, es := t.cpu.es }

/-- ASL, LSR, ROL, ROR of the accumulator, in numbers: the rotates are nine-bit, `C` is the bit shifted out, `N` and `Z` are
those of the result, nothing else changes (rules R154 to R157, mode `acc`). -/
def Obligations.ShiftsAccumulator : Prop :=
  EncodedBy (.asl .acc) [0x0A] 2 ∧ EncodedBy (.lsr .acc) [0x4A] 2 ∧ EncodedBy (.rol .acc) [0x2A] 2 ∧
  EncodedBy (.ror .acc) [0x6A] 2 ∧
  ∀ s : State,
    let a := s.cpu.a.toNat
    let c := carryNat s.cpu.p.c
    let shifted := fun (r : Nat) (out : Bool) =>
      { s with cpu := { s.cpu with
          a := BitVec.ofNat 8 r,
          p := { s.cpu.p with n := decide (128 ≤ r % 256), z := decide (r % 256 = 0), c := out } } }
    exec (.asl .acc) s = .next (shifted (2 * a) (decide (128 ≤ a))) ∧
    exec (.lsr .acc) s = .next (shifted (a / 2) (decide (a % 2 = 1))) ∧
    exec (.rol .acc) s = .next (shifted (2 * a + c) (decide (128 ≤ a))) ∧
    exec (.ror .acc) s = .next (shifted (a / 2 + 128 * c) (decide (a % 2 = 1)))

/-- ASL, LSR, ROL, ROR of memory, in numbers: one byte at the effective address, `C`, `N`, `Z`, nothing else; with their
encodings (rules R154 to R157, the memory modes). -/
def Obligations.ShiftsMemory : Prop :=
  ModifyEncodings (fun m => .asl (.mem m)) 0x06 0x16 0x0E 0x1E ∧
  ModifyEncodings (fun m => .lsr (.mem m)) 0x46 0x56 0x4E 0x5E ∧
  ModifyEncodings (fun m => .rol (.mem m)) 0x26 0x36 0x2E 0x3E ∧
  ModifyEncodings (fun m => .ror (.mem m)) 0x66 0x76 0x6E 0x7E ∧
  ∀ (m : EaMode) (s : State),
    let b := (byteRead m s).toNat
    let c := carryNat s.cpu.p.c
    let shifted := fun (t : State) (r : Nat) (out : Bool) =>
      t.cpu = { s.cpu with
        p := { s.cpu.p with n := decide (128 ≤ r % 256), z := decide (r % 256 = 0), c := out }, es := t.cpu.es } ∧
      Frame [addressOf m s] 0 s t ∧
      (s.bus.mem.wf = true → t.bus.mem.read (addressOf m s).toNat = BitVec.ofNat 8 r)
    (∃ t, exec (.asl (.mem m)) s = .next t ∧ shifted t (2 * b) (decide (128 ≤ b))) ∧
    (∃ t, exec (.lsr (.mem m)) s = .next t ∧ shifted t (b / 2) (decide (b % 2 = 1))) ∧
    (∃ t, exec (.rol (.mem m)) s = .next t ∧ shifted t (2 * b + c) (decide (128 ≤ b))) ∧
    (∃ t, exec (.ror (.mem m)) s = .next t ∧ shifted t (b / 2 + 128 * c) (decide (b % 2 = 1)))

/-! Control. -/

/-- The eight branches: the condition, the target as the next instruction's address plus the signed displacement modulo
2^16, the penalties, and nothing else (rules R170 to R178). -/
def Obligations.BranchesOnFlags : Prop :=
  ∀ (d : Byte) (s : State),
    let target := BitVec.ofInt 16 ((s.cpu.pc.toNat : Int) + d.toInt)
    let crossed := decide (target.toNat / 256 ≠ s.cpu.pc.toNat / 256)
    let branched := fun (i : Instr) (op : Byte) (taken : Bool) =>
      EncodedBy i [op, d] 2 ∧
      ∃ t, exec i s = .next t ∧ t.cpu = { s.cpu with pc := if taken then target else s.cpu.pc } ∧
        Frame [] (if taken then (if crossed then 2 else 1) else 0) s t ∧
        t.bus.trace =
          (if taken then (if crossed then [.cycles 1, .cycles 1] else [.cycles 1]) else []) ++ s.bus.trace
    branched (.bcc d) 0x90 (!s.cpu.p.c) ∧ branched (.bcs d) 0xB0 s.cpu.p.c ∧
    branched (.beq d) 0xF0 s.cpu.p.z ∧ branched (.bmi d) 0x30 s.cpu.p.n ∧
    branched (.bne d) 0xD0 (!s.cpu.p.z) ∧ branched (.bpl d) 0x10 (!s.cpu.p.n) ∧
    branched (.bvc d) 0x50 (!s.cpu.p.v) ∧ branched (.bvs d) 0x70 s.cpu.p.v

/-- JMP: the target, or the word at the pointer as the Bus answers it, whose high byte is read from the start of the same page
when the pointer's low byte is 0xFF; nothing else changes (rules R95, R180). -/
def Obligations.JumpsSetPc : Prop :=
  ∀ (a : Word) (s : State),
    EncodedBy (.jmp (.abs a)) [0x4C, loByte a, hiByte a] 3 ∧ EncodedBy (.jmp (.ind a)) [0x6C, loByte a, hiByte a] 5 ∧
    exec (.jmp (.abs a)) s = .next { s with cpu := { s.cpu with pc := a } } ∧
    ∃ t, exec (.jmp (.ind a)) s = .next t ∧
      t.cpu = { s.cpu with pc := t.cpu.pc, es := t.cpu.es } ∧ Frame [] 0 s t ∧
      (let hiAt := BitVec.ofNat 16 (256 * (a.toNat / 256) + (a.toNat + 1) % 256)
       t.bus.trace = .peek hiAt :: .peek a :: s.bus.trace ∧
       t.cpu.pc.toNat = 256 * (s.bus.answered 1 hiAt).toNat + (s.bus.answered 0 a).toNat)

/-- JSR: the address of its own last byte pushed, high byte first, and `PC` at the target; nothing else (rule R181). -/
def Obligations.JsrPushesReturnAddress : Prop :=
  ∀ (a : Word) (s : State),
    EncodedBy (.jsr a) [0x20, loByte a, hiByte a] 6 ∧
    ∃ t, exec (.jsr a) s = .next t ∧
      t.cpu = { s.cpu with sp := s.cpu.sp - 2, pc := a, es := t.cpu.es } ∧
      Frame [stackAddr s.cpu.sp, stackAddr (s.cpu.sp - 1)] 0 s t ∧
      (let ret := s.cpu.pc - 1
       t.bus.trace = .poke (stackAddr (s.cpu.sp - 1)) (loByte ret) :: .poke (stackAddr s.cpu.sp) (hiByte ret) ::
         s.bus.trace ∧
       (s.bus.mem.wf = true →
        t.bus.mem.read (stackAddr s.cpu.sp).toNat = hiByte ret ∧
        t.bus.mem.read (stackAddr (s.cpu.sp - 1)).toNat = loByte ret))

/-- RTS: the word pulled, low byte first, as the Bus answers it, plus one modulo 2^16; nothing else (rule R182). -/
def Obligations.RtsPullsReturnAddress : Prop :=
  EncodedBy .rts [0x60] 6 ∧
  ∀ s : State, ∃ t, exec .rts s = .next t ∧
    t.cpu = { s.cpu with sp := s.cpu.sp + 2, pc := t.cpu.pc, es := t.cpu.es } ∧ Frame [] 0 s t ∧
    t.bus.trace = .peek (stackAddr (s.cpu.sp + 2)) :: .peek (stackAddr (s.cpu.sp + 1)) :: s.bus.trace ∧
    t.cpu.pc.toNat = (256 * (s.bus.answered 1 (stackAddr (s.cpu.sp + 2))).toNat +
      (s.bus.answered 0 (stackAddr (s.cpu.sp + 1))).toNat + 1) % 65536

/-- RTS after JSR, from whatever `PC`, resumes after the JSR with `SP` and every other register as before it (rule R183). -/
def Obligations.RtsReturnsFromJsr : Prop :=
  ∀ (a pc : Word) (s : State), s.bus.script = [] → s.bus.mem.wf = true →
    ∃ t u, exec (.jsr a) s = .next t ∧ exec .rts (t.setPC pc) = .next u ∧ u.cpu = s.cpu

/-- CLC, CLD, CLI, CLV, SEC, SED, SEI write exactly their flag, NOP writes nothing (rules R185 to R191, R195). -/
def Obligations.FlagInstructionsWriteOneFlag : Prop :=
  EncodedBy .clc [0x18] 2 ∧ EncodedBy .cld [0xD8] 2 ∧ EncodedBy .cli [0x58] 2 ∧ EncodedBy .clv [0xB8] 2 ∧
  EncodedBy .sec [0x38] 2 ∧ EncodedBy .sed [0xF8] 2 ∧ EncodedBy .sei [0x78] 2 ∧ EncodedBy .nop [0xEA] 2 ∧
  ∀ s : State,
    let withP := fun p : Flags => { s with cpu := { s.cpu with p := p } }
    exec .clc s = .next (withP { s.cpu.p with c := false }) ∧
    exec .cld s = .next (withP { s.cpu.p with d := false }) ∧
    exec .cli s = .next (withP { s.cpu.p with i := false }) ∧
    exec .clv s = .next (withP { s.cpu.p with v := false }) ∧
    exec .sec s = .next (withP { s.cpu.p with c := true }) ∧
    exec .sed s = .next (withP { s.cpu.p with d := true }) ∧
    exec .sei s = .next (withP { s.cpu.p with i := true }) ∧
    exec .nop s = .next s

/-! BRK, RTI, interrupts, the fatal error. -/

/-- BRK: `PC`, already past the padding byte, and the status byte with `B` set and the old `I` and `D` pushed; `B` and `I`
set, `D` not cleared; `PC` from the word at 0xFFFE, as the Bus answers it after the pushes; nothing else (rules R196,
R202). -/
def Obligations.BrkEntersHandler : Prop :=
  ∀ (pad : Byte) (s : State),
    EncodedBy (.brk pad) [0x00, pad] 7 ∧
    let sp := s.cpu.sp
    let status := ({ s.cpu.p with b := true } : Flags).pack
    ∃ t, exec (.brk pad) s = .next t ∧
      t.cpu = { s.cpu with
        sp := sp - 3, pc := t.cpu.pc, p := { s.cpu.p with b := true, i := true }, es := t.cpu.es } ∧
      Frame [stackAddr sp, stackAddr (sp - 1), stackAddr (sp - 2)] 0 s t ∧
      t.bus.trace = [.peek 0xFFFF, .peek 0xFFFE, .poke (stackAddr (sp - 2)) status,
        .poke (stackAddr (sp - 1)) (loByte s.cpu.pc), .poke (stackAddr sp) (hiByte s.cpu.pc)] ++ s.bus.trace ∧
      (s.bus.mem.wf = true →
        t.bus.mem.read (stackAddr sp).toNat = hiByte s.cpu.pc ∧
        t.bus.mem.read (stackAddr (sp - 1)).toNat = loByte s.cpu.pc ∧
        t.bus.mem.read (stackAddr (sp - 2)).toNat = status) ∧
      t.cpu.pc.toNat = 256 * (s.bus.answered 4 0xFFFF).toNat + (s.bus.answered 3 0xFFFE).toNat

/-- RTI: the status byte into all seven flags, then `PC` exactly as pulled, low byte first; the three bytes are the next three
answers of the Bus; nothing else (rule R197). -/
def Obligations.RtiRestoresFlagsAndPc : Prop :=
  EncodedBy .rti [0x40] 6 ∧
  ∀ s : State, ∃ t, exec .rti s = .next t ∧
    (let sp := s.cpu.sp
     let b := s.bus.answered 0 (stackAddr (sp + 1))
     t.cpu = { s.cpu with
       sp := sp + 3, pc := t.cpu.pc,
       p := ⟨b.getLsbD 7, b.getLsbD 6, b.getLsbD 4, b.getLsbD 3, b.getLsbD 2, b.getLsbD 1, b.getLsbD 0⟩,
       es := t.cpu.es } ∧
     Frame [] 0 s t ∧
     t.bus.trace = [.peek (stackAddr (sp + 3)), .peek (stackAddr (sp + 2)), .peek (stackAddr (sp + 1))] ++ s.bus.trace ∧
     t.cpu.pc.toNat = 256 * (s.bus.answered 2 (stackAddr (sp + 3))).toNat +
       (s.bus.answered 1 (stackAddr (sp + 2))).toNat)

/-- An illegal opcode sets `ES.Fatal` and nothing else: no register, flag or byte, no Bus call (rules R66, R201). -/
def Obligations.IllegalRaisesFatal : Prop :=
  ∀ (op : Byte) (s : State),
    exec (.illegal op) s = .next { s with cpu := { s.cpu with es := { s.cpu.es with fatal := true } } } ∧
    (isIllegalOpcode op = true → EncodedBy (.illegal op) [op] 0)

/-- The hardware interrupt entry: 7 cycles, then `PC` and the status byte with bit 4 clear pushed, `D` cleared, `I` set, `PC`
from the word at the vector, as the Bus answers it after the pushes; the stored `B` and everything else unchanged (rule
R208). -/
def Obligations.InterruptEntryEffect : Prop :=
  ∀ (vec : Word) (s : State),
    let sp := s.cpu.sp
    let status := ({ s.cpu.p with b := false } : Flags).pack
    let t := interruptEntry vec s
    t.cpu = { s.cpu with
      sp := sp - 3, pc := t.cpu.pc, p := { s.cpu.p with d := false, i := true }, es := t.cpu.es } ∧
    Frame [stackAddr sp, stackAddr (sp - 1), stackAddr (sp - 2)] 7 s t ∧
    t.bus.trace = [.peek (vec + 1), .peek vec, .poke (stackAddr (sp - 2)) status,
      .poke (stackAddr (sp - 1)) (loByte s.cpu.pc), .poke (stackAddr sp) (hiByte s.cpu.pc), .cycles 7] ++ s.bus.trace ∧
    (s.bus.mem.wf = true →
      t.bus.mem.read (stackAddr sp).toNat = hiByte s.cpu.pc ∧
      t.bus.mem.read (stackAddr (sp - 1)).toNat = loByte s.cpu.pc ∧
      t.bus.mem.read (stackAddr (sp - 2)).toNat = status) ∧
    t.cpu.pc = (memRead16 vec (push status (pushWord s.cpu.pc (addCycles 7 s)))).1 ∧
    (vec.toNat < 0xFFFF → 0x01FF < vec.toNat →
      t.cpu.pc.toNat = 256 * (s.bus.answered 4 (vec + 1)).toNat + (s.bus.answered 3 vec).toNat)

/-- Recognition at the boundary: no request, nothing; NMI first, whatever `I`; IRQ only with `I = 0`; a masked IRQ waits; one
entry, and only its own bit cleared (rules R99, R207). A request of the other kind raised by the five Bus accesses of the
entry is kept. Of the kind entered, R207 clears the bit after the entry and R211 says such a request is seen at the next
step f: whether it stays is free, `Config.keepsRequestDuringEntry` (the model's choice, log entry 13), and no statement
rests on its value; where the entry raises none of that kind the bit is 0. -/
def Obligations.InterruptPriority : Prop :=
  ∀ s : State,
    let entered := fun (vec : Word) (es : ExecStatus → ExecStatus) =>
      (interruptEntry vec s).setES (es (interruptEntry vec s).cpu.es)
    let answers := s.bus.script.take 5
    (s.cpu.es.nmi = true →
      boundary s = entered 0xFFFA (fun es => { es with
        nmi := answers.any (·.raises.nmi) && Config.keepsRequestDuringEntry })) ∧
    (s.cpu.es.nmi = false → s.cpu.es.irq = true → s.cpu.p.i = false →
      boundary s = entered 0xFFFE (fun es => { es with
        irq := answers.any (·.raises.irq) && Config.keepsRequestDuringEntry })) ∧
    (s.cpu.es.nmi = false → s.cpu.es.irq = true → s.cpu.p.i = true → boundary s = s) ∧
    (s.cpu.es.nmi = false → s.cpu.es.irq = false → boundary s = s)

/-- RTI right after an interrupt entry restores every register and flag but `B`, which becomes 0; after BRK it resumes past
the padding byte with `B` = 1 (rules R211, R241). -/
def Obligations.RtiReturnsFromHandler : Prop :=
  ∀ s : State, s.bus.script = [] → s.bus.mem.wf = true →
    (∀ vec : Word, ∃ u, exec .rti (interruptEntry vec s) = .next u ∧
      u.cpu = { s.cpu with p := { s.cpu.p with b := false } }) ∧
    (∀ pad : Byte, ∃ t u, exec (.brk pad) s = .next t ∧ exec .rti t = .next u ∧
      u.cpu = { s.cpu with p := { s.cpu.p with b := true } })

/-! The loop. -/

/-- A step runs the decoded instruction: where the bytes at `PC` decode to `i`, the step fetches it (`IR`, `PC` past its
bytes, the base cycles, one peek a byte), runs `exec i`, which completes, and then serves a pending interrupt at the boundary
(rules R80, R84, R85, R99, R206). -/
def Obligations.StepRunsDecodedInstruction : Prop :=
  ∀ (s : State) (i : Instr) (rest : List Byte), s.Runs → s.bus.script = [] → s.hook = [] →
    let at_ := fun k : Word => s.bus.mem.read (s.cpu.pc + k).toNat
    decode [at_ 0, at_ 1, at_ 2] = .ok (i, rest) →
    let peeks := [BusEvent.peek (s.cpu.pc + 2), .peek (s.cpu.pc + 1)].drop (3 - i.length)
    let fetched := { s with
      cpu := { s.cpu with ir := at_ 0, pc := s.cpu.pc + BitVec.ofNat 16 i.length },
      bus := { s.bus with
        cycles := s.bus.cycles + cycleTable (at_ 0),
        trace := peeks ++ (.cycles (cycleTable (at_ 0)) :: .peek s.cpu.pc :: s.bus.trace) } }
    step s = finish (exec i fetched) ∧ ∃ u, exec i fetched = .next u ∧ step s = .next (boundary u)

/-- On any Bus and with any debug hook that goes on: the step consults the hook, fetches through the Bus, runs what it fetched,
which completes, and serves a pending interrupt at the boundary (rules R80, R99, R206). The hook's part: absent, it leaves the state as it is; one that goes on uses up
its answer and raises the requests of that answer, and one that stops uses up its answer; none does anything else (rules
R83, R204, R205, R215, R216; that the predicate is a list of answers is log entry 7). -/
def Obligations.StepOnAnyBus : Prop :=
  ∀ s : State,
    let f := fetchInstr (consultHook s).2
    (s.Runs → step s = finish (exec f.1 f.2) ∧ ∃ u, exec f.1 f.2 = .next u ∧ step s = .next (boundary u)) ∧
    (s.hook = [] → consultHook s = (false, s)) ∧
    (∀ r rest, s.hook = .goOn r :: rest →
      consultHook s = (false, { s with
        cpu := { s.cpu with
          es := ⟨s.cpu.es.irq || r.irq, s.cpu.es.nmi || r.nmi, s.cpu.es.stop || r.stop, s.cpu.es.fatal⟩ },
        hook := rest })) ∧
    (∀ rest, s.hook = .stop :: rest → consultHook s = (true, { s with hook := rest }))

/-- The fetch on any Bus: the three bytes are the next three answers of the Bus at `PC` and the two addresses after it; the
instruction is the one they decode to, and well formed; `IR` is the first byte, `PC` is past the instruction, one peek is
made for each of its bytes, in order, with the base cycles charged after the first, and nothing else changes (rules R16,
R23, R56, R84, R85). -/
def Obligations.FetchReadsOneInstruction : Prop :=
  ∀ s : State,
    let f := fetchInstr s
    let byte := fun k : Nat => s.bus.answered k (s.cpu.pc + BitVec.ofNat 16 k)
    let bytes := [byte 0, byte 1, byte 2]
    decode bytes = .ok (f.1, bytes.drop f.1.length) ∧
    f.1.wf = true ∧ f.1.opcode = some (byte 0) ∧
    f.2.cpu = { s.cpu with
      ir := byte 0, pc := s.cpu.pc + BitVec.ofNat 16 f.1.length, es := f.2.cpu.es } ∧
    Frame [] (cycleTable (byte 0)) s f.2 ∧
    f.2.bus.trace = [BusEvent.peek (s.cpu.pc + 2), .peek (s.cpu.pc + 1)].drop (3 - f.1.length) ++
      (.cycles (cycleTable (byte 0)) :: .peek s.cpu.pc :: s.bus.trace)

/-- Every step either runs, and then completes, or stops for one of the three exit conditions in their order, which the
state shows: FatalError, StopExecution, the debug hook (rules R82, R83). It never refuses. That the hook's predicate is a
list of answers is the model's choice, log entry 7. -/
def Obligations.StepOutcomes : Prop :=
  ∀ s : State,
    (s.Runs → ∃ t, step s = .next t) ∧
    (s.cpu.es.fatal = true → step s = .fault .fatalError) ∧
    (s.cpu.es.fatal = false → s.cpu.es.stop = true → step s = .fault .stopped) ∧
    (∀ rest, s.cpu.es.fatal = false → s.cpu.es.stop = false → s.hook = .stop :: rest → step s = .fault .debugStop) ∧
    (s.Runs ∨ s.cpu.es.fatal = true ∨ s.cpu.es.stop = true ∨ ∃ rest, s.hook = .stop :: rest)

/-- Of a running step: `ES.Fatal` afterwards says exactly whether the opcode it left in `IR` is illegal, so the illegal
opcode is the only cause of FatalError (rule R201). -/
def Obligations.OnlyIllegalIsFatal : Prop :=
  ∀ s t : State, step s = .next t → t.cpu.es.fatal = isIllegalOpcode t.cpu.ir

/-- `ES.Fatal` is sticky: every later `execute` returns false with no Bus call, whatever the count, and leaves all but the
three bits step 1 clears; `reset()` does not revive the instance (rules R25, R82). -/
def Obligations.FatalIsSticky : Prop :=
  ∀ (n : Nat) (s : State), s.cpu.es.fatal = true →
    execute n s = { running := false, state := beginExecute s } ∧
    (beginExecute s).bus = s.bus ∧
    (beginExecute s).cpu = { s.cpu with es := ⟨false, false, false, true⟩ } ∧
    (hostReset s).cpu.es.fatal = true

/-- `execute(0)` fetches nothing and changes nothing but the three bits step 1 clears; it returns true exactly when the
instance is alive; a Stop raised before the call does not survive step 1 (rules R81, R82). -/
def Obligations.ExecuteZero : Prop :=
  ∀ s : State,
    execute 0 s =
      { running := !s.cpu.es.fatal,
        state := { s with cpu := { s.cpu with es := ⟨false, false, false, s.cpu.es.fatal⟩ } } }

/-- `execute` is step 1, which clears the three bits, and then its loop; and running it for `m + n` instructions is running `m`
steps after step 1 and then the loop for `n` more: the loop is the step iterated, with the exit checks between (rules R80,
R81). -/
def Obligations.ExecuteIteratesStep : Prop :=
  ∀ (m n : Nat) (s t : State),
    let cleared := { s with cpu := { s.cpu with es := ⟨false, false, false, s.cpu.es.fatal⟩ } }
    execute n s = executeLoop n cleared ∧
    (Host.Core.run core m s = .next t → executeLoop (m + n) s = executeLoop n t) ∧
    (Host.Core.run core m cleared = .next t → execute (m + n) s = executeLoop n t)

/-- What `execute` returns is whether `ES.Fatal` is 0 at exit; and how the loop ends: with no iteration left, on FatalError
and on StopExecution the state stays exactly as it is, `ES.Stop` still 1, the pending instruction not fetched; on a stop of
the debug hook it is as it was but for the hook's answer used up; an iteration that runs leaves the rest to one fewer
(rules R80, R82, R83, R215, R250). That a stop of the hook uses up an answer, because the debug predicate is a list of
answers, is the model's choice, log entry 7, and no part of R83 or R215. -/
def Obligations.ExecuteReturnsAlive : Prop :=
  (∀ (n : Nat) (s : State), (execute n s).running = !(execute n s).state.cpu.es.fatal) ∧
  ∀ (n : Nat) (s : State),
    executeLoop 0 s = { running := !s.cpu.es.fatal, state := s } ∧
    (s.cpu.es.fatal = true → executeLoop (n + 1) s = { running := false, state := s }) ∧
    (s.cpu.es.fatal = false → s.cpu.es.stop = true → executeLoop (n + 1) s = { running := true, state := s }) ∧
    (∀ rest, s.cpu.es.fatal = false → s.cpu.es.stop = false → s.hook = .stop :: rest →
      executeLoop (n + 1) s = { running := true, state := { s with hook := rest } }) ∧
    (s.Runs → ∃ t, step s = .next t ∧ executeLoop (n + 1) s = executeLoop n t)

/-! Whole-machine rules. -/

/-- No instruction writes a flag that rule R17 does not say it writes. -/
def Obligations.FlagWriters : Prop :=
  ∀ (i : Instr) (s t : State), exec i s = .next t →
    (.n ∉ i.writes → t.cpu.p.n = s.cpu.p.n) ∧
    (.v ∉ i.writes → t.cpu.p.v = s.cpu.p.v) ∧
    (.b ∉ i.writes → t.cpu.p.b = s.cpu.p.b) ∧
    (.d ∉ i.writes → t.cpu.p.d = s.cpu.p.d) ∧
    (.i ∉ i.writes → t.cpu.p.i = s.cpu.p.i) ∧
    (.z ∉ i.writes → t.cpu.p.z = s.cpu.p.z) ∧
    (.c ∉ i.writes → t.cpu.p.c = s.cpu.p.c)

/-- No instruction writes a register or memory that spec/10_state.md does not say it writes; none writes `IR`; none but an
illegal opcode touches `ES` other than through requests (rules R12 to R16, R23). -/
def Obligations.RegisterWriters : Prop :=
  ∀ (i : Instr) (s t : State), exec i s = .next t →
    (.a ∉ i.writes → t.cpu.a = s.cpu.a) ∧
    (.x ∉ i.writes → t.cpu.x = s.cpu.x) ∧
    (.y ∉ i.writes → t.cpu.y = s.cpu.y) ∧
    (.sp ∉ i.writes → t.cpu.sp = s.cpu.sp) ∧
    (.pc ∉ i.writes → t.cpu.pc = s.cpu.pc) ∧
    t.cpu.ir = s.cpu.ir ∧
    (.memory ∉ i.writes → t.bus.mem = s.bus.mem) ∧
    ((∀ op, i ≠ .illegal op) → Collaborators s t)

/-- A routine makes at most five Bus accesses after its operand fetches, and only adds events (rules R53, R85). -/
def Obligations.RoutineAccessBound : Prop :=
  ∀ (i : Instr) (s t : State), exec i s = .next t →
    ∃ ev : List BusEvent, t.bus.trace = ev ++ s.bus.trace ∧ traceAccesses ev ≤ 5

/-- The invariant every step keeps: memory stays canonical, and the cycle counter is the sum of the increments. -/
def Obligations.StepKeepsInvariant : Prop :=
  ∀ s t : State, s.Inv → step s = .next t → t.Inv

/-- The reset state meets the invariant. -/
def Obligations.ResetMeetsInvariant : Prop := State.reset.Inv

/-! Reset and the snapshot. -/

/-- `reset()`: `I`, three `ES` bits and `PC` from the reset vector as the Bus answers it, low byte first, with exactly two peeks
and no cycle; the registers, the other flags, `ES.Fatal` and memory keep what they held; where the two peeks raise no
request, none is pending (rules R230, R232, R234, R235). Whether one they raise stays pending is free,
`Config.keepsRequestDuringReset` (the model's choice, log entry 18). -/
def Obligations.ResetOperation : Prop :=
  ∀ s : State,
    let t := hostReset s
    t.cpu = { s.cpu with pc := t.cpu.pc, p := { s.cpu.p with i := true }, es := t.cpu.es } ∧
    let raised := fun bit : Requests → Bool =>
      (s.bus.script.take 2).any (fun ans => bit ans.raises) && Config.keepsRequestDuringReset
    t.cpu.es = ⟨raised (·.irq), raised (·.nmi), raised (·.stop), s.cpu.es.fatal⟩ ∧
    ((∀ ans ∈ s.bus.script.take 2, ans.raises = .none) → t.cpu.es = ⟨false, false, false, s.cpu.es.fatal⟩) ∧
    t.bus.script = s.bus.script.drop 2 ∧
    t.bus.trace = .peek 0xFFFD :: .peek 0xFFFC :: s.bus.trace ∧
    t.bus.cycles = s.bus.cycles ∧ t.bus.mem = s.bus.mem ∧ t.hook = s.hook ∧ t.draws = s.draws ∧
    t.cpu.pc.toNat = 256 * (s.bus.answered 1 0xFFFD).toNat + (s.bus.answered 0 0xFFFC).toNat

/-- `reset()` twice is `reset()` once, provided the vector peeks answer alike both times (rules R30, R233). That they raise
no request is assumed only where the engine keeps such a request, which R233 does not speak of: the model's choice, log
entry 18. -/
def Obligations.ResetIdempotent : Prop :=
  ∀ s : State,
    (hostReset (hostReset s)).cpu.pc = (hostReset s).cpu.pc →
    (Config.keepsRequestDuringReset = true → ∀ ans ∈ s.bus.script.take 4, ans.raises = .none) →
    (hostReset (hostReset s)).cpu = (hostReset s).cpu

/-- Creation, with any registers and flags and on any Bus: they are as given, all four `ES` bits are 0, and the hook is that
of the minimal build (rules R30, R83, R231; log entry 7). The state after reset is creation followed by `reset()`. The
values of `A`, `X`, `Y`, `SP`, `IR` and of every flag but `I`, zero, are the model's choice (log entry 1), and so is the zero byte an unlisted address reads as, hence `PC`
(log entry 2). -/
def Obligations.ResetStateIsCreationThenReset : Prop :=
  (∀ (p : ProcessorState) (bus : Bus),
    let t := create p bus
    t.cpu = { p with es := ⟨false, false, false, false⟩ } ∧ t.bus = bus ∧ t.hook = []) ∧
  State.reset = hostReset (create ProcessorState.powerOn { mem := [], cycles := 0, script := [], trace := [] }) ∧
  State.reset.cpu = ⟨0, 0, 0, 0, 0, 0, ⟨false, false, false, false, true, false, false⟩, ⟨false, false, false, false⟩⟩

/-- The snapshot's format, and the round trip. The format: 68 bytes; the tag's length, the tag `M6502Low`, then fourteen fields of
four bytes each, least significant first, each at its offset: the six registers, the six flags and `notZero`, the complement
of `Z`, as the two patterns, and `ES` as 1 for Stop, 2 for Fatal, 4 for IRQ, 8 for NMI. The round trip: with any legal
boolean patterns, loading what `save` wrote gives back every field of ProcessorState, unless the loading instance is dead and
the saved one was not, and touches neither the Bus nor anything else (rules R24, R251, R252). That bytes after the 68th
(`more`) do not matter is the model's choice, log entry 15; with `more` empty it is the round trip of R252.
Whether a live `c` loaded into a dead `s` revives it is free, `Config.loadKeepsFatal` (the model's choice, log entry 17); every other field is then as saved. -/
def Obligations.SnapshotRoundTrip : Prop :=
  ∀ (pat : Config.BoolPatterns) (c : ProcessorState) (s : State) (more : List Byte),
    let blob := save pat c
    let bit := fun (b : Bool) (w : Nat) => if b then w else 0
    let pattern := fun b : Bool => (if b then pat.truePattern else pat.falsePattern).toNat
    let field := fun offset v : Nat =>
      (blob.drop offset).take 4 =
        [BitVec.ofNat 8 v, BitVec.ofNat 8 (v / 256), BitVec.ofNat 8 (v / 65536), BitVec.ofNat 8 (v / 16777216)]
    blob.length = 68 ∧
    field 0 8 ∧ (blob.drop 4).take 8 = [0x4D, 0x36, 0x35, 0x30, 0x32, 0x4C, 0x6F, 0x77] ∧
    field 12 c.a.toNat ∧ field 16 c.x.toNat ∧ field 20 c.y.toNat ∧ field 24 c.sp.toNat ∧
    field 28 c.ir.toNat ∧ field 32 c.pc.toNat ∧
    field 36 (pattern c.p.n) ∧ field 40 (pattern c.p.v) ∧ field 44 (pattern c.p.b) ∧ field 48 (pattern c.p.d) ∧
    field 52 (pattern c.p.i) ∧ field 56 (pattern (!c.p.z)) ∧ field 60 (pattern c.p.c) ∧
    field 64 (bit c.es.stop 1 + bit c.es.fatal 2 + bit c.es.irq 4 + bit c.es.nmi 8) ∧
    (pat.Legal → s.cpu.es.fatal = false ∨ c.es.fatal = true →
      loadSnapshot pat (blob ++ more) s = (true, { s with cpu := c })) ∧
    (pat.Legal → s.cpu.es.fatal = true → c.es.fatal = false →
      loadSnapshot pat (blob ++ more) s =
        (true, { s with cpu := { c with es := { c.es with fatal := Config.loadKeepsFatal } } }))

/-- `load` is all or nothing: a short stream, a wrong tag, or a blob whose first 68 bytes `save` never writes changes
nothing and returns false; a success returns exactly the state whose snapshot the blob holds (rule R252). That a longer
blob is judged by its first 68 bytes is the model's choice, log entry 15. Whether a live snapshot loaded into a dead
instance revives it is free, `Config.loadKeepsFatal` (the model's choice, log entry 17). -/
def Obligations.LoadIsAllOrNothing : Prop :=
  ∀ (pat : Config.BoolPatterns) (blob : List Byte) (s : State),
    (loadSnapshot pat blob s = (false, s) ∨
      ∃ c, blob.take 68 = save pat c ∧
        loadSnapshot pat blob s = (true, { s with cpu := { c with
          es := { c.es with fatal := c.es.fatal || s.cpu.es.fatal && Config.loadKeepsFatal } } })) ∧
    (blob.length < 68 → loadSnapshot pat blob s = (false, s)) ∧
    (blob.take 12 ≠ snapshotTag → loadSnapshot pat blob s = (false, s))
end

