-- ==== Sys2Proof/Laws/Bits.lean ====
section
/-! SUPPORT. The byte-order helpers in numbers, and that a word and its two bytes are the same thing. -/

namespace Sys2Proof.Machine

@[simp] theorem makeWord_hi_lo (w : Word) : makeWord (hiByte w) (loByte w) = w := by
  unfold makeWord hiByte loByte
  ext i hi
  simp
  grind

@[simp] theorem loByte_makeWord (h l : Byte) : loByte (makeWord h l) = l := by
  unfold makeWord loByte
  ext i hi
  simp
  grind

@[simp] theorem hiByte_makeWord (h l : Byte) : hiByte (makeWord h l) = h := by
  unfold makeWord hiByte
  ext i hi
  simp only [BitVec.getElem_extractLsb']
  rw [BitVec.getLsbD_append]
  simp [hi]

theorem makeWord_toNat (h l : Byte) : (makeWord h l).toNat = 256 * h.toNat + l.toNat := by
  unfold makeWord
  rw [BitVec.toNat_append, ← Nat.shiftLeft_add_eq_or_of_lt l.isLt, Nat.shiftLeft_eq]
  omega

theorem loByte_toNat (w : Word) : (loByte w).toNat = w.toNat % 256 := by
  unfold loByte
  rw [BitVec.extractLsb'_toNat]
  simp

theorem hiByte_toNat (w : Word) : (hiByte w).toNat = w.toNat / 256 := by
  unfold hiByte
  rw [BitVec.extractLsb'_toNat, Nat.shiftRight_eq_div_pow]
  have := w.isLt
  omega

theorem zext16_toNat (v : Byte) : (zext16 v).toNat = v.toNat := by
  unfold zext16
  rw [BitVec.toNat_setWidth]
  have := v.isLt
  omega

theorem stackAddr_toNat (sp : Byte) : (stackAddr sp).toNat = 0x0100 + sp.toNat := by
  unfold stackAddr
  rw [BitVec.toNat_add, zext16_toNat]
  have := sp.isLt
  simp
  omega

/-- Two stack addresses differ where their stack pointers do. -/
theorem stackAddr_inj {a b : Byte} : stackAddr a = stackAddr b ↔ a = b := by
  constructor
  · intro h
    have := congrArg BitVec.toNat h
    rw [stackAddr_toNat, stackAddr_toNat] at this
    exact BitVec.eq_of_toNat_eq (by omega)
  · rintro rfl
    rfl

theorem sext16_eq_ofInt (v : Byte) : sext16 v = BitVec.ofInt 16 v.toInt := by
  revert v
  decide

end Sys2Proof.Machine
end

