-- ==== Sys2Proof/Laws/Decode.lean ====
section
/-! SUPPORT. The decoder: what depends on the opcode alone. -/

namespace Sys2Proof

open Sys2Proof.Machine

/-- A statement about every byte is one about the 256 numerals. -/
theorem byte_cases {P : Byte → Prop} (h : ∀ n : Fin 256, P (BitVec.ofNat 8 n)) (op : Byte) : P op := by
  have := h ⟨op.toNat, op.isLt⟩
  simpa using this

/-- A byte by its nibbles. -/
theorem byte_nibbles (op : Byte) : op = BitVec.ofNat 8 (16 * (op.toNat / 16) + op.toNat % 16) := by
  have := op.isLt
  apply BitVec.eq_of_toNat_eq
  simp only [BitVec.toNat_ofNat]
  omega

/-- The operand bytes do not matter to the length (rule R60). -/
theorem decodeInstr_length (op b1 b2 : Byte) : (decodeInstr op b1 b2).length = opcodeLength op := by
  unfold opcodeLength decodeInstr
  dsimp only
  generalize op.toNat % 16 = lo
  split
  · unfold decodeRow0; split <;> rfl
  · unfold decodeRow1; split <;> rfl
  · unfold decodeRow2; split <;> rfl
  · unfold decodeRow3; split <;> rfl
  · unfold decodeRow4; split <;> rfl
  · unfold decodeRow5; split <;> rfl
  · unfold decodeRow6; split <;> rfl
  · unfold decodeRow7; split <;> rfl
  · unfold decodeRow8; split <;> rfl
  · unfold decodeRow9; split <;> rfl
  · unfold decodeRowA; split <;> rfl
  · unfold decodeRowB; split <;> rfl
  · unfold decodeRowC; split <;> rfl
  · unfold decodeRowD; split <;> rfl
  · unfold decodeRowE; split <;> rfl
  · unfold decodeRowF; split <;> rfl

/-- Every length is 1, 2 or 3 (rule R61). -/
theorem opcodeLength_cases (op : Byte) : opcodeLength op = 1 ∨ opcodeLength op = 2 ∨ opcodeLength op = 3 := by
  revert op
  decide

/-- The operand bytes of a decoded instruction are the bytes it was decoded from, as many as its form has. -/
theorem decodeInstr_operandBytes (op b1 b2 : Byte) :
    (decodeInstr op b1 b2).operandBytes = [b1, b2].take (opcodeLength op - 1) := by
  rw [← decodeInstr_length op b1 b2]
  have hw : [loByte (makeWord b2 b1), hiByte (makeWord b2 b1)] = [b1, b2] := by simp
  unfold decodeInstr
  dsimp only
  generalize op.toNat % 16 = lo
  split
  · unfold decodeRow0; split <;> first | rfl | exact hw
  · unfold decodeRow1; split <;> first | rfl | exact hw
  · unfold decodeRow2; split <;> first | rfl | exact hw
  · unfold decodeRow3; split <;> first | rfl | exact hw
  · unfold decodeRow4; split <;> first | rfl | exact hw
  · unfold decodeRow5; split <;> first | rfl | exact hw
  · unfold decodeRow6; split <;> first | rfl | exact hw
  · unfold decodeRow7; split <;> first | rfl | exact hw
  · unfold decodeRow8; split <;> first | rfl | exact hw
  · unfold decodeRow9; split <;> first | rfl | exact hw
  · unfold decodeRowA; split <;> first | rfl | exact hw
  · unfold decodeRowB; split <;> first | rfl | exact hw
  · unfold decodeRowC; split <;> first | rfl | exact hw
  · unfold decodeRowD; split <;> first | rfl | exact hw
  · unfold decodeRowE; split <;> first | rfl | exact hw
  · unfold decodeRowF; split <;> first | rfl | exact hw

/-- What an encoding is: the opcode, then the operand bytes. -/
theorem encode_eq_some {i : Instr} {bytes : List Byte} :
    encode i = some bytes ↔ ∃ op, i.opcode = some op ∧ bytes = op :: i.operandBytes := by
  unfold encode
  cases i.opcode <;> simp [eq_comm]

end Sys2Proof
end

