-- ==== Sys2Proof/Laws/State.lean ====
section
/-! SUPPORT. What each register update leaves in each field: one lemma per field per update. -/

namespace Sys2Proof.Machine

@[simp] theorem State.setA_a (s : State) (v : Byte) : (s.setA v).cpu.a = v := rfl
@[simp] theorem State.setA_x (s : State) (v : Byte) : (s.setA v).cpu.x = s.cpu.x := rfl
@[simp] theorem State.setA_y (s : State) (v : Byte) : (s.setA v).cpu.y = s.cpu.y := rfl
@[simp] theorem State.setA_sp (s : State) (v : Byte) : (s.setA v).cpu.sp = s.cpu.sp := rfl
@[simp] theorem State.setA_pc (s : State) (v : Byte) : (s.setA v).cpu.pc = s.cpu.pc := rfl
@[simp] theorem State.setA_ir (s : State) (v : Byte) : (s.setA v).cpu.ir = s.cpu.ir := rfl
@[simp] theorem State.setA_p (s : State) (v : Byte) : (s.setA v).cpu.p = s.cpu.p := rfl
@[simp] theorem State.setA_es (s : State) (v : Byte) : (s.setA v).cpu.es = s.cpu.es := rfl
@[simp] theorem State.setA_bus (s : State) (v : Byte) : (s.setA v).bus = s.bus := rfl
@[simp] theorem State.setA_hook (s : State) (v : Byte) : (s.setA v).hook = s.hook := rfl
@[simp] theorem State.setA_draws (s : State) (v : Byte) : (s.setA v).draws = s.draws := rfl

@[simp] theorem State.setX_a (s : State) (v : Byte) : (s.setX v).cpu.a = s.cpu.a := rfl
@[simp] theorem State.setX_x (s : State) (v : Byte) : (s.setX v).cpu.x = v := rfl
@[simp] theorem State.setX_y (s : State) (v : Byte) : (s.setX v).cpu.y = s.cpu.y := rfl
@[simp] theorem State.setX_sp (s : State) (v : Byte) : (s.setX v).cpu.sp = s.cpu.sp := rfl
@[simp] theorem State.setX_pc (s : State) (v : Byte) : (s.setX v).cpu.pc = s.cpu.pc := rfl
@[simp] theorem State.setX_ir (s : State) (v : Byte) : (s.setX v).cpu.ir = s.cpu.ir := rfl
@[simp] theorem State.setX_p (s : State) (v : Byte) : (s.setX v).cpu.p = s.cpu.p := rfl
@[simp] theorem State.setX_es (s : State) (v : Byte) : (s.setX v).cpu.es = s.cpu.es := rfl
@[simp] theorem State.setX_bus (s : State) (v : Byte) : (s.setX v).bus = s.bus := rfl
@[simp] theorem State.setX_hook (s : State) (v : Byte) : (s.setX v).hook = s.hook := rfl
@[simp] theorem State.setX_draws (s : State) (v : Byte) : (s.setX v).draws = s.draws := rfl

@[simp] theorem State.setY_a (s : State) (v : Byte) : (s.setY v).cpu.a = s.cpu.a := rfl
@[simp] theorem State.setY_x (s : State) (v : Byte) : (s.setY v).cpu.x = s.cpu.x := rfl
@[simp] theorem State.setY_y (s : State) (v : Byte) : (s.setY v).cpu.y = v := rfl
@[simp] theorem State.setY_sp (s : State) (v : Byte) : (s.setY v).cpu.sp = s.cpu.sp := rfl
@[simp] theorem State.setY_pc (s : State) (v : Byte) : (s.setY v).cpu.pc = s.cpu.pc := rfl
@[simp] theorem State.setY_ir (s : State) (v : Byte) : (s.setY v).cpu.ir = s.cpu.ir := rfl
@[simp] theorem State.setY_p (s : State) (v : Byte) : (s.setY v).cpu.p = s.cpu.p := rfl
@[simp] theorem State.setY_es (s : State) (v : Byte) : (s.setY v).cpu.es = s.cpu.es := rfl
@[simp] theorem State.setY_bus (s : State) (v : Byte) : (s.setY v).bus = s.bus := rfl
@[simp] theorem State.setY_hook (s : State) (v : Byte) : (s.setY v).hook = s.hook := rfl
@[simp] theorem State.setY_draws (s : State) (v : Byte) : (s.setY v).draws = s.draws := rfl

@[simp] theorem State.setSP_a (s : State) (v : Byte) : (s.setSP v).cpu.a = s.cpu.a := rfl
@[simp] theorem State.setSP_x (s : State) (v : Byte) : (s.setSP v).cpu.x = s.cpu.x := rfl
@[simp] theorem State.setSP_y (s : State) (v : Byte) : (s.setSP v).cpu.y = s.cpu.y := rfl
@[simp] theorem State.setSP_sp (s : State) (v : Byte) : (s.setSP v).cpu.sp = v := rfl
@[simp] theorem State.setSP_pc (s : State) (v : Byte) : (s.setSP v).cpu.pc = s.cpu.pc := rfl
@[simp] theorem State.setSP_ir (s : State) (v : Byte) : (s.setSP v).cpu.ir = s.cpu.ir := rfl
@[simp] theorem State.setSP_p (s : State) (v : Byte) : (s.setSP v).cpu.p = s.cpu.p := rfl
@[simp] theorem State.setSP_es (s : State) (v : Byte) : (s.setSP v).cpu.es = s.cpu.es := rfl
@[simp] theorem State.setSP_bus (s : State) (v : Byte) : (s.setSP v).bus = s.bus := rfl
@[simp] theorem State.setSP_hook (s : State) (v : Byte) : (s.setSP v).hook = s.hook := rfl
@[simp] theorem State.setSP_draws (s : State) (v : Byte) : (s.setSP v).draws = s.draws := rfl

@[simp] theorem State.setPC_a (s : State) (v : Word) : (s.setPC v).cpu.a = s.cpu.a := rfl
@[simp] theorem State.setPC_x (s : State) (v : Word) : (s.setPC v).cpu.x = s.cpu.x := rfl
@[simp] theorem State.setPC_y (s : State) (v : Word) : (s.setPC v).cpu.y = s.cpu.y := rfl
@[simp] theorem State.setPC_sp (s : State) (v : Word) : (s.setPC v).cpu.sp = s.cpu.sp := rfl
@[simp] theorem State.setPC_pc (s : State) (v : Word) : (s.setPC v).cpu.pc = v := rfl
@[simp] theorem State.setPC_ir (s : State) (v : Word) : (s.setPC v).cpu.ir = s.cpu.ir := rfl
@[simp] theorem State.setPC_p (s : State) (v : Word) : (s.setPC v).cpu.p = s.cpu.p := rfl
@[simp] theorem State.setPC_es (s : State) (v : Word) : (s.setPC v).cpu.es = s.cpu.es := rfl
@[simp] theorem State.setPC_bus (s : State) (v : Word) : (s.setPC v).bus = s.bus := rfl
@[simp] theorem State.setPC_hook (s : State) (v : Word) : (s.setPC v).hook = s.hook := rfl
@[simp] theorem State.setPC_draws (s : State) (v : Word) : (s.setPC v).draws = s.draws := rfl

@[simp] theorem State.setIR_a (s : State) (v : Byte) : (s.setIR v).cpu.a = s.cpu.a := rfl
@[simp] theorem State.setIR_x (s : State) (v : Byte) : (s.setIR v).cpu.x = s.cpu.x := rfl
@[simp] theorem State.setIR_y (s : State) (v : Byte) : (s.setIR v).cpu.y = s.cpu.y := rfl
@[simp] theorem State.setIR_sp (s : State) (v : Byte) : (s.setIR v).cpu.sp = s.cpu.sp := rfl
@[simp] theorem State.setIR_pc (s : State) (v : Byte) : (s.setIR v).cpu.pc = s.cpu.pc := rfl
@[simp] theorem State.setIR_ir (s : State) (v : Byte) : (s.setIR v).cpu.ir = v := rfl
@[simp] theorem State.setIR_p (s : State) (v : Byte) : (s.setIR v).cpu.p = s.cpu.p := rfl
@[simp] theorem State.setIR_es (s : State) (v : Byte) : (s.setIR v).cpu.es = s.cpu.es := rfl
@[simp] theorem State.setIR_bus (s : State) (v : Byte) : (s.setIR v).bus = s.bus := rfl
@[simp] theorem State.setIR_hook (s : State) (v : Byte) : (s.setIR v).hook = s.hook := rfl
@[simp] theorem State.setIR_draws (s : State) (v : Byte) : (s.setIR v).draws = s.draws := rfl

@[simp] theorem State.setP_a (s : State) (v : Flags) : (s.setP v).cpu.a = s.cpu.a := rfl
@[simp] theorem State.setP_x (s : State) (v : Flags) : (s.setP v).cpu.x = s.cpu.x := rfl
@[simp] theorem State.setP_y (s : State) (v : Flags) : (s.setP v).cpu.y = s.cpu.y := rfl
@[simp] theorem State.setP_sp (s : State) (v : Flags) : (s.setP v).cpu.sp = s.cpu.sp := rfl
@[simp] theorem State.setP_pc (s : State) (v : Flags) : (s.setP v).cpu.pc = s.cpu.pc := rfl
@[simp] theorem State.setP_ir (s : State) (v : Flags) : (s.setP v).cpu.ir = s.cpu.ir := rfl
@[simp] theorem State.setP_p (s : State) (v : Flags) : (s.setP v).cpu.p = v := rfl
@[simp] theorem State.setP_es (s : State) (v : Flags) : (s.setP v).cpu.es = s.cpu.es := rfl
@[simp] theorem State.setP_bus (s : State) (v : Flags) : (s.setP v).bus = s.bus := rfl
@[simp] theorem State.setP_hook (s : State) (v : Flags) : (s.setP v).hook = s.hook := rfl
@[simp] theorem State.setP_draws (s : State) (v : Flags) : (s.setP v).draws = s.draws := rfl

@[simp] theorem ExecStatus.keepRequests_true (es : ExecStatus) : es.keepRequests true = es := by
  simp [ExecStatus.keepRequests]

@[simp] theorem ExecStatus.keepRequests_false (es : ExecStatus) :
    es.keepRequests false = ⟨false, false, false, es.fatal⟩ := by simp [ExecStatus.keepRequests]

@[simp] theorem ExecStatus.keepRequests_fatal (es : ExecStatus) (keep : Bool) :
    (es.keepRequests keep).fatal = es.fatal := rfl

@[simp] theorem State.setES_setES (s : State) (d e : ExecStatus) : (s.setES d).setES e = s.setES e := rfl
@[simp] theorem State.setES_a (s : State) (v : ExecStatus) : (s.setES v).cpu.a = s.cpu.a := rfl
@[simp] theorem State.setES_x (s : State) (v : ExecStatus) : (s.setES v).cpu.x = s.cpu.x := rfl
@[simp] theorem State.setES_y (s : State) (v : ExecStatus) : (s.setES v).cpu.y = s.cpu.y := rfl
@[simp] theorem State.setES_sp (s : State) (v : ExecStatus) : (s.setES v).cpu.sp = s.cpu.sp := rfl
@[simp] theorem State.setES_pc (s : State) (v : ExecStatus) : (s.setES v).cpu.pc = s.cpu.pc := rfl
@[simp] theorem State.setES_ir (s : State) (v : ExecStatus) : (s.setES v).cpu.ir = s.cpu.ir := rfl
@[simp] theorem State.setES_p (s : State) (v : ExecStatus) : (s.setES v).cpu.p = s.cpu.p := rfl
@[simp] theorem State.setES_es (s : State) (v : ExecStatus) : (s.setES v).cpu.es = v := rfl
@[simp] theorem State.setES_bus (s : State) (v : ExecStatus) : (s.setES v).bus = s.bus := rfl
@[simp] theorem State.setES_hook (s : State) (v : ExecStatus) : (s.setES v).hook = s.hook := rfl
@[simp] theorem State.setES_draws (s : State) (v : ExecStatus) : (s.setES v).draws = s.draws := rfl

@[simp] theorem State.raiseFatal_a (s : State) : s.raiseFatal.cpu.a = s.cpu.a := rfl
@[simp] theorem State.raiseFatal_x (s : State) : s.raiseFatal.cpu.x = s.cpu.x := rfl
@[simp] theorem State.raiseFatal_y (s : State) : s.raiseFatal.cpu.y = s.cpu.y := rfl
@[simp] theorem State.raiseFatal_sp (s : State) : s.raiseFatal.cpu.sp = s.cpu.sp := rfl
@[simp] theorem State.raiseFatal_pc (s : State) : s.raiseFatal.cpu.pc = s.cpu.pc := rfl
@[simp] theorem State.raiseFatal_ir (s : State) : s.raiseFatal.cpu.ir = s.cpu.ir := rfl
@[simp] theorem State.raiseFatal_p (s : State) : s.raiseFatal.cpu.p = s.cpu.p := rfl
@[simp] theorem State.raiseFatal_es (s : State) : s.raiseFatal.cpu.es = { s.cpu.es with fatal := true } := rfl
@[simp] theorem State.raiseFatal_bus (s : State) : s.raiseFatal.bus = s.bus := rfl
@[simp] theorem State.raiseFatal_hook (s : State) : s.raiseFatal.hook = s.hook := rfl
@[simp] theorem State.raiseFatal_draws (s : State) : s.raiseFatal.draws = s.draws := rfl

@[simp] theorem State.raise_a (s : State) (r : Requests) : (s.raise r).cpu.a = s.cpu.a := rfl
@[simp] theorem State.raise_x (s : State) (r : Requests) : (s.raise r).cpu.x = s.cpu.x := rfl
@[simp] theorem State.raise_y (s : State) (r : Requests) : (s.raise r).cpu.y = s.cpu.y := rfl
@[simp] theorem State.raise_sp (s : State) (r : Requests) : (s.raise r).cpu.sp = s.cpu.sp := rfl
@[simp] theorem State.raise_pc (s : State) (r : Requests) : (s.raise r).cpu.pc = s.cpu.pc := rfl
@[simp] theorem State.raise_ir (s : State) (r : Requests) : (s.raise r).cpu.ir = s.cpu.ir := rfl
@[simp] theorem State.raise_p (s : State) (r : Requests) : (s.raise r).cpu.p = s.cpu.p := rfl
@[simp] theorem State.raise_es (s : State) (r : Requests) : (s.raise r).cpu.es = s.cpu.es.raise r := rfl
@[simp] theorem State.raise_bus (s : State) (r : Requests) : (s.raise r).bus = s.bus := rfl
@[simp] theorem State.raise_hook (s : State) (r : Requests) : (s.raise r).hook = s.hook := rfl
@[simp] theorem State.raise_draws (s : State) (r : Requests) : (s.raise r).draws = s.draws := rfl

@[simp] theorem State.setNZ_a (s : State) (v : Byte) : (s.setNZ v).cpu.a = s.cpu.a := rfl
@[simp] theorem State.setNZ_x (s : State) (v : Byte) : (s.setNZ v).cpu.x = s.cpu.x := rfl
@[simp] theorem State.setNZ_y (s : State) (v : Byte) : (s.setNZ v).cpu.y = s.cpu.y := rfl
@[simp] theorem State.setNZ_sp (s : State) (v : Byte) : (s.setNZ v).cpu.sp = s.cpu.sp := rfl
@[simp] theorem State.setNZ_pc (s : State) (v : Byte) : (s.setNZ v).cpu.pc = s.cpu.pc := rfl
@[simp] theorem State.setNZ_ir (s : State) (v : Byte) : (s.setNZ v).cpu.ir = s.cpu.ir := rfl
@[simp] theorem State.setNZ_p (s : State) (v : Byte) : (s.setNZ v).cpu.p = s.cpu.p.setNZ v := rfl
@[simp] theorem State.setNZ_es (s : State) (v : Byte) : (s.setNZ v).cpu.es = s.cpu.es := rfl
@[simp] theorem State.setNZ_bus (s : State) (v : Byte) : (s.setNZ v).bus = s.bus := rfl
@[simp] theorem State.setNZ_hook (s : State) (v : Byte) : (s.setNZ v).hook = s.hook := rfl
@[simp] theorem State.setNZ_draws (s : State) (v : Byte) : (s.setNZ v).draws = s.draws := rfl

@[simp] theorem State.nextDraw_cpu (s : State) : s.nextDraw.cpu = s.cpu := rfl
@[simp] theorem State.nextDraw_bus (s : State) : s.nextDraw.bus = s.bus := rfl
@[simp] theorem State.nextDraw_hook (s : State) : s.nextDraw.hook = s.hook := rfl
@[simp] theorem State.nextDraw_draws (s : State) : s.nextDraw.draws = s.draws + 1 := rfl

/-! The flags one by one. -/

@[simp] theorem Flags.setNZ_n (p : Flags) (v : Byte) : (p.setNZ v).n = v.getLsbD 7 := rfl
@[simp] theorem Flags.setNZ_z (p : Flags) (v : Byte) : (p.setNZ v).z = decide (v = 0) := rfl
@[simp] theorem Flags.setNZ_v (p : Flags) (v : Byte) : (p.setNZ v).v = p.v := rfl
@[simp] theorem Flags.setNZ_b (p : Flags) (v : Byte) : (p.setNZ v).b = p.b := rfl
@[simp] theorem Flags.setNZ_d (p : Flags) (v : Byte) : (p.setNZ v).d = p.d := rfl
@[simp] theorem Flags.setNZ_i (p : Flags) (v : Byte) : (p.setNZ v).i = p.i := rfl
@[simp] theorem Flags.setNZ_c (p : Flags) (v : Byte) : (p.setNZ v).c = p.c := rfl

/-! A whole ProcessorState at once: the registers and flags an equation gives, for lemmas whose right side names the
`es` of their left. -/

theorem ProcessorState.parts {s a x y sp pc ir p es} (h : s = (⟨a, x, y, sp, pc, ir, p, es⟩ : ProcessorState)) :
    s.a = a ∧ s.x = x ∧ s.y = y ∧ s.sp = sp ∧ s.pc = pc ∧ s.ir = ir ∧ s.p = p ∧ s.es = es := by
  subst h
  exact ⟨rfl, rfl, rfl, rfl, rfl, rfl, rfl, rfl⟩

/-! Requests. -/

@[simp] theorem ExecStatus.raise_none (es : ExecStatus) : es.raise .none = es := by
  simp [ExecStatus.raise, Requests.none]

@[simp] theorem ExecStatus.raise_fatal (es : ExecStatus) (r : Requests) : (es.raise r).fatal = es.fatal := rfl

/-- Two requests in turn are one request of both. -/
theorem ExecStatus.raise_raise (es : ExecStatus) (r q : Requests) :
    (es.raise r).raise q = es.raise ⟨r.irq || q.irq, r.nmi || q.nmi, r.stop || q.stop⟩ := by
  simp [ExecStatus.raise, Bool.or_assoc]

end Sys2Proof.Machine
end

