-- ==== Sys2Proof/Laws/Ops.lean ====
section
/-! SUPPORT. What each shared operation can do: its frame, its memory, its events, and that it keeps the invariant. -/

namespace Sys2Proof.Machine

/-! The frames compose. -/

@[simp] theorem Bus.answer_nil {b : Bus} (h : b.script = []) : b.answer = .plain := by simp [Bus.answer, h]

@[simp] theorem ExecStatus.raiseAll_nil (es : ExecStatus) : es.raiseAll [] = es := rfl

theorem ExecStatus.raiseAll_append (es : ExecStatus) (l m : List BusAnswer) :
    es.raiseAll (l ++ m) = (es.raiseAll l).raiseAll m := List.foldl_append

@[simp] theorem ExecStatus.raiseAll_fatal (es : ExecStatus) (l : List BusAnswer) : (es.raiseAll l).fatal = es.fatal := by
  induction l generalizing es with
  | nil => rfl
  | cons a l ih => exact (ih _).trans (ExecStatus.raise_fatal _ _)

/-- A bit of `ES` is 1 after some requests if it was, or if one of them asks for it (rules R204, R205, R215). -/
theorem ExecStatus.raiseAll_eq (es : ExecStatus) (l : List BusAnswer) :
    es.raiseAll l =
      ⟨es.irq || l.any (·.raises.irq), es.nmi || l.any (·.raises.nmi), es.stop || l.any (·.raises.stop), es.fatal⟩ := by
  induction l generalizing es with
  | nil => simp [ExecStatus.raiseAll]
  | cons a l ih => exact (ih (es.raise a.raises)).trans (by simp [ExecStatus.raise, Bool.or_assoc])

/-- The requests of the next answer are those of a script cut to one answer (rule R44). -/
theorem ExecStatus.raise_answer (es : ExecStatus) (b : Bus) :
    es.raise b.answer.raises = es.raiseAll (b.script.take 1) := by
  rcases h : b.script with _ | ⟨a, l⟩ <;> simp [Bus.answer, h, ExecStatus.raiseAll, BusAnswer.plain]

theorem Collaborators.refl (s : State) : Collaborators s s := ⟨0, rfl, rfl, rfl, rfl⟩

theorem Collaborators.trans {s t u : State} (h : Collaborators s t) (k : Collaborators t u) : Collaborators s u := by
  obtain ⟨m, h1, h2, h3, h4⟩ := h
  obtain ⟨n, k1, k2, k3, k4⟩ := k
  refine ⟨m + n, by omega, by rw [k2, h2, List.drop_drop], ?_, k4.trans h4⟩
  rw [k3, h3, h2, ← ExecStatus.raiseAll_append, ← List.take_add]

/-- Only the parts a collaborator can touch matter. -/
theorem Collaborators.congr {s s' t t' : State} (h : Collaborators s t) (h1 : s'.cpu.es = s.cpu.es)
    (h2 : s'.bus.script = s.bus.script) (h3 : s'.hook = s.hook) (h4 : t'.cpu.es = t.cpu.es)
    (h5 : t'.bus.script = t.bus.script) (h6 : t'.hook = t.hook)
    (h7 : traceAccesses s'.bus.trace = traceAccesses s.bus.trace)
    (h8 : traceAccesses t'.bus.trace = traceAccesses t.bus.trace) : Collaborators s' t' := by
  obtain ⟨k, e1, e2, e3, e4⟩ := h
  exact ⟨k, by rw [h7, h8, e1], by rw [h5, h2, e2], by rw [h4, h2, h1, e3], by rw [h6, h3, e4]⟩

/-- On plain RAM the collaborators do nothing (rule R44). -/
theorem Collaborators.plain {s t : State} (h : Collaborators s t) (hs : s.bus.script = []) :
    t.cpu.es = s.cpu.es ∧ t.bus.script = [] := by
  obtain ⟨k, -, h2, h3, -⟩ := h
  simp [h2, h3, hs]

theorem BusOnly.refl (s : State) : BusOnly s s := ⟨rfl, .refl s, rfl⟩

theorem BusOnly.trans {s t u : State} (h : BusOnly s t) (k : BusOnly t u) : BusOnly s u := by
  obtain ⟨h1, h2, h3⟩ := h
  obtain ⟨k1, k2, k3⟩ := k
  refine ⟨?_, h2.trans k2, k3.trans h3⟩
  rw [k1, h1]

theorem BusOnly.p {s t : State} (h : BusOnly s t) : t.cpu.p = s.cpu.p := by rw [h.1]
theorem BusOnly.a {s t : State} (h : BusOnly s t) : t.cpu.a = s.cpu.a := by rw [h.1]
theorem BusOnly.x {s t : State} (h : BusOnly s t) : t.cpu.x = s.cpu.x := by rw [h.1]
theorem BusOnly.y {s t : State} (h : BusOnly s t) : t.cpu.y = s.cpu.y := by rw [h.1]
theorem BusOnly.sp {s t : State} (h : BusOnly s t) : t.cpu.sp = s.cpu.sp := by rw [h.1]
theorem BusOnly.pc {s t : State} (h : BusOnly s t) : t.cpu.pc = s.cpu.pc := by rw [h.1]
theorem BusOnly.ir {s t : State} (h : BusOnly s t) : t.cpu.ir = s.cpu.ir := by rw [h.1]
theorem BusOnly.collaborators {s t : State} (h : BusOnly s t) : Collaborators s t := h.2.1
theorem BusOnly.draws {s t : State} (h : BusOnly s t) : t.draws = s.draws := h.2.2

theorem Collaborators.fatal {s t : State} (h : Collaborators s t) : t.cpu.es.fatal = s.cpu.es.fatal := by
  obtain ⟨k, -, -, h3, -⟩ := h
  rw [h3, ExecStatus.raiseAll_fatal]

/-! One bus access. -/

@[simp] theorem peek_a (w : Word) (s : State) : (peek w s).2.cpu.a = s.cpu.a := rfl
@[simp] theorem peek_x (w : Word) (s : State) : (peek w s).2.cpu.x = s.cpu.x := rfl
@[simp] theorem peek_y (w : Word) (s : State) : (peek w s).2.cpu.y = s.cpu.y := rfl
@[simp] theorem peek_sp (w : Word) (s : State) : (peek w s).2.cpu.sp = s.cpu.sp := rfl
@[simp] theorem peek_pc (w : Word) (s : State) : (peek w s).2.cpu.pc = s.cpu.pc := rfl
@[simp] theorem peek_ir (w : Word) (s : State) : (peek w s).2.cpu.ir = s.cpu.ir := rfl
@[simp] theorem peek_p (w : Word) (s : State) : (peek w s).2.cpu.p = s.cpu.p := rfl
@[simp] theorem peek_es (w : Word) (s : State) : (peek w s).2.cpu.es = s.cpu.es.raise s.bus.answer.raises := rfl
@[simp] theorem peek_mem (w : Word) (s : State) : (peek w s).2.bus.mem = s.bus.mem := rfl
@[simp] theorem peek_cycles (w : Word) (s : State) : (peek w s).2.bus.cycles = s.bus.cycles := rfl
@[simp] theorem peek_script (w : Word) (s : State) : (peek w s).2.bus.script = s.bus.script.tail := rfl
@[simp] theorem peek_trace (w : Word) (s : State) : (peek w s).2.bus.trace = .peek w :: s.bus.trace := rfl
@[simp] theorem peek_hook (w : Word) (s : State) : (peek w s).2.hook = s.hook := rfl
@[simp] theorem peek_draws (w : Word) (s : State) : (peek w s).2.draws = s.draws := rfl

/-- A peek answers what the Bus answers next (rule R44). -/
theorem peek_answered (w : Word) (s : State) : (peek w s).1 = s.bus.answered 0 w := rfl

/-- On plain RAM every answer is the byte stored (rule R44). -/
theorem Bus.answered_plain {b : Bus} (h : b.script = []) (k : Nat) (w : Word) : b.answered k w = b.mem.read w.toNat := by
  simp [Bus.answered, h, BusAnswer.plain]

/-- The answers to come, after some have been used up and while the byte at `w` is the same (rule R44). -/
theorem Bus.answered_drop {b c : Bus} {n : Nat} {w : Word} (h : c.script = b.script.drop n)
    (hm : c.mem.read w.toNat = b.mem.read w.toNat) (k : Nat) : c.answered k w = b.answered (n + k) w := by
  simp [Bus.answered, h, hm, List.drop_drop]

/-- On a plain Bus a peek answers the byte stored (rule R44). -/
theorem peek_plain {s : State} (h : s.bus.script = []) (w : Word) : (peek w s).1 = s.bus.mem.read w.toNat := by
  simp [peek, h, BusAnswer.plain]

theorem peek_busOnly (w : Word) (s : State) : BusOnly s (peek w s).2 :=
  ⟨rfl, ⟨1, rfl, List.drop_one.symm, s.cpu.es.raise_answer s.bus, rfl⟩, rfl⟩

@[simp] theorem poke_a (w : Word) (v : Byte) (s : State) : (poke w v s).cpu.a = s.cpu.a := rfl
@[simp] theorem poke_x (w : Word) (v : Byte) (s : State) : (poke w v s).cpu.x = s.cpu.x := rfl
@[simp] theorem poke_y (w : Word) (v : Byte) (s : State) : (poke w v s).cpu.y = s.cpu.y := rfl
@[simp] theorem poke_sp (w : Word) (v : Byte) (s : State) : (poke w v s).cpu.sp = s.cpu.sp := rfl
@[simp] theorem poke_pc (w : Word) (v : Byte) (s : State) : (poke w v s).cpu.pc = s.cpu.pc := rfl
@[simp] theorem poke_ir (w : Word) (v : Byte) (s : State) : (poke w v s).cpu.ir = s.cpu.ir := rfl
@[simp] theorem poke_p (w : Word) (v : Byte) (s : State) : (poke w v s).cpu.p = s.cpu.p := rfl
@[simp] theorem poke_es (w : Word) (v : Byte) (s : State) :
    (poke w v s).cpu.es = s.cpu.es.raise s.bus.answer.raises := rfl
@[simp] theorem poke_mem (w : Word) (v : Byte) (s : State) : (poke w v s).bus.mem = s.bus.mem.write w.toNat v := rfl
@[simp] theorem poke_cycles (w : Word) (v : Byte) (s : State) : (poke w v s).bus.cycles = s.bus.cycles := rfl
@[simp] theorem poke_script (w : Word) (v : Byte) (s : State) : (poke w v s).bus.script = s.bus.script.tail := rfl
@[simp] theorem poke_trace (w : Word) (v : Byte) (s : State) :
    (poke w v s).bus.trace = .poke w v :: s.bus.trace := rfl
@[simp] theorem poke_hook (w : Word) (v : Byte) (s : State) : (poke w v s).hook = s.hook := rfl
@[simp] theorem poke_draws (w : Word) (v : Byte) (s : State) : (poke w v s).draws = s.draws := rfl

theorem poke_busOnly (w : Word) (v : Byte) (s : State) : BusOnly s (poke w v s) :=
  ⟨rfl, ⟨1, rfl, List.drop_one.symm, s.cpu.es.raise_answer s.bus, rfl⟩, rfl⟩

@[simp] theorem addCycles_cpu (n : Nat) (s : State) : (addCycles n s).cpu = s.cpu := rfl
@[simp] theorem addCycles_mem (n : Nat) (s : State) : (addCycles n s).bus.mem = s.bus.mem := rfl
@[simp] theorem addCycles_cycles (n : Nat) (s : State) : (addCycles n s).bus.cycles = s.bus.cycles + n := rfl
@[simp] theorem addCycles_script (n : Nat) (s : State) : (addCycles n s).bus.script = s.bus.script := rfl
@[simp] theorem addCycles_trace (n : Nat) (s : State) : (addCycles n s).bus.trace = .cycles n :: s.bus.trace := rfl
@[simp] theorem addCycles_hook (n : Nat) (s : State) : (addCycles n s).hook = s.hook := rfl
@[simp] theorem addCycles_draws (n : Nat) (s : State) : (addCycles n s).draws = s.draws := rfl

theorem addCycles_busOnly (n : Nat) (s : State) : BusOnly s (addCycles n s) :=
  ⟨rfl, .congr (.refl s) rfl rfl rfl rfl rfl rfl rfl rfl, rfl⟩

/-! Two peeks in a row, a fetch. -/

@[simp] theorem peekWord_mem (lo hi : Word) (s : State) : (peekWord lo hi s).2.bus.mem = s.bus.mem := rfl
@[simp] theorem peekWord_cycles (lo hi : Word) (s : State) : (peekWord lo hi s).2.bus.cycles = s.bus.cycles := rfl
@[simp] theorem peekWord_trace (lo hi : Word) (s : State) :
    (peekWord lo hi s).2.bus.trace = .peek hi :: .peek lo :: s.bus.trace := rfl

@[simp] theorem peekWord_a (lo hi : Word) (s : State) : (peekWord lo hi s).2.cpu.a = s.cpu.a := rfl
@[simp] theorem peekWord_x (lo hi : Word) (s : State) : (peekWord lo hi s).2.cpu.x = s.cpu.x := rfl
@[simp] theorem peekWord_y (lo hi : Word) (s : State) : (peekWord lo hi s).2.cpu.y = s.cpu.y := rfl
@[simp] theorem peekWord_ir (lo hi : Word) (s : State) : (peekWord lo hi s).2.cpu.ir = s.cpu.ir := rfl
@[simp] theorem peekWord_p (lo hi : Word) (s : State) : (peekWord lo hi s).2.cpu.p = s.cpu.p := rfl
@[simp] theorem peekWord_sp (lo hi : Word) (s : State) : (peekWord lo hi s).2.cpu.sp = s.cpu.sp := rfl
@[simp] theorem peekWord_pc (lo hi : Word) (s : State) : (peekWord lo hi s).2.cpu.pc = s.cpu.pc := rfl
@[simp] theorem peekWord_hook (lo hi : Word) (s : State) : (peekWord lo hi s).2.hook = s.hook := rfl
@[simp] theorem peekWord_draws (lo hi : Word) (s : State) : (peekWord lo hi s).2.draws = s.draws := rfl

theorem peekWord_busOnly (lo hi : Word) (s : State) : BusOnly s (peekWord lo hi s).2 :=
  (peek_busOnly lo s).trans (peek_busOnly hi _)

/-- The word is made of the next two answers, the low byte first (rule R46). -/
theorem peekWord_answered (lo hi : Word) (s : State) :
    (peekWord lo hi s).1 = makeWord (s.bus.answered 1 hi) (s.bus.answered 0 lo) :=
  congrArg (makeWord · _)
    (Bus.answered_drop (b := s.bus) (c := (peek lo s).2.bus) (n := 1) List.drop_one.symm rfl 0)

/-- On a plain Bus the word is made of the two bytes stored (rule R46). -/
theorem peekWord_plain {s : State} (h : s.bus.script = []) (lo hi : Word) :
    (peekWord lo hi s).1 = makeWord (s.bus.mem.read hi.toNat) (s.bus.mem.read lo.toNat) := by
  simp [peekWord, peek_plain, h]

@[simp] theorem fetch_mem (s : State) : (fetch s).2.bus.mem = s.bus.mem := rfl
@[simp] theorem fetch_cycles (s : State) : (fetch s).2.bus.cycles = s.bus.cycles := rfl
@[simp] theorem fetch_trace (s : State) : (fetch s).2.bus.trace = .peek s.cpu.pc :: s.bus.trace := rfl
@[simp] theorem fetch_pc (s : State) : (fetch s).2.cpu.pc = s.cpu.pc + 1 := rfl

@[simp] theorem fetch_a (s : State) : (fetch s).2.cpu.a = s.cpu.a := rfl
@[simp] theorem fetch_x (s : State) : (fetch s).2.cpu.x = s.cpu.x := rfl
@[simp] theorem fetch_y (s : State) : (fetch s).2.cpu.y = s.cpu.y := rfl
@[simp] theorem fetch_ir (s : State) : (fetch s).2.cpu.ir = s.cpu.ir := rfl
@[simp] theorem fetch_p (s : State) : (fetch s).2.cpu.p = s.cpu.p := rfl
@[simp] theorem fetch_sp (s : State) : (fetch s).2.cpu.sp = s.cpu.sp := rfl
@[simp] theorem fetch_hook (s : State) : (fetch s).2.hook = s.hook := rfl
@[simp] theorem fetch_draws (s : State) : (fetch s).2.draws = s.draws := rfl

/-- A fetch advances `PC` and otherwise only uses the Bus (rule R84). -/
theorem fetch_frame (s : State) : BusOnly (s.setPC (s.cpu.pc + 1)) (fetch s).2 :=
  ⟨rfl, (peek_busOnly s.cpu.pc s).collaborators.congr rfl rfl rfl rfl rfl rfl rfl rfl, rfl⟩

theorem fetch_plain {s : State} (h : s.bus.script = []) : (fetch s).1 = s.bus.mem.read s.cpu.pc.toNat :=
  peek_plain h s.cpu.pc

/-! The stack. -/

@[simp] theorem push_mem (v : Byte) (s : State) :
    (push v s).bus.mem = s.bus.mem.write (stackAddr s.cpu.sp).toNat v := rfl
@[simp] theorem push_cycles (v : Byte) (s : State) : (push v s).bus.cycles = s.bus.cycles := rfl
@[simp] theorem push_trace (v : Byte) (s : State) :
    (push v s).bus.trace = .poke (stackAddr s.cpu.sp) v :: s.bus.trace := rfl
@[simp] theorem push_sp (v : Byte) (s : State) : (push v s).cpu.sp = s.cpu.sp - 1 := rfl

@[simp] theorem push_a (v : Byte) (s : State) : (push v s).cpu.a = s.cpu.a := rfl
@[simp] theorem push_x (v : Byte) (s : State) : (push v s).cpu.x = s.cpu.x := rfl
@[simp] theorem push_y (v : Byte) (s : State) : (push v s).cpu.y = s.cpu.y := rfl
@[simp] theorem push_ir (v : Byte) (s : State) : (push v s).cpu.ir = s.cpu.ir := rfl
@[simp] theorem push_p (v : Byte) (s : State) : (push v s).cpu.p = s.cpu.p := rfl
@[simp] theorem push_pc (v : Byte) (s : State) : (push v s).cpu.pc = s.cpu.pc := rfl
@[simp] theorem push_hook (v : Byte) (s : State) : (push v s).hook = s.hook := rfl
@[simp] theorem push_draws (v : Byte) (s : State) : (push v s).draws = s.draws := rfl

/-- A push decrements `SP` and otherwise only uses the Bus (rule R49). -/
theorem push_frame (v : Byte) (s : State) : BusOnly (s.setSP (s.cpu.sp - 1)) (push v s) :=
  ⟨rfl, (poke_busOnly _ v s).collaborators.congr rfl rfl rfl rfl rfl rfl rfl rfl, rfl⟩

@[simp] theorem pull_mem (s : State) : (pull s).2.bus.mem = s.bus.mem := rfl
@[simp] theorem pull_cycles (s : State) : (pull s).2.bus.cycles = s.bus.cycles := rfl
@[simp] theorem pull_trace (s : State) : (pull s).2.bus.trace = .peek (stackAddr (s.cpu.sp + 1)) :: s.bus.trace := rfl
@[simp] theorem pull_sp (s : State) : (pull s).2.cpu.sp = s.cpu.sp + 1 := rfl

@[simp] theorem pull_a (s : State) : (pull s).2.cpu.a = s.cpu.a := rfl
@[simp] theorem pull_x (s : State) : (pull s).2.cpu.x = s.cpu.x := rfl
@[simp] theorem pull_y (s : State) : (pull s).2.cpu.y = s.cpu.y := rfl
@[simp] theorem pull_ir (s : State) : (pull s).2.cpu.ir = s.cpu.ir := rfl
@[simp] theorem pull_p (s : State) : (pull s).2.cpu.p = s.cpu.p := rfl
@[simp] theorem pull_pc (s : State) : (pull s).2.cpu.pc = s.cpu.pc := rfl
@[simp] theorem pull_hook (s : State) : (pull s).2.hook = s.hook := rfl
@[simp] theorem pull_draws (s : State) : (pull s).2.draws = s.draws := rfl

/-- A pull increments `SP` and otherwise only uses the Bus (rule R49). -/
theorem pull_frame (s : State) : BusOnly (s.setSP (s.cpu.sp + 1)) (pull s).2 := peek_busOnly _ _

theorem pull_answered (s : State) : (pull s).1 = s.bus.answered 0 (stackAddr (s.cpu.sp + 1)) := rfl

theorem pull_plain {s : State} (h : s.bus.script = []) :
    (pull s).1 = s.bus.mem.read (stackAddr (s.cpu.sp + 1)).toNat := peek_plain (s := s.setSP (s.cpu.sp + 1)) h _

@[simp] theorem pushWord_a (w : Word) (s : State) : (pushWord w s).cpu.a = s.cpu.a := rfl
@[simp] theorem pushWord_x (w : Word) (s : State) : (pushWord w s).cpu.x = s.cpu.x := rfl
@[simp] theorem pushWord_y (w : Word) (s : State) : (pushWord w s).cpu.y = s.cpu.y := rfl
@[simp] theorem pushWord_ir (w : Word) (s : State) : (pushWord w s).cpu.ir = s.cpu.ir := rfl
@[simp] theorem pushWord_p (w : Word) (s : State) : (pushWord w s).cpu.p = s.cpu.p := rfl
@[simp] theorem pushWord_sp (w : Word) (s : State) : (pushWord w s).cpu.sp = s.cpu.sp - 1 - 1 := rfl
@[simp] theorem pushWord_pc (w : Word) (s : State) : (pushWord w s).cpu.pc = s.cpu.pc := rfl
@[simp] theorem pushWord_hook (w : Word) (s : State) : (pushWord w s).hook = s.hook := rfl
@[simp] theorem pushWord_draws (w : Word) (s : State) : (pushWord w s).draws = s.draws := rfl
@[simp] theorem pushWord_cycles (w : Word) (s : State) : (pushWord w s).bus.cycles = s.bus.cycles := rfl

@[simp] theorem pullWord_a (s : State) : (pullWord s).2.cpu.a = s.cpu.a := rfl
@[simp] theorem pullWord_x (s : State) : (pullWord s).2.cpu.x = s.cpu.x := rfl
@[simp] theorem pullWord_y (s : State) : (pullWord s).2.cpu.y = s.cpu.y := rfl
@[simp] theorem pullWord_ir (s : State) : (pullWord s).2.cpu.ir = s.cpu.ir := rfl
@[simp] theorem pullWord_p (s : State) : (pullWord s).2.cpu.p = s.cpu.p := rfl
@[simp] theorem pullWord_sp (s : State) : (pullWord s).2.cpu.sp = s.cpu.sp + 1 + 1 := rfl
@[simp] theorem pullWord_pc (s : State) : (pullWord s).2.cpu.pc = s.cpu.pc := rfl
@[simp] theorem pullWord_hook (s : State) : (pullWord s).2.hook = s.hook := rfl
@[simp] theorem pullWord_draws (s : State) : (pullWord s).2.draws = s.draws := rfl
@[simp] theorem pullWord_mem (s : State) : (pullWord s).2.bus.mem = s.bus.mem := rfl
@[simp] theorem pullWord_cycles (s : State) : (pullWord s).2.bus.cycles = s.bus.cycles := rfl

/-! The invariant: every operation keeps it. -/

/-- The invariant looks at the Bus alone. -/
theorem State.Inv.congr {s t : State} (h : s.Inv) (e : t.bus = s.bus) : t.Inv := by rw [State.Inv, e]; exact h

theorem peek_inv {s : State} (h : s.Inv) (w : Word) : (peek w s).2.Inv := ⟨h.1, h.2⟩

theorem poke_inv {s : State} (h : s.Inv) (w : Word) (v : Byte) : (poke w v s).Inv := ⟨Memory.wf_write h.1 w v, h.2⟩

theorem addCycles_inv {s : State} (h : s.Inv) (n : Nat) : (addCycles n s).Inv :=
  ⟨h.1, by rw [addCycles_cycles, addCycles_trace, traceCycles, h.2, Nat.add_comm]⟩

theorem peekWord_inv {s : State} (h : s.Inv) (lo hi : Word) : (peekWord lo hi s).2.Inv := peek_inv (peek_inv h lo) hi

theorem fetch_inv {s : State} (h : s.Inv) : (fetch s).2.Inv := peek_inv h s.cpu.pc

theorem push_inv {s : State} (h : s.Inv) (v : Byte) : (push v s).Inv := poke_inv h _ v

theorem pushWord_inv {s : State} (h : s.Inv) (w : Word) : (pushWord w s).Inv := push_inv (push_inv h _) _

theorem pull_inv {s : State} (h : s.Inv) : (pull s).2.Inv := peek_inv h _

theorem pullWord_inv {s : State} (h : s.Inv) : (pullWord s).2.Inv := pull_inv (pull_inv h)

/-- The state of `takeException` before its vector peeks. -/
theorem takeException_eq (cd : Bool) (st : Byte) (vec : Word) (s : State) :
    takeException cd st vec s =
      (memRead16 vec ((push st (pushWord s.cpu.pc s)).setP
        { s.cpu.p with d := if cd then false else s.cpu.p.d, i := true })).2.setPC
        (memRead16 vec ((push st (pushWord s.cpu.pc s)).setP
          { s.cpu.p with d := if cd then false else s.cpu.p.d, i := true })).1 := by
  simp only [takeException, push_p, pushWord_p]

theorem takeException_inv {s : State} (h : s.Inv) (cd : Bool) (st : Byte) (vec : Word) :
    (takeException cd st vec s).Inv := by
  rw [takeException_eq]
  have h1 : ((push st (pushWord s.cpu.pc s)).setP
      { s.cpu.p with d := if cd then false else s.cpu.p.d, i := true }).Inv :=
    (push_inv (pushWord_inv h s.cpu.pc) st).congr (State.setP_bus _ _)
  exact (peekWord_inv h1 vec (vec + 1)).congr (State.setPC_bus _ _)

theorem interruptEntry_inv {s : State} (h : s.Inv) (vec : Word) : (interruptEntry vec s).Inv :=
  takeException_inv (addCycles_inv h 7) true _ vec

theorem returnFromException_inv {s : State} (h : s.Inv) : (returnFromException s).Inv := by
  have h1 : ((pull s).2.setP (Flags.unpack (pull s).1)).Inv := (pull_inv h).congr (State.setP_bus _ _)
  exact (pullWord_inv h1).congr (State.setPC_bus _ _)

/-! Entering a handler and returning. -/

@[simp] theorem pushWord_mem (w : Word) (s : State) : (pushWord w s).bus.mem =
    (s.bus.mem.write (stackAddr s.cpu.sp).toNat (hiByte w)).write (stackAddr (s.cpu.sp - 1)).toNat (loByte w) := rfl

theorem pushWord_frame (w : Word) (s : State) : BusOnly (s.setSP (s.cpu.sp - 1 - 1)) (pushWord w s) :=
  ⟨rfl, ((push_frame (hiByte w) s).collaborators.trans
    ((push_frame (loByte w) (push (hiByte w) s)).collaborators.congr rfl rfl rfl rfl rfl rfl rfl rfl)).congr
      rfl rfl rfl rfl rfl rfl rfl rfl, rfl⟩

theorem pullWord_frame (s : State) : BusOnly (s.setSP (s.cpu.sp + 1 + 1)) (pullWord s).2 :=
  ⟨rfl, ((pull_frame s).collaborators.trans
    ((pull_frame (pull s).2).collaborators.congr rfl rfl rfl rfl rfl rfl rfl rfl)).congr rfl rfl rfl rfl rfl rfl rfl rfl, rfl⟩

/-! What collaborators may do meanwhile. -/

theorem Collaborators.setA {s t : State} (h : Collaborators s t) (v : Byte) : Collaborators s (t.setA v) :=
  h.congr rfl rfl rfl rfl rfl rfl rfl rfl

theorem Collaborators.setX {s t : State} (h : Collaborators s t) (v : Byte) : Collaborators s (t.setX v) :=
  h.congr rfl rfl rfl rfl rfl rfl rfl rfl

theorem Collaborators.setY {s t : State} (h : Collaborators s t) (v : Byte) : Collaborators s (t.setY v) :=
  h.congr rfl rfl rfl rfl rfl rfl rfl rfl

theorem Collaborators.setSP {s t : State} (h : Collaborators s t) (v : Byte) : Collaborators s (t.setSP v) :=
  h.congr rfl rfl rfl rfl rfl rfl rfl rfl

theorem Collaborators.setPC {s t : State} (h : Collaborators s t) (v : Word) : Collaborators s (t.setPC v) :=
  h.congr rfl rfl rfl rfl rfl rfl rfl rfl

theorem Collaborators.setIR {s t : State} (h : Collaborators s t) (v : Byte) : Collaborators s (t.setIR v) :=
  h.congr rfl rfl rfl rfl rfl rfl rfl rfl

theorem Collaborators.setP {s t : State} (h : Collaborators s t) (v : Flags) : Collaborators s (t.setP v) :=
  h.congr rfl rfl rfl rfl rfl rfl rfl rfl

theorem Collaborators.setNZ {s t : State} (h : Collaborators s t) (v : Byte) : Collaborators s (t.setNZ v) :=
  h.congr rfl rfl rfl rfl rfl rfl rfl rfl

theorem Collaborators.push {s t : State} (h : Collaborators s t) (v : Byte) : Collaborators s (push v t) :=
  h.trans ((push_frame v t).collaborators.congr rfl rfl rfl rfl rfl rfl rfl rfl)

theorem Collaborators.pushWord {s t : State} (h : Collaborators s t) (w : Word) : Collaborators s (pushWord w t) :=
  h.trans ((pushWord_frame w t).collaborators.congr rfl rfl rfl rfl rfl rfl rfl rfl)

theorem Collaborators.pull {s t : State} (h : Collaborators s t) : Collaborators s (pull t).2 :=
  h.trans ((pull_frame t).collaborators.congr rfl rfl rfl rfl rfl rfl rfl rfl)

theorem Collaborators.pullWord {s t : State} (h : Collaborators s t) : Collaborators s (pullWord t).2 :=
  h.trans ((pullWord_frame t).collaborators.congr rfl rfl rfl rfl rfl rfl rfl rfl)

theorem Collaborators.fetch {s t : State} (h : Collaborators s t) : Collaborators s (fetch t).2 :=
  h.trans ((fetch_frame t).collaborators.congr rfl rfl rfl rfl rfl rfl rfl rfl)

theorem Collaborators.busOnly {s t u : State} (h : Collaborators s t) (k : BusOnly t u) : Collaborators s u :=
  h.trans k.collaborators

theorem takeException_collaborators (cd : Bool) (st : Byte) (vec : Word) (s : State) :
    Collaborators s (takeException cd st vec s) := by
  rw [takeException_eq]
  exact ((((((Collaborators.refl s).pushWord s.cpu.pc).push st).setP _).busOnly (peekWord_busOnly _ _ _)).setPC _)

/-- Entering a handler writes `SP`, `D`, `I`, `PC` and three stack bytes (rules R196, R208). -/
theorem takeException_cpu (cd : Bool) (st : Byte) (vec : Word) (s : State) :
    (takeException cd st vec s).cpu = { s.cpu with
      sp := s.cpu.sp - 3,
      pc := (takeException cd st vec s).cpu.pc,
      p := { s.cpu.p with d := if cd then false else s.cpu.p.d, i := true },
      es := (takeException cd st vec s).cpu.es } := by
  have h3 : s.cpu.sp - 1 - 1 - 1 = s.cpu.sp - 3 := by bv_omega
  rw [takeException_eq, ← h3]
  apply ProcessorState.ext <;> simp [memRead16]

theorem takeException_mem (cd : Bool) (st : Byte) (vec : Word) (s : State) :
    (takeException cd st vec s).bus.mem =
      (((s.bus.mem.write (stackAddr s.cpu.sp).toNat (hiByte s.cpu.pc)).write (stackAddr (s.cpu.sp - 1)).toNat
        (loByte s.cpu.pc)).write (stackAddr (s.cpu.sp - 1 - 1)).toNat st) := by
  simp [takeException_eq, memRead16]

@[simp] theorem takeException_draws (cd : Bool) (st : Byte) (vec : Word) (s : State) :
    (takeException cd st vec s).draws = s.draws := by simp [takeException_eq, memRead16]

@[simp] theorem takeException_hook (cd : Bool) (st : Byte) (vec : Word) (s : State) :
    (takeException cd st vec s).hook = s.hook := by simp [takeException_eq, memRead16]

@[simp] theorem takeException_cycles (cd : Bool) (st : Byte) (vec : Word) (s : State) :
    (takeException cd st vec s).bus.cycles = s.bus.cycles := by simp [takeException_eq, memRead16]

/-- The events of an entry: three pushes, two vector peeks (rules R196, R208). -/
theorem takeException_trace (cd : Bool) (st : Byte) (vec : Word) (s : State) :
    (takeException cd st vec s).bus.trace =
      .peek (vec + 1) :: .peek vec :: .poke (stackAddr (s.cpu.sp - 1 - 1)) st ::
        .poke (stackAddr (s.cpu.sp - 1)) (loByte s.cpu.pc) :: .poke (stackAddr s.cpu.sp) (hiByte s.cpu.pc) ::
          s.bus.trace := by
  rw [takeException_eq]
  rfl

theorem returnFromException_collaborators (s : State) : Collaborators s (returnFromException s) :=
  ((((Collaborators.refl s).pull).setP _).pullWord).setPC _

theorem returnFromException_cpu (s : State) :
    (returnFromException s).cpu = { s.cpu with
      sp := s.cpu.sp + 3,
      pc := (returnFromException s).cpu.pc,
      p := Flags.unpack (pull s).1,
      es := (returnFromException s).cpu.es } := by
  have h3 : s.cpu.sp + 1 + 1 + 1 = s.cpu.sp + 3 := by bv_omega
  rw [← h3]
  apply ProcessorState.ext <;> simp [returnFromException]

@[simp] theorem returnFromException_mem (s : State) : (returnFromException s).bus.mem = s.bus.mem := by
  simp [returnFromException]

@[simp] theorem returnFromException_draws (s : State) : (returnFromException s).draws = s.draws := by
  simp [returnFromException]

@[simp] theorem returnFromException_cycles (s : State) : (returnFromException s).bus.cycles = s.bus.cycles := by
  simp [returnFromException]

/-- The events of a return: three pulls (rule R197). -/
theorem returnFromException_trace (s : State) :
    (returnFromException s).bus.trace =
      .peek (stackAddr (s.cpu.sp + 1 + 1 + 1)) :: .peek (stackAddr (s.cpu.sp + 1 + 1)) ::
        .peek (stackAddr (s.cpu.sp + 1)) :: s.bus.trace := by
  simp [returnFromException, pullWord]

end Sys2Proof.Machine
end

