-- ==== Sys2Proof/Laws/Operands.lean ====
section
/-! SUPPORT. What forming an address, reading, writing and modifying an operand can do. -/

namespace Sys2Proof.Machine

/-! The effective address. -/

theorem effectiveAddress_busOnly (m : EaMode) (s : State) : BusOnly s (effectiveAddress m s).2 := by
  cases m with
  | zp d => exact .refl s
  | zpx d => exact .refl s
  | zpy d => exact .refl s
  | abs a => exact .refl s
  | absx a => exact .refl s
  | absy a => exact .refl s
  | indx d => exact peekWord_busOnly _ _ s
  | indy d => exact peekWord_busOnly _ _ s

@[simp] theorem effectiveAddress_mem (m : EaMode) (s : State) : (effectiveAddress m s).2.bus.mem = s.bus.mem := by
  cases m <;> rfl

@[simp] theorem effectiveAddress_cycles (m : EaMode) (s : State) :
    (effectiveAddress m s).2.bus.cycles = s.bus.cycles := by
  cases m <;> rfl

theorem effectiveAddress_inv {s : State} (h : s.Inv) (m : EaMode) : (effectiveAddress m s).2.Inv := by
  cases m with
  | zp d => exact h
  | zpx d => exact h
  | zpy d => exact h
  | abs a => exact h
  | absx a => exact h
  | absy a => exact h
  | indx d => exact peekWord_inv h _ _
  | indy d => exact peekWord_inv h _ _

/-! The page-crossing penalty. -/

theorem pagePenalty_busOnly (e : Ea) (s : State) : BusOnly s (pagePenalty e s) := by
  unfold pagePenalty
  split
  · exact addCycles_busOnly 1 s
  · exact .refl s

@[simp] theorem pagePenalty_mem (e : Ea) (s : State) : (pagePenalty e s).bus.mem = s.bus.mem := by
  unfold pagePenalty; split <;> rfl

@[simp] theorem pagePenalty_trace (e : Ea) (s : State) :
    (pagePenalty e s).bus.trace = (if e.crossed then [.cycles 1] else []) ++ s.bus.trace := by
  unfold pagePenalty; split <;> rfl

theorem pagePenalty_inv {s : State} (h : s.Inv) (e : Ea) : (pagePenalty e s).Inv := by
  unfold pagePenalty
  split
  · exact addCycles_inv h 1
  · exact h

/-! The three patterns. -/

theorem readOperand_busOnly (m : ReadMode) (s : State) : BusOnly s (readOperand m s).2 := by
  cases m with
  | imm d => exact .refl s
  | mem m => exact ((effectiveAddress_busOnly m s).trans (pagePenalty_busOnly _ _)).trans (peek_busOnly _ _)

@[simp] theorem readOperand_mem (m : ReadMode) (s : State) : (readOperand m s).2.bus.mem = s.bus.mem := by
  cases m <;> simp [readOperand]

theorem readOperand_inv {s : State} (h : s.Inv) (m : ReadMode) : (readOperand m s).2.Inv := by
  cases m with
  | imm d => exact h
  | mem m => exact peek_inv (pagePenalty_inv (effectiveAddress_inv h m) _) _

theorem writeOperand_busOnly (m : EaMode) (v : Byte) (s : State) : BusOnly s (writeOperand m v s) :=
  (effectiveAddress_busOnly m s).trans (poke_busOnly _ _ _)

@[simp] theorem writeOperand_mem (m : EaMode) (v : Byte) (s : State) :
    (writeOperand m v s).bus.mem = s.bus.mem.write (effectiveAddress m s).1.addr.toNat v := by
  simp [writeOperand]

theorem writeOperand_inv {s : State} (h : s.Inv) (m : EaMode) (v : Byte) : (writeOperand m v s).Inv :=
  poke_inv (effectiveAddress_inv h m) _ v

theorem modifyOperand_mem_busOnly (m : EaMode) (f : Byte → Byte) (s : State) :
    BusOnly s (modifyOperand (.mem m) f s).2 :=
  ((effectiveAddress_busOnly m s).trans (peek_busOnly _ _)).trans (poke_busOnly _ _ _)

@[simp] theorem modifyOperand_mem_mem (m : EaMode) (f : Byte → Byte) (s : State) :
    (modifyOperand (.mem m) f s).2.bus.mem =
      s.bus.mem.write (effectiveAddress m s).1.addr.toNat (f (modifyOperand (.mem m) f s).1) := by
  simp [modifyOperand]

theorem modifyOperand_inv {s : State} (h : s.Inv) (m : ModifyMode) (f : Byte → Byte) :
    (modifyOperand m f s).2.Inv := by
  cases m with
  | acc => exact h.congr (State.setA_bus s _)
  | mem m => exact poke_inv (peek_inv (effectiveAddress_inv h m) _) _ _

/-! JMP indirect, the branches. -/

theorem indirectTarget_busOnly (ptr : Word) (s : State) : BusOnly s (indirectTarget ptr s).2 := peekWord_busOnly _ _ s

@[simp] theorem indirectTarget_mem (ptr : Word) (s : State) : (indirectTarget ptr s).2.bus.mem = s.bus.mem := rfl

theorem indirectTarget_inv {s : State} (h : s.Inv) (ptr : Word) : (indirectTarget ptr s).2.Inv := peekWord_inv h _ _

end Sys2Proof.Machine
end

