-- ==== Sys2Proof/Laws/Exec.lean ====
section
/-! SUPPORT. What the shared operations behind the meanings can do: the registers they write and their frame. -/

namespace Sys2Proof.Machine

/-! The frame. -/

theorem Frame.refl (addrs : List Word) (s : State) : Frame addrs 0 s s :=
  ⟨fun _ _ => rfl, .refl s, rfl, rfl⟩

/-- Only the Bus, `ES`, the hook and the draws matter to a frame. -/
theorem Frame.congr {addrs : List Word} {n : Nat} {s t t' : State} (h : Frame addrs n s t) (hb : t'.bus = t.bus)
    (he : t'.cpu.es = t.cpu.es) (hh : t'.hook = t.hook) (hd : t'.draws = t.draws) : Frame addrs n s t' :=
  ⟨fun a ha => by rw [hb]; exact h.1 a ha, h.2.1.congr rfl rfl rfl he (by rw [hb]) hh rfl (by rw [hb]), hd.trans h.2.2.1,
    by rw [hb]; exact h.2.2.2⟩

/-- The frame of what only used the Bus and stored nothing. -/
theorem BusOnly.frame {n : Nat} {s t : State} (h : BusOnly s t) (hm : t.bus.mem = s.bus.mem)
    (hc : t.bus.cycles = s.bus.cycles + n) : Frame [] n s t :=
  ⟨fun _ _ => by rw [hm], h.collaborators, h.draws, hc⟩

/-- The frame of what stored one byte. -/
theorem BusOnly.frame_write {a : Word} {v : Byte} {s t : State} (h : BusOnly s t)
    (hm : t.bus.mem = s.bus.mem.write a.toNat v) (hc : t.bus.cycles = s.bus.cycles) : Frame [a] 0 s t :=
  ⟨fun b hb => by
      rw [hm, Memory.read_write_other]
      exact fun e => hb (by simp [BitVec.eq_of_toNat_eq e]),
    h.collaborators, h.draws, hc⟩

/-! The operands. -/

@[simp] theorem pagePenalty_cycles (e : Ea) (s : State) :
    (pagePenalty e s).bus.cycles = s.bus.cycles + (if e.crossed then 1 else 0) := by
  unfold pagePenalty; split <;> rfl

/-- A read charges its page-crossing penalty and nothing else (rules R100, R248). -/
theorem readOperand_cycles (m : ReadMode) (s : State) :
    (readOperand m s).2.bus.cycles = s.bus.cycles + penaltyOf m s := by
  cases m with
  | imm d => rfl
  | mem m => simp [readOperand, penaltyOf]

theorem readOperand_frame (m : ReadMode) (s : State) : Frame [] (penaltyOf m s) s (readOperand m s).2 :=
  (readOperand_busOnly m s).frame (readOperand_mem m s) (readOperand_cycles m s)

theorem writeOperand_frame (m : EaMode) (v : Byte) (s : State) : Frame [addressOf m s] 0 s (writeOperand m v s) :=
  (writeOperand_busOnly m v s).frame_write (writeOperand_mem m v s) (by simp [writeOperand])

theorem modifyOperand_frame (m : EaMode) (f : Byte → Byte) (s : State) :
    Frame [addressOf m s] 0 s (modifyOperand (.mem m) f s).2 :=
  (modifyOperand_mem_busOnly m f s).frame_write (modifyOperand_mem_mem m f s) (by simp [modifyOperand])

/-- The byte stored by a read-modify-write (rule R100). -/
theorem modifyOperand_stored (m : EaMode) (f : Byte → Byte) {s : State} (h : s.bus.mem.wf = true) :
    (modifyOperand (.mem m) f s).2.bus.mem.read (addressOf m s).toNat = f (byteRead m s) := by
  rw [modifyOperand_mem_mem]
  exact Memory.read_write_same h _ _

theorem modifyOperand_value (m : EaMode) (f : Byte → Byte) (s : State) :
    (modifyOperand (.mem m) f s).1 = byteRead m s := rfl

/-! The shared operations. -/

/-- What a register takes: only `set` and the two flags change (rules R110 to R112, R116 to R121). -/
theorem transfer_frame (v : Byte) (s : State) :
    (transfer v State.setA s = { s with cpu := { s.cpu with a := v, p := nzOf s.cpu.p v } }) ∧
    (transfer v State.setX s = { s with cpu := { s.cpu with x := v, p := nzOf s.cpu.p v } }) ∧
    (transfer v State.setY s = { s with cpu := { s.cpu with y := v, p := nzOf s.cpu.p v } }) := ⟨rfl, rfl, rfl⟩

/-- A load is a transfer of what the operand reads (rules R110 to R112). -/
theorem load_eq (m : ReadMode) (set : State → Byte → State) (s : State) :
    load m set s = transfer (readOperand m s).1 set (readOperand m s).2 := rfl

/-- ADC and SBC write `A`, four flags and the draws, after reading their operand (rules R131, R133, R135). -/
theorem addSub_cpu (bin : Byte → Byte → Bool → AluResult) (dec : Nat → Byte → Byte → Bool → AluResult) (m : Byte)
    (s : State) :
    let t := if s.cpu.p.d then dec s.draws s.cpu.a m s.cpu.p.c else bin s.cpu.a m s.cpu.p.c
    (addSub bin dec m s).cpu =
      { s.cpu with a := t.r, p := { nzOf s.cpu.p t.r with c := t.cout, v := t.v } } := by
  simp only [addSub]
  split <;> rfl

@[simp] theorem addSub_bus (bin : Byte → Byte → Bool → AluResult) (dec : Nat → Byte → Byte → Bool → AluResult)
    (m : Byte) (s : State) : (addSub bin dec m s).bus = s.bus := by
  simp only [addSub]; split <;> rfl

@[simp] theorem addSub_hook (bin : Byte → Byte → Bool → AluResult) (dec : Nat → Byte → Byte → Bool → AluResult)
    (m : Byte) (s : State) : (addSub bin dec m s).hook = s.hook := by
  simp only [addSub]; split <;> rfl

/-- A draw is used in decimal mode alone (rule R135). -/
theorem addSub_draws (bin : Byte → Byte → Bool → AluResult) (dec : Nat → Byte → Byte → Bool → AluResult) (m : Byte)
    (s : State) : (addSub bin dec m s).draws = s.draws + (if s.cpu.p.d then 1 else 0) := by
  simp only [addSub]; split <;> rfl

/-- A compare writes three flags (rules R136 to R138). -/
theorem compare_cpu (r : Byte) (m : ReadMode) (s : State) :
    (compare r m s).cpu = { s.cpu with
      p := { nzOf s.cpu.p (r - (readOperand m s).1) with c := decide ((readOperand m s).1.toNat ≤ r.toNat) },
      es := (compare r m s).cpu.es } :=
  congrArg (fun c : ProcessorState => { c with p := c.p.setCompare r (readOperand m s).1 })
    (readOperand_busOnly m s).1

theorem compare_frame (r : Byte) (m : ReadMode) (s : State) : Frame [] (penaltyOf m s) s (compare r m s) :=
  (readOperand_frame m s).congr rfl rfl rfl rfl

/-- AND, ORA, EOR write `A` and two flags (rules R150 to R152). -/
theorem logic_cpu (op : Byte → Byte → Byte) (m : ReadMode) (s : State) :
    (logic op m s).cpu = { s.cpu with
      a := op s.cpu.a (readOperand m s).1,
      p := nzOf s.cpu.p (op s.cpu.a (readOperand m s).1),
      es := (logic op m s).cpu.es } :=
  congrArg (fun c : ProcessorState =>
    { c with a := op c.a (readOperand m s).1, p := c.p.setNZ (op c.a (readOperand m s).1) }) (readOperand_busOnly m s).1

theorem logic_frame (op : Byte → Byte → Byte) (m : ReadMode) (s : State) :
    Frame [] (penaltyOf m s) s (logic op m s) :=
  (readOperand_frame m s).congr rfl rfl rfl rfl

/-- INC and DEC write two flags and the byte at the effective address (rules R139, R140). -/
theorem modifyNZ_cpu (m : EaMode) (f : Byte → Byte) (s : State) :
    (modifyNZ m f s).cpu = { s.cpu with p := nzOf s.cpu.p (f (byteRead m s)), es := (modifyNZ m f s).cpu.es } :=
  congrArg (fun c : ProcessorState => { c with p := c.p.setNZ (f (byteRead m s)) })
    (modifyOperand_mem_busOnly m f s).1

theorem modifyNZ_frame (m : EaMode) (f : Byte → Byte) (s : State) : Frame [addressOf m s] 0 s (modifyNZ m f s) :=
  (modifyOperand_frame m f s).congr rfl rfl rfl rfl

theorem modifyNZ_stored (m : EaMode) (f : Byte → Byte) {s : State} (h : s.bus.mem.wf = true) :
    (modifyNZ m f s).bus.mem.read (addressOf m s).toNat = f (byteRead m s) := modifyOperand_stored m f h

/-- A shift of memory writes three flags and the byte at the effective address (rules R154 to R157). -/
theorem shift_mem_cpu (m : EaMode) (f : Byte → Byte) (out : Nat) (s : State) :
    (shift (.mem m) f out s).cpu = { s.cpu with
      p := { nzOf s.cpu.p (f (byteRead m s)) with c := (byteRead m s).getLsbD out },
      es := (shift (.mem m) f out s).cpu.es } :=
  congrArg (fun c : ProcessorState =>
    { c with p := c.p.setShift ((byteRead m s).getLsbD out) (f (byteRead m s)) }) (modifyOperand_mem_busOnly m f s).1

theorem shift_mem_frame (m : EaMode) (f : Byte → Byte) (out : Nat) (s : State) :
    Frame [addressOf m s] 0 s (shift (.mem m) f out s) := (modifyOperand_frame m f s).congr rfl rfl rfl rfl

theorem shift_mem_stored (m : EaMode) (f : Byte → Byte) (out : Nat) {s : State} (h : s.bus.mem.wf = true) :
    (shift (.mem m) f out s).bus.mem.read (addressOf m s).toNat = f (byteRead m s) := modifyOperand_stored m f h

/-- A shift of the accumulator writes `A` and three flags (rules R154 to R157). -/
theorem shift_acc (f : Byte → Byte) (out : Nat) (s : State) :
    shift .acc f out s = { s with cpu := { s.cpu with
      a := f s.cpu.a, p := { nzOf s.cpu.p (f s.cpu.a) with c := s.cpu.a.getLsbD out } } } := rfl

/-- A branch writes `PC`, when it is taken, and charges its penalties (rules R170, R249). -/
theorem branch_cpu (taken : Bool) (d : Byte) (s : State) :
    (branch taken d s).cpu = { s.cpu with pc := if taken then branchTarget s.cpu.pc d else s.cpu.pc } := by
  cases taken
  · rfl
  · simp only [branch, if_true]
    split <;> rfl

@[simp] theorem branch_mem (taken : Bool) (d : Byte) (s : State) : (branch taken d s).bus.mem = s.bus.mem := by
  cases taken
  · rfl
  · simp only [branch, if_true]
    split <;> rfl

/-- The penalties of a branch (rule R249). -/
theorem branch_frame (taken : Bool) (d : Byte) (s : State) :
    Frame [] (if taken then (if page (branchTarget s.cpu.pc d) ≠ page s.cpu.pc then 2 else 1) else 0) s
      (branch taken d s) := by
  cases taken
  · exact .refl [] s
  · simp only [branch, if_true]
    split
    · exact (((addCycles_busOnly 1 s).trans (addCycles_busOnly 1 _)).frame rfl rfl).congr rfl rfl rfl rfl
    · exact ((addCycles_busOnly 1 s).frame rfl rfl).congr rfl rfl rfl rfl

/-- The Bus calls of a branch: its penalties, one call each (rule R170). -/
theorem branch_trace (taken : Bool) (d : Byte) (s : State) :
    (branch taken d s).bus.trace =
      (if taken then
        (if page (branchTarget s.cpu.pc d) ≠ page s.cpu.pc then [.cycles 1, .cycles 1] else [.cycles 1])
      else []) ++ s.bus.trace := by
  cases taken
  · rfl
  · simp only [branch, if_true]
    split <;> rfl

/-! The stack and the entry to a handler, in bytes. -/

/-- The word pulled is made of the next two answers, the low byte first (rules R46, R49). -/
theorem pullWord_answered (s : State) :
    (pullWord s).1 = makeWord (s.bus.answered 1 (stackAddr (s.cpu.sp + 1 + 1)))
      (s.bus.answered 0 (stackAddr (s.cpu.sp + 1))) :=
  congrArg (makeWord · _)
    (Bus.answered_drop (b := s.bus) (c := (pull s).2.bus) (n := 1) List.drop_one.symm rfl 0)

/-- The word pulled on a plain Bus (rules R46, R49). -/
theorem pullWord_plain {s : State} (h : s.bus.script = []) :
    (pullWord s).1 = makeWord (s.bus.mem.read (stackAddr (s.cpu.sp + 1 + 1)).toNat)
      (s.bus.mem.read (stackAddr (s.cpu.sp + 1)).toNat) := by
  rw [pullWord_answered, Bus.answered_plain h, Bus.answered_plain h]

/-- Stack addresses `n` and `m` below `SP` differ. -/
theorem stackAddr_ne {a b : Byte} (h : a ≠ b) : (stackAddr a).toNat ≠ (stackAddr b).toNat :=
  fun e => h (stackAddr_inj.mp (BitVec.eq_of_toNat_eq e))

/-- The two bytes a word push stores (rule R49). -/
theorem pushWord_stored (w : Word) {s : State} (h : s.bus.mem.wf = true) :
    (pushWord w s).bus.mem.read (stackAddr s.cpu.sp).toNat = hiByte w ∧
    (pushWord w s).bus.mem.read (stackAddr (s.cpu.sp - 1)).toNat = loByte w := by
  have hne : s.cpu.sp - 1 ≠ s.cpu.sp := by bv_omega
  rw [pushWord_mem, Memory.read_write_other _ _ (stackAddr_ne hne)]
  exact ⟨Memory.read_write_same h _ _, Memory.read_write_same (Memory.wf_write h _ _) _ _⟩

theorem pushWord_memory (w : Word) (s : State) :
    MemorySameOutside [stackAddr s.cpu.sp, stackAddr (s.cpu.sp - 1)] s (pushWord w s) := by
  intro a ha
  simp only [List.mem_cons, List.not_mem_nil, or_false, not_or] at ha
  rw [pushWord_mem, Memory.read_write_other, Memory.read_write_other]
  · exact fun e => ha.1 (BitVec.eq_of_toNat_eq e.symm)
  · exact fun e => ha.2 (BitVec.eq_of_toNat_eq e.symm)

/-- An entry stores at three stack addresses and nowhere else (rules R196, R208). -/
theorem takeException_memory (cd : Bool) (st : Byte) (vec : Word) (s : State) :
    MemorySameOutside [stackAddr s.cpu.sp, stackAddr (s.cpu.sp - 1), stackAddr (s.cpu.sp - 2)] s
      (takeException cd st vec s) := by
  have h2 : s.cpu.sp - 1 - 1 = s.cpu.sp - 2 := by bv_omega
  intro a ha
  simp only [List.mem_cons, List.not_mem_nil, or_false, not_or] at ha
  rw [takeException_mem, h2, Memory.read_write_other, Memory.read_write_other, Memory.read_write_other]
  · exact fun e => ha.1 (BitVec.eq_of_toNat_eq e.symm)
  · exact fun e => ha.2.1 (BitVec.eq_of_toNat_eq e.symm)
  · exact fun e => ha.2.2 (BitVec.eq_of_toNat_eq e.symm)

/-- The three bytes an entry stores (rules R196, R208). -/
theorem takeException_stored (cd : Bool) (st : Byte) (vec : Word) {s : State} (h : s.bus.mem.wf = true) :
    (takeException cd st vec s).bus.mem.read (stackAddr s.cpu.sp).toNat = hiByte s.cpu.pc ∧
    (takeException cd st vec s).bus.mem.read (stackAddr (s.cpu.sp - 1)).toNat = loByte s.cpu.pc ∧
    (takeException cd st vec s).bus.mem.read (stackAddr (s.cpu.sp - 2)).toNat = st := by
  have e2 : s.cpu.sp - 1 - 1 = s.cpu.sp - 2 := by bv_omega
  have h1 : s.cpu.sp - 1 ≠ s.cpu.sp := by bv_omega
  have h2 : s.cpu.sp - 2 ≠ s.cpu.sp := by bv_omega
  have h3 : s.cpu.sp - 2 ≠ s.cpu.sp - 1 := by bv_omega
  have w1 := Memory.wf_write h (stackAddr s.cpu.sp) (hiByte s.cpu.pc)
  have w2 := Memory.wf_write w1 (stackAddr (s.cpu.sp - 1)) (loByte s.cpu.pc)
  rw [takeException_mem, e2]
  refine ⟨?_, ?_, Memory.read_write_same w2 _ _⟩
  · rw [Memory.read_write_other _ _ (stackAddr_ne h2), Memory.read_write_other _ _ (stackAddr_ne h1),
      Memory.read_write_same h]
  · rw [Memory.read_write_other _ _ (stackAddr_ne h3), Memory.read_write_same w1]

/-- Where the handler is: the word at the vector, which the Bus answers after the three pushes (rules R196, R208). -/
theorem takeException_vector (cd : Bool) (st : Byte) (vec : Word) (s : State) :
    (takeException cd st vec s).cpu.pc = (memRead16 vec (push st (pushWord s.cpu.pc s))).1 := rfl

/-- Where the handler is, for a vector outside the stack page: made of the fourth and fifth answers (rules R50, R196,
R208). -/
theorem takeException_pc (cd : Bool) (st : Byte) {vec : Word} (s : State)
    (h1 : 0x01FF < vec.toNat) (h2 : vec.toNat < 0xFFFF) :
    (takeException cd st vec s).cpu.pc = makeWord (s.bus.answered 4 (vec + 1)) (s.bus.answered 3 vec) := by
  have out : ∀ a : Word, 0x01FF < a.toNat →
      (push st (pushWord s.cpu.pc s)).bus.mem.read a.toNat = s.bus.mem.read a.toNat := by
    intro a ha
    refine takeException_memory cd st vec s a fun hc => ?_
    simp only [List.mem_cons, List.not_mem_nil, or_false] at hc
    rcases hc with rfl | rfl | rfl <;> rw [stackAddr_toNat] at ha <;> bv_omega
  have hs : (push st (pushWord s.cpu.pc s)).bus.script = s.bus.script.drop 3 := by
    change s.bus.script.tail.tail.tail = _
    simp only [← List.drop_one, List.drop_drop]
  have hv : 0x01FF < (vec + 1).toNat := by bv_omega
  rw [takeException_vector, memRead16, peekWord_answered, Bus.answered_drop hs (out _ hv),
    Bus.answered_drop hs (out _ h1)]

/-! Every instruction completes. -/

/-- No meaning faults or refuses. -/
theorem exec_next (i : Instr) (s : State) : ∃ t, exec i s = .next t := by
  cases i with
  | jmp m => cases m <;> exact ⟨_, rfl⟩
  | _ => exact ⟨_, rfl⟩

end Sys2Proof.Machine
end

