-- ==== Sys2Proof/Laws/Execute.lean ====
section
/-! SUPPORT. What `reset()` and `load` can do: each writes the fields its rule names and leaves the rest. -/

namespace Sys2Proof.Machine

/-! `reset()`. -/

/-- Answers that ask for nothing leave `ES` as it is (rule R44). -/
theorem ExecStatus.raiseAll_none (es : ExecStatus) (l : List BusAnswer) (h : ∀ ans ∈ l, ans.raises = .none) :
    es.raiseAll l = es := by
  induction l generalizing es with
  | nil => rfl
  | cons a l ih =>
    have ha : es.raise a.raises = es := by rw [h a (by simp)]; simp [ExecStatus.raise, Requests.none]
    exact (congrArg (·.raiseAll l) ha).trans (ih es fun b hb => h b (by simp [hb]))

/-- The state of `reset()` before its vector peeks (rule R230). -/
def resetCleared (s : State) : State :=
  (s.setP { s.cpu.p with i := true }).setES ⟨false, false, false, s.cpu.es.fatal⟩

/-- `reset()` is the vector peeks from the cleared state, `PC` through the vector, and what is kept of the requests of
those peeks. -/
theorem hostReset_eq (s : State) :
    hostReset s =
      ((memRead16 vecReset (resetCleared s)).2.setPC (memRead16 vecReset (resetCleared s)).1).setES
        ((memRead16 vecReset (resetCleared s)).2.cpu.es.keepRequests Config.keepsRequestDuringReset) := rfl

@[simp] theorem hostReset_mem (s : State) : (hostReset s).bus.mem = s.bus.mem := rfl
@[simp] theorem hostReset_cycles (s : State) : (hostReset s).bus.cycles = s.bus.cycles := rfl
@[simp] theorem hostReset_trace (s : State) :
    (hostReset s).bus.trace = .peek 0xFFFD :: .peek 0xFFFC :: s.bus.trace := rfl
@[simp] theorem hostReset_script (s : State) : (hostReset s).bus.script = s.bus.script.drop 2 := by
  simp [hostReset_eq, memRead16, peekWord, peek, Bus.record, resetCleared, State.raise, State.setES, State.setPC, State.setP,
    List.drop_add_one_eq_tail_drop]
@[simp] theorem hostReset_hook (s : State) : (hostReset s).hook = s.hook := rfl
@[simp] theorem hostReset_draws (s : State) : (hostReset s).draws = s.draws := rfl

/-- Of `ES`, `reset()` leaves Fatal, and of the requests of its two peeks what the engine keeps (log entry 18). -/
theorem hostReset_es (s : State) :
    (hostReset s).cpu.es =
      ((⟨false, false, false, s.cpu.es.fatal⟩ : ExecStatus).raiseAll (s.bus.script.take 2)).keepRequests
        Config.keepsRequestDuringReset := by
  obtain ⟨k, h1, -, h3, -⟩ := (peekWord_busOnly vecReset (vecReset + 1) (resetCleared s)).collaborators
  have hk : k = 2 := by
    change traceAccesses s.bus.trace + 1 + 1 = traceAccesses s.bus.trace + k at h1
    omega
  subst hk
  exact congrArg (fun es : ExecStatus => es.keepRequests Config.keepsRequestDuringReset) h3

/-- `reset()` does not revive a dead instance (rule R25). -/
@[simp] theorem hostReset_fatal (s : State) : (hostReset s).cpu.es.fatal = s.cpu.es.fatal := by
  rw [hostReset_es, ExecStatus.keepRequests_fatal, ExecStatus.raiseAll_fatal]

/-- `reset()` writes `I`, `PC` and `ES`, and no other register or flag (rule R230). -/
theorem hostReset_cpu (s : State) :
    (hostReset s).cpu = { s.cpu with
      pc := (memRead16 vecReset (resetCleared s)).1, p := { s.cpu.p with i := true }, es := (hostReset s).cpu.es } := rfl

/-! `load`. -/

theorem loadSnapshot_none {pat : Config.BoolPatterns} {blob : List Byte} (h : parseSnapshot pat blob = none) (s : State) :
    loadSnapshot pat blob s = (false, s) := by simp [loadSnapshot, h]

/-- A successful load into a live instance, or of a dead one, is the snapshot's state (rule R252). -/
theorem loadSnapshot_some {pat : Config.BoolPatterns} {blob : List Byte} {c : ProcessorState}
    (h : parseSnapshot pat blob = some c) {s : State} (hs : s.cpu.es.fatal = false ∨ c.es.fatal = true) :
    loadSnapshot pat blob s = (true, { s with cpu := c }) := by
  have e : (c.es.fatal || s.cpu.es.fatal && Config.loadKeepsFatal) = c.es.fatal := by
    rcases hs with hs | hs <;> simp [hs]
  simp only [loadSnapshot, h, e]

end Sys2Proof.Machine
end

