-- ==== Sys2Proof/Laws/Loop.lean ====
section
/-! SUPPORT. What the parts of a step can do, and that a step which goes on is a fetch, a meaning and a boundary. -/

namespace Sys2Proof.Machine

/-! Step a. -/

/-- Consulting the hook uses up its answer and may raise requests (rules R83, R216). -/
theorem consultHook_cases (s : State) :
    ∃ r : Requests, (consultHook s).2.cpu = { s.cpu with es := s.cpu.es.raise r } ∧
      (consultHook s).2.bus = s.bus ∧ (consultHook s).2.hook = s.hook.tail ∧ (consultHook s).2.draws = s.draws := by
  cases hh : s.hook with
  | nil => exact ⟨.none, by simp [consultHook, hh]⟩
  | cons a rest =>
    cases a with
    | stop => exact ⟨.none, by simp [consultHook, hh]⟩
    | goOn r => exact ⟨r, by simp [consultHook, hh, State.raise, State.setES]⟩

theorem consultHook_nil {s : State} (h : s.hook = []) : consultHook s = (false, s) := by
  simp [consultHook, h]

theorem consultHook_inv {s : State} (h : s.Inv) : (consultHook s).2.Inv := by
  obtain ⟨r, -, hb, -⟩ := consultHook_cases s
  exact h.congr hb

/-! Steps b and c. -/

/-- Steps b and c, less the operand bytes: `IR`, `PC`, the base cycles (rules R84, R85). -/
def afterOpcode (s : State) : State := addCycles (cycleTable (fetch s).1) (fetchOpcode s).2

/-- A fetch is one of three, by the length the opcode fixes (rules R60, R61). -/
theorem fetchInstr_cases (s : State) :
    (opcodeLength (fetch s).1 = 1 ∧ fetchInstr s = (decodeInstr (fetch s).1 0 0, afterOpcode s)) ∨
    (opcodeLength (fetch s).1 = 2 ∧
      fetchInstr s = (decodeInstr (fetch s).1 (fetch (afterOpcode s)).1 0, (fetch (afterOpcode s)).2)) ∨
    (opcodeLength (fetch s).1 = 3 ∧
      fetchInstr s = (decodeInstr (fetch s).1 (fetch (afterOpcode s)).1 (fetch (fetch (afterOpcode s)).2).1,
        (fetch (fetch (afterOpcode s)).2).2)) := by
  have hf : (fetchOpcode s).1 = (fetch s).1 := rfl
  rcases opcodeLength_cases (fetch s).1 with e | e | e
  · exact .inl ⟨e, by unfold fetchInstr; dsimp only; rw [hf, e]; rfl⟩
  · exact .inr (.inl ⟨e, by unfold fetchInstr; dsimp only; rw [hf, e]; rfl⟩)
  · exact .inr (.inr ⟨e, by unfold fetchInstr; dsimp only; rw [hf, e]; rfl⟩)

@[simp] theorem afterOpcode_a (s : State) : (afterOpcode s).cpu.a = s.cpu.a := rfl
@[simp] theorem afterOpcode_x (s : State) : (afterOpcode s).cpu.x = s.cpu.x := rfl
@[simp] theorem afterOpcode_y (s : State) : (afterOpcode s).cpu.y = s.cpu.y := rfl
@[simp] theorem afterOpcode_sp (s : State) : (afterOpcode s).cpu.sp = s.cpu.sp := rfl
@[simp] theorem afterOpcode_p (s : State) : (afterOpcode s).cpu.p = s.cpu.p := rfl
@[simp] theorem afterOpcode_pc (s : State) : (afterOpcode s).cpu.pc = s.cpu.pc + 1 := rfl
@[simp] theorem afterOpcode_ir (s : State) : (afterOpcode s).cpu.ir = (fetch s).1 := rfl
@[simp] theorem afterOpcode_mem (s : State) : (afterOpcode s).bus.mem = s.bus.mem := rfl
@[simp] theorem afterOpcode_cycles (s : State) :
    (afterOpcode s).bus.cycles = s.bus.cycles + cycleTable (fetch s).1 := rfl
@[simp] theorem afterOpcode_trace (s : State) :
    (afterOpcode s).bus.trace = .cycles (cycleTable (fetch s).1) :: .peek s.cpu.pc :: s.bus.trace := rfl
@[simp] theorem afterOpcode_hook (s : State) : (afterOpcode s).hook = s.hook := rfl
@[simp] theorem afterOpcode_draws (s : State) : (afterOpcode s).draws = s.draws := rfl

theorem afterOpcode_inv {s : State} (h : s.Inv) : (afterOpcode s).Inv :=
  addCycles_inv ((fetch_inv h).congr (State.setIR_bus _ _)) _

theorem afterOpcode_collaborators (s : State) : Collaborators s (afterOpcode s) :=
  (((Collaborators.refl s).fetch).setIR _).busOnly (addCycles_busOnly _ _)

theorem fetchInstr_inv {s : State} (h : s.Inv) : (fetchInstr s).2.Inv := by
  rcases fetchInstr_cases s with ⟨-, e⟩ | ⟨-, e⟩ | ⟨-, e⟩ <;> rw [e]
  · exact afterOpcode_inv h
  · exact fetch_inv (afterOpcode_inv h)
  · exact fetch_inv (fetch_inv (afterOpcode_inv h))

theorem fetchInstr_collaborators (s : State) : Collaborators s (fetchInstr s).2 := by
  rcases fetchInstr_cases s with ⟨-, e⟩ | ⟨-, e⟩ | ⟨-, e⟩ <;> rw [e]
  · exact afterOpcode_collaborators s
  · exact (afterOpcode_collaborators s).fetch
  · exact ((afterOpcode_collaborators s).fetch).fetch

@[simp] theorem fetchInstr_mem (s : State) : (fetchInstr s).2.bus.mem = s.bus.mem := by
  rcases fetchInstr_cases s with ⟨-, e⟩ | ⟨-, e⟩ | ⟨-, e⟩ <;> rw [e] <;> rfl

/-! Step f. -/

theorem interruptEntry_collaborators (vec : Word) (s : State) : Collaborators s (interruptEntry vec s) :=
  (addCycles_busOnly 7 s).collaborators.trans (takeException_collaborators true _ vec _)

/-- An interrupt entry raises the requests of the five answers it uses up (rules R204, R208). -/
theorem interruptEntry_es (vec : Word) (s : State) :
    (interruptEntry vec s).cpu.es = s.cpu.es.raiseAll (s.bus.script.take 5) := by
  obtain ⟨k, h1, -, h3, -⟩ := interruptEntry_collaborators vec s
  rw [interruptEntry, takeException_trace] at h1
  simp only [addCycles, traceAccesses] at h1
  rw [h3, show k = 5 by omega]

/-- `ES` only passes through an interrupt entry. -/
theorem interruptEntry_setES (vec : Word) (s : State) (es : ExecStatus) :
    interruptEntry vec (s.setES es) = (interruptEntry vec s).setES (es.raiseAll (s.bus.script.take 5)) :=
  have h : interruptEntry vec (s.setES es) =
      (interruptEntry vec s).setES (interruptEntry vec (s.setES es)).cpu.es := rfl
  h.trans (congrArg _ (interruptEntry_es vec (s.setES es)))

/-- The boundary does nothing, or makes one interrupt entry and leaves of that interrupt's bit only what the entry itself
raised, if the engine keeps that (rules R99, R207, log entry 13). -/
theorem boundary_cases (s : State) :
    boundary s = s ∨
    (s.cpu.es.nmi = true ∧
      boundary s = (interruptEntry vecNmi s).setES { (interruptEntry vecNmi s).cpu.es with
        nmi := (s.bus.script.take 5).any (·.raises.nmi) && Config.keepsRequestDuringEntry }) ∨
    (s.cpu.es.nmi = false ∧ s.cpu.es.irq = true ∧ s.cpu.p.i = false ∧
      boundary s = (interruptEntry vecIrq s).setES { (interruptEntry vecIrq s).cpu.es with
        irq := (s.bus.script.take 5).any (·.raises.irq) && Config.keepsRequestDuringEntry }) := by
  cases hn : s.cpu.es.nmi <;> cases hq : s.cpu.es.irq <;> cases hi : s.cpu.p.i <;>
    simp [boundary, interruptSequence, hn, hq, hi, interruptEntry_setES, interruptEntry_es, ExecStatus.raiseAll_eq]

theorem boundary_inv {s : State} (h : s.Inv) : (boundary s).Inv := by
  rcases boundary_cases s with e | ⟨-, e⟩ | ⟨-, -, -, e⟩ <;> rw [e]
  · exact h
  · exact (interruptEntry_inv h vecNmi).congr (State.setES_bus _ _)
  · exact (interruptEntry_inv h vecIrq).congr (State.setES_bus _ _)

/-- An interrupt entry neither raises nor clears FatalError. -/
theorem boundary_fatal (s : State) : (boundary s).cpu.es.fatal = s.cpu.es.fatal := by
  rcases boundary_cases s with e | ⟨-, e⟩ | ⟨-, -, -, e⟩ <;> rw [e]
  · exact (interruptEntry_collaborators vecNmi s).fatal
  · exact (interruptEntry_collaborators vecIrq s).fatal

/-! The step. -/

/-- A step that goes on: no exit condition held, the fetched instruction ran, the boundary followed (rule R80). -/
theorem step_cases {s t : State} (h : step s = .next t) :
    s.Runs ∧ ∃ u, exec (fetchInstr (consultHook s).2).1 (fetchInstr (consultHook s).2).2 = .next u ∧
      t = boundary u := by
  unfold step iteration at h
  split at h
  · cases h
  · rename_i hx
    dsimp only at h
    split at h
    · cases h
    · rename_i hk
      obtain ⟨u, hu⟩ := exec_next (fetchInstr (consultHook s).2).1 (fetchInstr (consultHook s).2).2
      rw [hu] at h
      exact ⟨⟨hx, by simpa using hk⟩, u, hu, by cases h; rfl⟩

end Sys2Proof.Machine
end

