-- ==== Sys2Proof/Laws/PerInstr.lean ====
section
/-! SUPPORT. Per instruction: its encoding has the length rule R61 gives it. -/

namespace Sys2Proof.Laws.EncodingLength

/-- An encoding of the instruction has as many bytes as rule R61 says. -/
def Statement (i : Instr) : Prop := ∀ bytes, encode i = some bytes → bytes.length = i.length

/-- It is enough that the operand bytes are one fewer. -/
theorem of_operands {i : Instr} (h : i.operandBytes.length + 1 = i.length) : Statement i := by
  intro bytes hb
  obtain ⟨op, -, rfl⟩ := encode_eq_some.mp hb
  exact h

theorem ea_length (m : EaMode) : m.operandBytes.length + 1 = m.length := by cases m <;> rfl

theorem read_length (m : ReadMode) : m.operandBytes.length + 1 = m.length := by
  cases m with
  | imm d => rfl
  | mem m => exact ea_length m

theorem modify_length (m : ModifyMode) : m.operandBytes.length + 1 = m.length := by
  cases m with
  | acc => rfl
  | mem m => exact ea_length m

theorem lda (m : ReadMode) : Statement (.lda m) := of_operands (read_length m)
theorem ldx (m : ReadMode) : Statement (.ldx m) := of_operands (read_length m)
theorem ldy (m : ReadMode) : Statement (.ldy m) := of_operands (read_length m)
theorem sta (m : EaMode) : Statement (.sta m) := of_operands (ea_length m)
theorem stx (m : EaMode) : Statement (.stx m) := of_operands (ea_length m)
theorem sty (m : EaMode) : Statement (.sty m) := of_operands (ea_length m)
theorem tax : Statement .tax := of_operands rfl
theorem tay : Statement .tay := of_operands rfl
theorem tsx : Statement .tsx := of_operands rfl
theorem txa : Statement .txa := of_operands rfl
theorem txs : Statement .txs := of_operands rfl
theorem tya : Statement .tya := of_operands rfl
theorem pha : Statement .pha := of_operands rfl
theorem php : Statement .php := of_operands rfl
theorem pla : Statement .pla := of_operands rfl
theorem plp : Statement .plp := of_operands rfl
theorem adc (m : ReadMode) : Statement (.adc m) := of_operands (read_length m)
theorem sbc (m : ReadMode) : Statement (.sbc m) := of_operands (read_length m)
theorem cmp (m : ReadMode) : Statement (.cmp m) := of_operands (read_length m)
theorem cpx (m : ReadMode) : Statement (.cpx m) := of_operands (read_length m)
theorem cpy (m : ReadMode) : Statement (.cpy m) := of_operands (read_length m)
theorem inc (m : EaMode) : Statement (.inc m) := of_operands (ea_length m)
theorem dec (m : EaMode) : Statement (.dec m) := of_operands (ea_length m)
theorem inx : Statement .inx := of_operands rfl
theorem iny : Statement .iny := of_operands rfl
theorem dex : Statement .dex := of_operands rfl
theorem dey : Statement .dey := of_operands rfl
theorem and (m : ReadMode) : Statement (.and m) := of_operands (read_length m)
theorem ora (m : ReadMode) : Statement (.ora m) := of_operands (read_length m)
theorem eor (m : ReadMode) : Statement (.eor m) := of_operands (read_length m)
theorem bit (m : EaMode) : Statement (.bit m) := of_operands (ea_length m)
theorem asl (m : ModifyMode) : Statement (.asl m) := of_operands (modify_length m)
theorem lsr (m : ModifyMode) : Statement (.lsr m) := of_operands (modify_length m)
theorem rol (m : ModifyMode) : Statement (.rol m) := of_operands (modify_length m)
theorem ror (m : ModifyMode) : Statement (.ror m) := of_operands (modify_length m)
theorem bcc (d : Byte) : Statement (.bcc d) := of_operands rfl
theorem bcs (d : Byte) : Statement (.bcs d) := of_operands rfl
theorem beq (d : Byte) : Statement (.beq d) := of_operands rfl
theorem bmi (d : Byte) : Statement (.bmi d) := of_operands rfl
theorem bne (d : Byte) : Statement (.bne d) := of_operands rfl
theorem bpl (d : Byte) : Statement (.bpl d) := of_operands rfl
theorem bvc (d : Byte) : Statement (.bvc d) := of_operands rfl
theorem bvs (d : Byte) : Statement (.bvs d) := of_operands rfl
theorem jmp (m : JmpMode) : Statement (.jmp m) := of_operands (by cases m <;> rfl)
theorem jsr (target : Word) : Statement (.jsr target) := of_operands rfl
theorem rts : Statement .rts := of_operands rfl
theorem clc : Statement .clc := of_operands rfl
theorem cld : Statement .cld := of_operands rfl
theorem cli : Statement .cli := of_operands rfl
theorem clv : Statement .clv := of_operands rfl
theorem sec : Statement .sec := of_operands rfl
theorem sed : Statement .sed := of_operands rfl
theorem sei : Statement .sei := of_operands rfl
theorem nop : Statement .nop := of_operands rfl
theorem brk (padding : Byte) : Statement (.brk padding) := of_operands rfl
theorem rti : Statement .rti := of_operands rfl
theorem illegal (op : Byte) : Statement (.illegal op) := of_operands rfl

end Sys2Proof.Laws.EncodingLength
end

