-- ==== Sys2Proof/Tests/Slice0.lean ====
section
/-! SUPPORT. Tests on fixed values, their expected results taken from the spec (the opcode map, the encoding tables, the
vectors of spec/95_test_vectors.md), and a witness for the hypotheses of each obligation that has any. -/

namespace Sys2Proof.Tests

open Sys2Proof Sys2Proof.Machine

/-! WellFormed refuses a mode the mnemonic does not have, one check each. -/

theorem test_wf_isAluMode :
    (Instr.lda (.mem (.zpy 0x10))).wf = false ∧ (Instr.sta (.zpy 0x10)).wf = false := by decide
theorem test_wf_isLdxMode : (Instr.ldx (.mem (.zpx 0x10))).wf = false := by decide
theorem test_wf_isModifyMode :
    (Instr.inc (.absy 0x1234)).wf = false ∧ (Instr.ldy (.mem (.indx 0x10))).wf = false := by
  decide
theorem test_wf_isStxMode : (Instr.stx (.absy 0x1234)).wf = false := by decide
theorem test_wf_isStyMode : (Instr.sty (.absx 0x1234)).wf = false := by decide
theorem test_wf_isPlain : (Instr.bit (.zpx 0x10)).wf = false ∧ (Instr.cpx (.mem (.zpy 0x10))).wf = false := by decide
theorem test_wf_modify_allowed : (Instr.ror (.mem (.indy 0x10))).wf = false := by decide
theorem test_wf_illegal : (Instr.illegal 0xEA).wf = false := by decide

/-- An ill-formed instruction has no encoding. -/
theorem test_encode_ill_formed : encode (.ldx (.mem (.zpx 0x10))) = none ∧ encode (.illegal 0xEA) = none := by decide

/-! Decoding, from the encoding tables of spec/41 to spec/44; a word is the table's numbering: `0x1234AD` is the bytes
`AD 34 12`. -/

theorem test_decode_lda :
    [0x12A9, 0x12A5, 0x12B5, 0x1234AD, 0x1234BD, 0x1234B9, 0x12A1, 0x12B1].map (decodeTableWord 24) =
    [.lda (.imm 0x12), .lda (.mem (.zp 0x12)), .lda (.mem (.zpx 0x12)), .lda (.mem (.abs 0x1234)),
     .lda (.mem (.absx 0x1234)), .lda (.mem (.absy 0x1234)), .lda (.mem (.indx 0x12)),
     .lda (.mem (.indy 0x12))].map some := by decide

theorem test_decode_ldx :
    [0x12A2, 0x12A6, 0x12B6, 0x1234AE, 0x1234BE].map (decodeTableWord 24) =
    [.ldx (.imm 0x12), .ldx (.mem (.zp 0x12)), .ldx (.mem (.zpy 0x12)), .ldx (.mem (.abs 0x1234)),
     .ldx (.mem (.absy 0x1234))].map some := by decide

theorem test_decode_ldy :
    [0x12A0, 0x12A4, 0x12B4, 0x1234AC, 0x1234BC].map (decodeTableWord 24) =
    [.ldy (.imm 0x12), .ldy (.mem (.zp 0x12)), .ldy (.mem (.zpx 0x12)), .ldy (.mem (.abs 0x1234)),
     .ldy (.mem (.absx 0x1234))].map some := by decide

theorem test_decode_sta :
    [0x1285, 0x1295, 0x12348D, 0x12349D, 0x123499, 0x1281, 0x1291].map (decodeTableWord 24) =
    [.sta (.zp 0x12), .sta (.zpx 0x12), .sta (.abs 0x1234), .sta (.absx 0x1234), .sta (.absy 0x1234),
     .sta (.indx 0x12), .sta (.indy 0x12)].map some := by decide

theorem test_decode_stx :
    [0x1286, 0x1296, 0x12348E].map (decodeTableWord 24) =
    [.stx (.zp 0x12), .stx (.zpy 0x12), .stx (.abs 0x1234)].map some := by decide

theorem test_decode_sty :
    [0x1284, 0x1294, 0x12348C].map (decodeTableWord 24) =
    [.sty (.zp 0x12), .sty (.zpx 0x12), .sty (.abs 0x1234)].map some := by decide

theorem test_decode_adc :
    [0x1269, 0x1265, 0x1275, 0x12346D, 0x12347D, 0x123479, 0x1261, 0x1271].map (decodeTableWord 24) =
    [.adc (.imm 0x12), .adc (.mem (.zp 0x12)), .adc (.mem (.zpx 0x12)), .adc (.mem (.abs 0x1234)),
     .adc (.mem (.absx 0x1234)), .adc (.mem (.absy 0x1234)), .adc (.mem (.indx 0x12)),
     .adc (.mem (.indy 0x12))].map some := by decide

theorem test_decode_sbc :
    [0x12E9, 0x12E5, 0x12F5, 0x1234ED, 0x1234FD, 0x1234F9, 0x12E1, 0x12F1].map (decodeTableWord 24) =
    [.sbc (.imm 0x12), .sbc (.mem (.zp 0x12)), .sbc (.mem (.zpx 0x12)), .sbc (.mem (.abs 0x1234)),
     .sbc (.mem (.absx 0x1234)), .sbc (.mem (.absy 0x1234)), .sbc (.mem (.indx 0x12)),
     .sbc (.mem (.indy 0x12))].map some := by decide

theorem test_decode_cmp :
    [0x12C9, 0x12C5, 0x12D5, 0x1234CD, 0x1234DD, 0x1234D9, 0x12C1, 0x12D1].map (decodeTableWord 24) =
    [.cmp (.imm 0x12), .cmp (.mem (.zp 0x12)), .cmp (.mem (.zpx 0x12)), .cmp (.mem (.abs 0x1234)),
     .cmp (.mem (.absx 0x1234)), .cmp (.mem (.absy 0x1234)), .cmp (.mem (.indx 0x12)),
     .cmp (.mem (.indy 0x12))].map some := by decide

theorem test_decode_cpx :
    [0x12E0, 0x12E4, 0x1234EC].map (decodeTableWord 24) =
    [.cpx (.imm 0x12), .cpx (.mem (.zp 0x12)), .cpx (.mem (.abs 0x1234))].map some := by decide

theorem test_decode_cpy :
    [0x12C0, 0x12C4, 0x1234CC].map (decodeTableWord 24) =
    [.cpy (.imm 0x12), .cpy (.mem (.zp 0x12)), .cpy (.mem (.abs 0x1234))].map some := by decide

theorem test_decode_inc :
    [0x12E6, 0x12F6, 0x1234EE, 0x1234FE].map (decodeTableWord 24) =
    [.inc (.zp 0x12), .inc (.zpx 0x12), .inc (.abs 0x1234), .inc (.absx 0x1234)].map some := by decide

theorem test_decode_dec :
    [0x12C6, 0x12D6, 0x1234CE, 0x1234DE].map (decodeTableWord 24) =
    [.dec (.zp 0x12), .dec (.zpx 0x12), .dec (.abs 0x1234), .dec (.absx 0x1234)].map some := by decide

theorem test_decode_and :
    [0x1229, 0x1225, 0x1235, 0x12342D, 0x12343D, 0x123439, 0x1221, 0x1231].map (decodeTableWord 24) =
    [.and (.imm 0x12), .and (.mem (.zp 0x12)), .and (.mem (.zpx 0x12)), .and (.mem (.abs 0x1234)),
     .and (.mem (.absx 0x1234)), .and (.mem (.absy 0x1234)), .and (.mem (.indx 0x12)),
     .and (.mem (.indy 0x12))].map some := by decide

theorem test_decode_ora :
    [0x1209, 0x1205, 0x1215, 0x12340D, 0x12341D, 0x123419, 0x1201, 0x1211].map (decodeTableWord 24) =
    [.ora (.imm 0x12), .ora (.mem (.zp 0x12)), .ora (.mem (.zpx 0x12)), .ora (.mem (.abs 0x1234)),
     .ora (.mem (.absx 0x1234)), .ora (.mem (.absy 0x1234)), .ora (.mem (.indx 0x12)),
     .ora (.mem (.indy 0x12))].map some := by decide

theorem test_decode_eor :
    [0x1249, 0x1245, 0x1255, 0x12344D, 0x12345D, 0x123459, 0x1241, 0x1251].map (decodeTableWord 24) =
    [.eor (.imm 0x12), .eor (.mem (.zp 0x12)), .eor (.mem (.zpx 0x12)), .eor (.mem (.abs 0x1234)),
     .eor (.mem (.absx 0x1234)), .eor (.mem (.absy 0x1234)), .eor (.mem (.indx 0x12)),
     .eor (.mem (.indy 0x12))].map some := by decide

theorem test_decode_bit :
    [0x1224, 0x12342C].map (decodeTableWord 24) =
    [.bit (.zp 0x12), .bit (.abs 0x1234)].map some := by decide

theorem test_decode_asl :
    [0x0A, 0x1206, 0x1216, 0x12340E, 0x12341E].map (decodeTableWord 24) =
    [.asl .acc, .asl (.mem (.zp 0x12)), .asl (.mem (.zpx 0x12)), .asl (.mem (.abs 0x1234)),
     .asl (.mem (.absx 0x1234))].map some := by decide

theorem test_decode_lsr :
    [0x4A, 0x1246, 0x1256, 0x12344E, 0x12345E].map (decodeTableWord 24) =
    [.lsr .acc, .lsr (.mem (.zp 0x12)), .lsr (.mem (.zpx 0x12)), .lsr (.mem (.abs 0x1234)),
     .lsr (.mem (.absx 0x1234))].map some := by decide

theorem test_decode_rol :
    [0x2A, 0x1226, 0x1236, 0x12342E, 0x12343E].map (decodeTableWord 24) =
    [.rol .acc, .rol (.mem (.zp 0x12)), .rol (.mem (.zpx 0x12)), .rol (.mem (.abs 0x1234)),
     .rol (.mem (.absx 0x1234))].map some := by decide

theorem test_decode_ror :
    [0x6A, 0x1266, 0x1276, 0x12346E, 0x12347E].map (decodeTableWord 24) =
    [.ror .acc, .ror (.mem (.zp 0x12)), .ror (.mem (.zpx 0x12)), .ror (.mem (.abs 0x1234)),
     .ror (.mem (.absx 0x1234))].map some := by decide

theorem test_decode_jmp :
    [0x12344C, 0x12346C].map (decodeTableWord 24) =
    [.jmp (.abs 0x1234), .jmp (.ind 0x1234)].map some := by decide

/-- Rules R116 to R125, R141 to R144. -/
theorem test_decode_implied :
    [0xAA, 0xA8, 0xBA, 0x8A, 0x9A, 0x98, 0x48, 0x08, 0x68, 0x28, 0xE8, 0xC8, 0xCA, 0x88].map (decodeTableWord 8) =
    [.tax, .tay, .tsx, .txa, .txs, .tya, .pha, .php, .pla, .plp, .inx, .iny, .dex, .dey].map some := by decide

/-- Rules R182, R185 to R191, R195, R197. -/
theorem test_decode_implied_control :
    [0x60, 0x18, 0xD8, 0x58, 0xB8, 0x38, 0xF8, 0x78, 0xEA, 0x40].map (decodeTableWord 8) =
    [.rts, .clc, .cld, .cli, .clv, .sec, .sed, .sei, .nop, .rti].map some := by decide

/-- Rules R171 to R178. -/
theorem test_decode_branches :
    [0x1290, 0x12B0, 0x12F0, 0x1230, 0x12D0, 0x1210, 0x1250, 0x1270].map (decodeTableWord 16) =
    [.bcc 0x12, .bcs 0x12, .beq 0x12, .bmi 0x12, .bne 0x12, .bpl 0x12, .bvc 0x12, .bvs 0x12].map some := by decide

/-- Rules R181, R196, R66. -/
theorem test_decode_jsr_brk_illegal :
    [0x123420, 0x1200, 0x129E].map (decodeTableWord 24) =
    [.jsr 0x1234, .brk 0x12, .illegal 0x9E].map some := by decide

/-- The 105 bytes of rule R65. -/
theorem test_decode_illegal :
    illegalOpcodes.all (fun op => decodeTableWord 8 op.toNat = some (.illegal op)) = true := by decide

/-- The length of every opcode, by rows of sixteen (spec/opcode_table.json, rule R61). -/
def tableLengths : List Nat :=
    [2, 2, 1, 1, 1, 2, 2, 1, 1, 2, 1, 1, 1, 3, 3, 1] ++
    [2, 2, 1, 1, 1, 2, 2, 1, 1, 3, 1, 1, 1, 3, 3, 1] ++
    [3, 2, 1, 1, 2, 2, 2, 1, 1, 2, 1, 1, 3, 3, 3, 1] ++
    [2, 2, 1, 1, 1, 2, 2, 1, 1, 3, 1, 1, 1, 3, 3, 1] ++
    [1, 2, 1, 1, 1, 2, 2, 1, 1, 2, 1, 1, 3, 3, 3, 1] ++
    [2, 2, 1, 1, 1, 2, 2, 1, 1, 3, 1, 1, 1, 3, 3, 1] ++
    [1, 2, 1, 1, 1, 2, 2, 1, 1, 2, 1, 1, 3, 3, 3, 1] ++
    [2, 2, 1, 1, 1, 2, 2, 1, 1, 3, 1, 1, 1, 3, 3, 1] ++
    [1, 2, 1, 1, 2, 2, 2, 1, 1, 1, 1, 1, 3, 3, 3, 1] ++
    [2, 2, 1, 1, 2, 2, 2, 1, 1, 3, 1, 1, 1, 3, 1, 1] ++
    [2, 2, 2, 1, 2, 2, 2, 1, 1, 2, 1, 1, 3, 3, 3, 1] ++
    [2, 2, 1, 1, 2, 2, 2, 1, 1, 3, 1, 1, 3, 3, 3, 1] ++
    [2, 2, 1, 1, 2, 2, 2, 1, 1, 2, 1, 1, 3, 3, 3, 1] ++
    [2, 2, 1, 1, 1, 2, 2, 1, 1, 3, 1, 1, 1, 3, 3, 1] ++
    [2, 2, 1, 1, 2, 2, 2, 1, 1, 2, 1, 1, 3, 3, 3, 1] ++
    [2, 2, 1, 1, 1, 2, 2, 1, 1, 3, 1, 1, 1, 3, 3, 1]

theorem test_lengths : ∀ op : Byte, opcodeLength op = tableLengths.getD op.toNat 0 := by decide

/-- Too few bytes. -/
theorem test_decode_short :
    decode [] = .error .empty ∧ decode [0xAD, 0x34] = .error (.truncated 0xAD) ∧
    decode [0xAD, 0x34, 0x12, 0xFF] = .ok (.lda (.mem (.abs 0x1234)), [0xFF]) := ⟨rfl, rfl, rfl⟩

/-! One step each, from the vectors of spec/95_test_vectors.md: the default start state with the differences given, the
bytes in memory, and what the step leaves. -/

/-- The default start state of spec/95_test_vectors.md section 0, over memory. -/
def start (change : ProcessorState → ProcessorState) (cells : List Host.Cell) : State :=
  { cpu := change { ProcessorState.powerOn with sp := 0xFF, pc := 0x0200 },
    bus := { mem := cells.foldl (fun m c => m.write c.1 c.2) [], cycles := 0, script := [], trace := [] },
    hook := [], draws := 0 }

/-- The state after one step, if it goes on. -/
def stepped (s : State) : Option State :=
  match step s with
  | .next t => some t
  | .fault _ => none
  | .refused _ => none

/-- What `see` shows of the state after one step. -/
def after {α : Type} (change : ProcessorState → ProcessorState) (cells : List Host.Cell) (see : State → α) :
    Option α :=
  (stepped (start change cells)).map see

/-- A3: `LDA $F0,X`. -/
theorem test_lda :
    after (fun s => { s with x := 0x20 }) [(0x0010, 0x7F), (0x0110, 0xEE), (0x0200, 0xB5), (0x0201, 0xF0)]
      (fun t => (t.cpu.a, t.cpu.pc, t.bus.cycles)) =
      some (0x7F, 0x0202, 4) := by decide

/-- A11: `LDX $F0,Y`. -/
theorem test_ldx :
    after (fun s => { s with y := 0x20 }) [(0x0010, 0x80), (0x0200, 0xB6), (0x0201, 0xF0)]
      (fun t => (t.cpu.x, t.cpu.pc, t.cpu.p.n, t.bus.cycles)) =
      some (0x80, 0x0202, true, 4) := by decide

/-- A13: `LDY $12F0,X`. -/
theorem test_ldy :
    after (fun s => { s with x := 0x10, y := 0x05 }) [(0x0200, 0xBC), (0x0201, 0xF0), (0x0202, 0x12), (0x1300, 0x00)]
      (fun t => (t.cpu.y, t.cpu.pc, t.cpu.p.z, t.bus.cycles)) =
      some (0x00, 0x0203, true, 5) := by decide

/-- A16: `STA ($F0,X)`. -/
theorem test_sta :
    after (fun s => { s with x := 0x0F, a := 0x00, p := { s.p with n := true } })
      [(0x0000, 0x40), (0x00FF, 0x00), (0x0200, 0x81), (0x0201, 0xF0), (0x4000, 0xEE)]
      (fun t => (t.cpu.pc, t.bus.mem.read 0x4000, t.bus.cycles)) =
      some (0x0202, 0x00, 6) := by decide

/-- A17: `STX $F0,Y`. -/
theorem test_stx :
    after (fun s => { s with y := 0x11, x := 0x77 }) [(0x0200, 0x96), (0x0201, 0xF0)]
      (fun t => (t.cpu.pc, t.bus.mem.read 0x0001, t.bus.cycles)) =
      some (0x0202, 0x77, 4) := by decide

/-- A18: `STY $1234`. -/
theorem test_sty :
    after (fun s => { s with y := 0x80, p := { s.p with z := true } })
      [(0x0200, 0x8C), (0x0201, 0x34), (0x0202, 0x12)]
      (fun t => (t.cpu.pc, t.bus.mem.read 0x1234, t.bus.cycles)) =
      some (0x0203, 0x80, 4) := by decide

/-- A19: `TAX`. -/
theorem test_tax :
    after (fun s => { s with a := 0x00, x := 0x55 }) [(0x0200, 0xAA)]
      (fun t => (t.cpu.x, t.cpu.pc, t.cpu.p.z, t.bus.cycles)) =
      some (0x00, 0x0201, true, 2) := by decide

/-- A20: `TAY`. -/
theorem test_tay :
    after (fun s => { s with a := 0x80 }) [(0x0200, 0xA8)]
      (fun t => (t.cpu.y, t.cpu.pc, t.cpu.p.n, t.bus.cycles)) =
      some (0x80, 0x0201, true, 2) := by decide

/-- A21: `TXA`. -/
theorem test_txa :
    after (fun s => { s with x := 0x7F, a := 0x80, p := { s.p with n := true } }) [(0x0200, 0x8A)]
      (fun t => (t.cpu.a, t.cpu.pc, t.cpu.p.n, t.bus.cycles)) =
      some (0x7F, 0x0201, false, 2) := by decide

/-- A22: `TYA`. -/
theorem test_tya :
    after (fun s => { s with y := 0x00, a := 0x01 }) [(0x0200, 0x98)]
      (fun t => (t.cpu.a, t.cpu.pc, t.cpu.p.z, t.bus.cycles)) =
      some (0x00, 0x0201, true, 2) := by decide

/-- A23: `TSX`. -/
theorem test_tsx :
    after (fun s => { s with sp := 0x80 }) [(0x0200, 0xBA)]
      (fun t => (t.cpu.x, t.cpu.pc, t.cpu.p.n, t.bus.cycles)) =
      some (0x80, 0x0201, true, 2) := by decide

/-- A24: `TXS`. -/
theorem test_txs :
    after (fun s => { s with x := 0x00, sp := 0xFF, p := { s.p with n := true } }) [(0x0200, 0x9A)]
      (fun t => (t.cpu.sp, t.cpu.pc, t.bus.cycles)) =
      some (0x00, 0x0201, 2) := by decide

/-- A25: `PHA`. -/
theorem test_pha :
    after (fun s => { s with a := 0x12, sp := 0x00 }) [(0x0200, 0x48)]
      (fun t => (t.cpu.sp, t.cpu.pc, t.bus.mem.read 0x0100, t.bus.cycles)) =
      some (0xFF, 0x0201, 0x12, 3) := by decide

/-- A27: `PHP`. -/
theorem test_php :
    after (fun s => { s with sp := 0x10, p := { s.p with b := true, d := true, i := true, z := true, v := true } })
      [(0x0200, 0x08)]
      (fun t => (t.cpu.sp, t.cpu.pc, t.bus.mem.read 0x0110, t.bus.cycles)) =
      some (0x0F, 0x0201, 0x7E, 3) := by decide

/-- A28: `PLA`. -/
theorem test_pla :
    after (fun s => { s with sp := 0xFF, a := 0x33 }) [(0x0100, 0x00), (0x0200, 0x68)]
      (fun t => (t.cpu.a, t.cpu.sp, t.cpu.pc, t.cpu.p.z, t.bus.cycles)) =
      some (0x00, 0x00, 0x0201, true, 4) := by decide

/-- A30: `PLP`. -/
theorem test_plp :
    after (fun s => { s with sp := 0xFD }) [(0x01FE, 0xFF), (0x0200, 0x28)]
      (fun t => (t.cpu.sp, t.cpu.pc, t.cpu.p.pack, t.bus.cycles)) =
      some (0xFE, 0x0201, 0xFF, 4) := by decide

/-- B2: `ADC #$80`. -/
theorem test_adc :
    after (fun s => { s with a := 0x80 }) [(0x0200, 0x69), (0x0201, 0x80)]
      (fun t => (t.cpu.a, t.cpu.pc, t.cpu.p.v, t.cpu.p.z, t.cpu.p.c, t.bus.cycles)) =
      some (0x00, 0x0202, true, true, true, 2) := by decide

/-- B9: `SBC #$FF`. -/
theorem test_sbc :
    after (fun s => { s with a := 0x7F, p := { s.p with c := true } }) [(0x0200, 0xE9), (0x0201, 0xFF)]
      (fun t => (t.cpu.a, t.cpu.pc, t.cpu.p.n, t.cpu.p.v, t.cpu.p.c, t.bus.cycles)) =
      some (0x80, 0x0202, true, true, false, 2) := by decide

/-- B13: `CMP #$20`. -/
theorem test_cmp :
    after (fun s => { s with a := 0x10, p := { s.p with c := true } }) [(0x0200, 0xC9), (0x0201, 0x20)]
      (fun t => (t.cpu.pc, t.cpu.p.n, t.cpu.p.c, t.bus.cycles)) =
      some (0x0202, true, false, 2) := by decide

/-- B17: `CPX $10`. -/
theorem test_cpx :
    after (fun s => { s with x := 0x05 }) [(0x0010, 0x06), (0x0200, 0xE4), (0x0201, 0x10)]
      (fun t => (t.cpu.pc, t.cpu.p.n, t.bus.cycles)) =
      some (0x0202, true, 3) := by decide

/-- B18: `CPY #$7F`. -/
theorem test_cpy :
    after (fun s => { s with y := 0x80 }) [(0x0200, 0xC0), (0x0201, 0x7F)]
      (fun t => (t.cpu.pc, t.cpu.p.c, t.bus.cycles)) =
      some (0x0202, true, 2) := by decide

/-- B20: `INC $12F0,X`. -/
theorem test_inc :
    after (fun s => { s with x := 0x10 }) [(0x0200, 0xFE), (0x0201, 0xF0), (0x0202, 0x12), (0x1300, 0x7F)]
      (fun t => (t.cpu.pc, t.cpu.p.n, t.bus.mem.read 0x1300, t.bus.cycles)) =
      some (0x0203, true, 0x80, 7) := by decide

/-- B22: `DEC $F0,X`. -/
theorem test_dec :
    after (fun s => { s with x := 0x20 }) [(0x0010, 0x01), (0x0200, 0xD6), (0x0201, 0xF0)]
      (fun t => (t.cpu.pc, t.cpu.p.z, t.bus.mem.read 0x0010, t.bus.cycles)) =
      some (0x0202, true, 0x00, 6) := by decide

/-- B23: `INX`. -/
theorem test_inx :
    after (fun s => { s with x := 0xFF, p := { s.p with c := true } }) [(0x0200, 0xE8)]
      (fun t => (t.cpu.x, t.cpu.pc, t.cpu.p.z, t.bus.cycles)) =
      some (0x00, 0x0201, true, 2) := by decide

/-- B24: `INY`. -/
theorem test_iny :
    after (fun s => { s with y := 0x7F }) [(0x0200, 0xC8)]
      (fun t => (t.cpu.y, t.cpu.pc, t.cpu.p.n, t.bus.cycles)) =
      some (0x80, 0x0201, true, 2) := by decide

/-- B25: `DEX`. -/
theorem test_dex :
    after (fun s => { s with x := 0x00 }) [(0x0200, 0xCA)]
      (fun t => (t.cpu.x, t.cpu.pc, t.cpu.p.n, t.bus.cycles)) =
      some (0xFF, 0x0201, true, 2) := by decide

/-- B26: `DEY`. -/
theorem test_dey :
    after (fun s => { s with y := 0x01 }) [(0x0200, 0x88)]
      (fun t => (t.cpu.y, t.cpu.pc, t.cpu.p.z, t.bus.cycles)) =
      some (0x00, 0x0201, true, 2) := by decide

/-- C1: `AND #$0F`. -/
theorem test_and :
    after (fun s => { s with a := 0xF0 }) [(0x0200, 0x29), (0x0201, 0x0F)]
      (fun t => (t.cpu.a, t.cpu.pc, t.cpu.p.z, t.bus.cycles)) =
      some (0x00, 0x0202, true, 2) := by decide

/-- C3: `ORA $10`. -/
theorem test_ora :
    after (fun s => { s with a := 0x01 }) [(0x0010, 0x80), (0x0200, 0x05), (0x0201, 0x10)]
      (fun t => (t.cpu.a, t.cpu.pc, t.cpu.p.n, t.bus.cycles)) =
      some (0x81, 0x0202, true, 3) := by decide

/-- C5: `EOR #$FF`. -/
theorem test_eor :
    after (fun s => { s with a := 0x0F }) [(0x0200, 0x49), (0x0201, 0xFF)]
      (fun t => (t.cpu.a, t.cpu.pc, t.cpu.p.n, t.bus.cycles)) =
      some (0xF0, 0x0202, true, 2) := by decide

/-- C7: `BIT $10`. -/
theorem test_bit :
    after (fun s => { s with a := 0x01 }) [(0x0010, 0xC0), (0x0200, 0x24), (0x0201, 0x10)]
      (fun t => (t.cpu.pc, t.cpu.p.n, t.cpu.p.v, t.cpu.p.z, t.bus.cycles)) =
      some (0x0202, true, true, true, 3) := by decide

/-- C10: `ASL A`. -/
theorem test_asl :
    after (fun s => { s with a := 0x41, p := { s.p with c := true } }) [(0x0200, 0x0A)]
      (fun t => (t.cpu.a, t.cpu.pc, t.cpu.p.n, t.cpu.p.c, t.bus.cycles)) =
      some (0x82, 0x0201, true, false, 2) := by decide

/-- C13: `LSR A`. -/
theorem test_lsr :
    after (fun s => { s with a := 0x01, p := { s.p with n := true } }) [(0x0200, 0x4A)]
      (fun t => (t.cpu.a, t.cpu.pc, t.cpu.p.n, t.cpu.p.z, t.cpu.p.c, t.bus.cycles)) =
      some (0x00, 0x0201, false, true, true, 2) := by decide

/-- C15: `ROL $10`. -/
theorem test_rol :
    after (fun s => { s with p := { s.p with c := true } }) [(0x0010, 0x40), (0x0200, 0x26), (0x0201, 0x10)]
      (fun t => (t.cpu.pc, t.cpu.p.n, t.cpu.p.c, t.bus.mem.read 0x0010, t.bus.cycles)) =
      some (0x0202, true, false, 0x81, 5) := by decide

/-- C18: `ROR $0300`. -/
theorem test_ror :
    after (fun s => { s with p := { s.p with c := true } })
      [(0x0200, 0x6E), (0x0201, 0x00), (0x0202, 0x03), (0x0300, 0x03)]
      (fun t => (t.cpu.pc, t.cpu.p.n, t.bus.mem.read 0x0300, t.bus.cycles)) =
      some (0x0203, true, 0x81, 6) := by decide

/-- D1: `BNE $0207`. -/
theorem test_bne :
    after (id) [(0x0200, 0xD0), (0x0201, 0x05)]
      (fun t => (t.cpu.pc, t.bus.cycles)) =
      some (0x0207, 3) := by decide

/-- D3: `BEQ $0200`. -/
theorem test_beq :
    after (fun s => { s with p := { s.p with z := true } }) [(0x0200, 0xF0), (0x0201, 0xFE)]
      (fun t => (t.cpu.pc, t.bus.cycles)) =
      some (0x0200, 3) := by decide

/-- D4: `BCC $0371`. -/
theorem test_bcc :
    after (fun s => { s with pc := 0x02F0 }) [(0x02F0, 0x90), (0x02F1, 0x7F)]
      (fun t => (t.cpu.pc, t.bus.cycles)) =
      some (0x0371, 4) := by decide

/-- D5: `BCS $02FD`. -/
theorem test_bcs :
    after (fun s => { s with pc := 0x0300, p := { s.p with c := true } }) [(0x0300, 0xB0), (0x0301, 0xFB)]
      (fun t => (t.cpu.pc, t.bus.cycles)) =
      some (0x02FD, 4) := by decide

/-- D6: `BMI $000A`. -/
theorem test_bmi :
    after (fun s => { s with pc := 0xFFF8, p := { s.p with n := true } }) [(0xFFF8, 0x30), (0xFFF9, 0x10)]
      (fun t => (t.cpu.pc, t.bus.cycles)) =
      some (0x000A, 4) := by decide

/-- D7: `BPL $FF82`. -/
theorem test_bpl :
    after (fun s => { s with pc := 0x0000 }) [(0x0000, 0x10), (0x0001, 0x80)]
      (fun t => (t.cpu.pc, t.bus.cycles)) =
      some (0xFF82, 4) := by decide

/-- D8: `BVC $0202`. -/
theorem test_bvc :
    after (id) [(0x0200, 0x50), (0x0201, 0x00)]
      (fun t => (t.cpu.pc, t.bus.cycles)) =
      some (0x0202, 3) := by decide

/-- D9: `BVS $0212`. -/
theorem test_bvs :
    after (fun s => { s with p := { s.p with v := true } }) [(0x0200, 0x70), (0x0201, 0x10)]
      (fun t => (t.cpu.pc, t.bus.cycles)) =
      some (0x0212, 3) := by decide

/-- D13: `JMP ($10FF)`. -/
theorem test_jmp :
    after (id) [(0x0200, 0x6C), (0x0201, 0xFF), (0x0202, 0x10), (0x1000, 0x12), (0x10FF, 0x34), (0x1100, 0x56)]
      (fun t => (t.cpu.pc, t.bus.cycles)) =
      some (0x1234, 5) := by decide

/-- D16: `JSR $1234`. -/
theorem test_jsr :
    after (fun s => { s with sp := 0x00 }) [(0x0200, 0x20), (0x0201, 0x34), (0x0202, 0x12)]
      (fun t => (t.cpu.sp, t.cpu.pc, t.bus.mem.read 0x0100, t.bus.mem.read 0x01FF, t.bus.cycles)) =
      some (0xFE, 0x1234, 0x02, 0x02, 6) := by decide

/-- D20: `RTS`. -/
theorem test_rts :
    after (fun s => { s with sp := 0xFF }) [(0x0100, 0x33), (0x0101, 0x44), (0x0200, 0x60)]
      (fun t => (t.cpu.sp, t.cpu.pc, t.bus.cycles)) =
      some (0x01, 0x4434, 6) := by decide

/-- D21: `RTI`. -/
theorem test_rti :
    after (fun s => { s with sp := 0xFC, p := { s.p with i := true, b := true } })
      [(0x01FD, 0xC3), (0x01FE, 0x34), (0x01FF, 0x12), (0x0200, 0x40)]
      (fun t => (t.cpu.sp, t.cpu.pc, t.cpu.p.pack, t.bus.cycles)) =
      some (0xFF, 0x1234, 0xE3, 6) := by decide

/-- D23: `BRK`. -/
theorem test_brk :
    after (fun s => { s with sp := 0x01, p := { s.p with i := true } })
      [(0x0200, 0x00), (0x0201, 0xEA), (0xFFFE, 0x34), (0xFFFF, 0x12)]
      (fun t => ((t.cpu.sp, t.cpu.pc), t.cpu.p.b, (t.bus.mem.read 0x0100, t.bus.mem.read 0x0101, t.bus.mem.read 0x01FF),
        t.bus.cycles)) =
      some ((0xFE, 0x1234), true, (0x02, 0x02, 0x34), 7) := by decide

/-- D24: `CLC`. -/
theorem test_clc :
    after (fun s => { s with p := { s.p with c := true } }) [(0x0200, 0x18)]
      (fun t => (t.cpu.pc, t.cpu.p.c, t.bus.cycles)) =
      some (0x0201, false, 2) := by decide

/-- D25: `SEC`. -/
theorem test_sec :
    after (id) [(0x0200, 0x38)]
      (fun t => (t.cpu.pc, t.cpu.p.c, t.bus.cycles)) =
      some (0x0201, true, 2) := by decide

/-- D26: `CLI`. -/
theorem test_cli :
    after (fun s => { s with p := { s.p with i := true } }) [(0x0200, 0x58)]
      (fun t => (t.cpu.pc, t.cpu.p.i, t.bus.cycles)) =
      some (0x0201, false, 2) := by decide

/-- D27: `SEI`. -/
theorem test_sei :
    after (id) [(0x0200, 0x78)]
      (fun t => (t.cpu.pc, t.cpu.p.i, t.bus.cycles)) =
      some (0x0201, true, 2) := by decide

/-- D28: `CLD`. -/
theorem test_cld :
    after (fun s => { s with p := { s.p with d := true } }) [(0x0200, 0xD8)]
      (fun t => (t.cpu.pc, t.cpu.p.d, t.bus.cycles)) =
      some (0x0201, false, 2) := by decide

/-- D29: `SED`. -/
theorem test_sed :
    after (id) [(0x0200, 0xF8)]
      (fun t => (t.cpu.pc, t.cpu.p.d, t.bus.cycles)) =
      some (0x0201, true, 2) := by decide

/-- D30: `CLV`. -/
theorem test_clv :
    after (fun s => { s with p := { s.p with v := true } }) [(0x0200, 0xB8)]
      (fun t => (t.cpu.pc, t.cpu.p.v, t.bus.cycles)) =
      some (0x0201, false, 2) := by decide

/-- D31: `NOP`. -/
theorem test_nop :
    after (fun s => { s with p := { s.p with n := true, c := true } }) [(0x0200, 0xEA)]
      (fun t => (t.cpu.pc, t.bus.cycles)) =
      some (0x0201, 2) := by decide

/-! Cases the vectors above do not show. -/

/-- B30 (the source's example S1): `ADC #$01` in decimal mode; `V` is a draw and is not looked at. -/
theorem test_adc_decimal :
    after (fun s => { s with a := 0x09, p := { s.p with d := true } }) [(0x0200, 0x69), (0x0201, 0x01)]
      (fun t => (t.cpu.a, t.cpu.pc, t.cpu.p.c, t.cpu.p.z, t.bus.cycles)) =
      some (0x10, 0x0202, false, false, 2) := by decide

/-- Rule R134: 0x00 - 0x01 in decimal mode, no borrow in, is 0x99 with a borrow out. -/
theorem test_sbc_decimal :
    after (fun s => { s with p := { s.p with d := true, c := true } }) [(0x0200, 0xE9), (0x0201, 0x01)]
      (fun t => (t.cpu.a, t.cpu.p.c, t.cpu.p.n)) = some (0x99, false, true) := by decide

/-- E2: an illegal opcode. -/
theorem test_illegal :
    after id [(0x0200, 0x02)] (fun t => (t.cpu.pc, t.cpu.ir, t.cpu.es, t.bus.cycles, t.bus.trace)) =
      some (0x0201, 0x02, ⟨false, false, false, true⟩, 0, [.cycles 0, .peek 0x0200]) := by decide

/-- A4: the page-crossing penalty is one event of its own, before the data peek. -/
theorem test_trace_page_crossing :
    after (fun s => { s with x := 0x01 }) [(0x0200, 0xBD), (0x0201, 0xFF), (0x0202, 0x10)] (fun t => t.bus.trace) =
      some [.peek 0x1100, .cycles 1, .peek 0x0202, .peek 0x0201, .cycles 4, .peek 0x0200] := by decide

/-- The state of E4: NOP, its opcode peek raising an NMI, with `I`, `D`, `B` and `C` set. -/
def stateE4 : State :=
  let s := start (fun s => { s with p := ⟨false, false, true, true, true, false, true⟩ })
    [(0x0200, 0xEA), (0xFFFB, 0x40)]
  { s with bus := { s.bus with script := [⟨none, ⟨false, true, false⟩⟩] } }

/-- E4: the NMI is entered at the boundary, whatever `I`; the pushed byte has bit 4 clear. -/
theorem test_nmi_entry :
    (stepped stateE4).map (fun t => (t.cpu.pc, t.cpu.sp, t.cpu.p.pack, t.cpu.es.nmi, t.bus.mem.read 0x01FD)) =
      some (0x4000, 0xFC, 0x35, false, 0x2D) ∧
    (stepped stateE4).map (fun t => (t.bus.cycles, t.bus.mem.read 0x01FF, t.bus.mem.read 0x01FE)) =
      some (9, 0x02, 0x01) := by decide

/-- F1: `reset()`. -/
theorem test_reset :
    let s := hostReset (start (fun s => { s with
      sp := 0x78, pc := 0xABCD, p := { s.p with n := true, d := true }, es := ⟨true, false, true, false⟩ })
      [(0xFFFD, 0x10)])
    s.cpu.pc = 0x1000 ∧ s.cpu.sp = 0x78 ∧ s.cpu.p.pack = 0xAC ∧ s.cpu.es = ⟨false, false, false, false⟩ ∧
      s.bus.trace = [.peek 0xFFFD, .peek 0xFFFC] := by decide

/-- From reset, the word placed is the instruction the next step runs. -/
theorem test_withFetchWord :
    (stepped (State.reset.withFetchWord 16 0x12A9)).map (fun t => (t.cpu.a, t.cpu.pc)) = some (0x12, 0x0002) := by
  decide

/-- Patterns that are legal, those decision D18 suggests. -/
def patterns : Config.BoolPatterns := ⟨0xFAB1FAB2, 0xBAD1BAD2⟩

/-- The processor of vector G1. -/
def cpuG1 : ProcessorState :=
  ⟨0x12, 0x34, 0x56, 0xFD, 0x1234, 0xEA, ⟨true, false, false, false, true, false, true⟩, ⟨false, false, false, false⟩⟩

/-- G1: the 68 bytes. -/
theorem test_save :
    save patterns cpuG1 =
      [0x08, 0, 0, 0, 0x4D, 0x36, 0x35, 0x30, 0x32, 0x4C, 0x6F, 0x77] ++
      [0x12, 0, 0, 0, 0x34, 0, 0, 0, 0x56, 0, 0, 0, 0xFD, 0, 0, 0, 0xEA, 0, 0, 0, 0x34, 0x12, 0, 0] ++
      [0xB2, 0xFA, 0xB1, 0xFA, 0xD2, 0xBA, 0xD1, 0xBA, 0xD2, 0xBA, 0xD1, 0xBA, 0xD2, 0xBA, 0xD1, 0xBA] ++
      [0xB2, 0xFA, 0xB1, 0xFA, 0xB2, 0xFA, 0xB1, 0xFA, 0xB2, 0xFA, 0xB1, 0xFA, 0, 0, 0, 0] := by decide

/-- G3b, G3d, G3e, G3f: each field that is out of range. -/
theorem test_load_rejects :
    parseSnapshot patterns (0x07 :: (save patterns cpuG1).drop 1) = none ∧
    parseSnapshot patterns ((save patterns cpuG1).set 13 0x01) = none ∧
    parseSnapshot patterns ((save patterns cpuG1).set 36 0x01) = none ∧
    parseSnapshot patterns ((save patterns cpuG1).set 64 0x10) = none := by decide

/-! Witnesses: states and operands that meet the hypotheses of the obligations. -/

/-- A NOP at the start, plain RAM, no hook. -/
def plain : State := start id [(0x0200, 0xEA)]

theorem test_witness_DecodeOfEncode :
    (Instr.lda (.mem (.absx 0xFFFF))).wf = true ∧ encode (.lda (.mem (.absx 0xFFFF))) = some [0xBD, 0xFF, 0xFF] := by
  decide

theorem test_witness_EncodeOfDecode : decode [0x00, 0xEA, 0x40] = .ok (.brk 0xEA, [0x40]) := rfl

theorem test_witness_OpcodeFixesLength :
    ¬ opcodeLength 0xAD ≤ [(0x34 : Byte)].length + 1 ∧ opcodeLength 0xAD ≤ [(0x34 : Byte), 0x12].length + 1 := by decide

/-- Every mode at an operand that wraps or crosses. -/
theorem test_witness_EffectiveAddresses :
    let s := start (fun s => { s with x := 0x01, y := 0x02 }) [(0x0000, 0x12), (0x00FF, 0xFF)]
    s.bus.script = [] ∧ addressOf (.zp 0xFF) s = 0x00FF ∧ addressOf (.zpx 0xFF) s = 0x0000 ∧
    addressOf (.zpy 0xFF) s = 0x0001 ∧ addressOf (.abs 0xFFFF) s = 0xFFFF ∧
    effectiveAddress (.absx 0xFFFF) s = (⟨0x0000, true⟩, s) ∧ effectiveAddress (.absy 0x10FD) s = (⟨0x10FF, false⟩, s) ∧
    addressOf (.indx 0xFE) s = 0x12FF ∧ (effectiveAddress (.indy 0xFF) s).1 = ⟨0x1301, true⟩ := by decide

theorem test_witness_PlainBusReadsStoredByte :
    let s := start (fun s => { s with sp := 0xFF, pc := 0xFFFF }) [(0x0010, 0x7F), (0x0100, 0x33), (0xFFFF, 0x44)]
    s.bus.script = [] ∧ (readOperand (.mem (.zp 0x10)) s).1 = 0x7F ∧ byteRead (.zp 0x10) s = 0x7F ∧
    (fetch s).1 = 0x44 ∧ (pull s).1 = 0x33 := by decide

/-- A Bus with a device: the script's byte hides the one stored, the answer raises an NMI, and the second access finds the
second answer. -/
theorem test_busAnswers :
    let s : State := { plain with bus := { plain.bus with
      script := [⟨some 0x5A, ⟨false, true, false⟩⟩, ⟨none, ⟨true, false, false⟩⟩] } }
    (peek 0x0010 s).1 = 0x5A ∧ (peek 0x0010 s).2.cpu.es = ⟨false, true, false, false⟩ ∧
    (poke 0x0010 0x11 (peek 0x0010 s).2).cpu.es = ⟨true, true, false, false⟩ ∧
    (poke 0x0010 0x11 (peek 0x0010 s).2).bus.script = [] := by decide

/-- The fetch reads what the Bus answers, not what is stored: LDA #$7F, across the end of memory. -/
theorem test_fetchThroughBus :
    let s := start (fun s => { s with pc := 0xFFFF }) []
    let f := fetchInstr { s with bus := { s.bus with script := [⟨some 0xA9, .none⟩, ⟨some 0x7F, .none⟩] } }
    f.1 = .lda (.imm 0x7F) ∧ f.2.cpu.ir = 0xA9 ∧ f.2.cpu.pc = 0x0001 := by decide

theorem test_witness_PeekAfterPoke :
    plain.bus.script = [] ∧ plain.bus.mem.wf = true ∧ (0xFFFF : Word) ≠ 0x0000 ∧
    (peek 0xFFFF (poke 0xFFFF 0x80 plain)).1 = 0x80 ∧ (peek 0x0200 (poke 0x0200 0x00 plain)).1 = 0x00 := by decide

theorem test_witness_StackPrimitives :
    let s := start (fun s => { s with sp := 0x00 }) []
    s.bus.script = [] ∧ s.bus.mem.wf = true ∧ (push 0x12 s).cpu.sp = 0xFF ∧ (pull (push 0x12 s)).1 = 0x12 := by decide

theorem test_witness_StoresWriteRegister : plain.bus.mem.wf = true := by decide

theorem test_witness_PushesStoreByte :
    let s := start (fun s => { s with a := 0x12, sp := 0x00 }) []
    s.bus.mem.wf = true ∧ stackAddr s.cpu.sp = 0x0100 := by decide

theorem test_witness_PullsLoadByte :
    let s := start (fun s => { s with sp := 0xFF }) [(0x0100, 0x80)]
    s.bus.script = [] ∧ (pull s).1 = 0x80 ∧ (pull s).2.cpu.sp = 0x00 := by decide

/-- Signed overflow and carry: 0x80 + 0x80. -/
theorem test_witness_AdcBinary :
    let s := start (fun s => { s with a := 0x80 }) []
    s.cpu.p.d = false ∧ (readOperand (.imm 0x80) s).1 = 0x80 := by decide

theorem test_witness_SbcBinary :
    let s := start (fun s => { s with a := 0x00, p := { s.p with c := false } }) []
    s.cpu.p.d = false ∧ (readOperand (.imm 0xFF) s).1 = 0xFF := by decide

theorem test_witness_DecimalResults :
    let s := start (fun s => { s with a := 0x99, p := { s.p with d := true, c := true } }) []
    let v := (readOperand (.imm 0x99) s).1
    s.cpu.p.d = true ∧ s.cpu.a.toNat / 16 ≤ 9 ∧ s.cpu.a.toNat % 16 ≤ 9 ∧ v.toNat / 16 ≤ 9 ∧ v.toNat % 16 ≤ 9 := by decide

theorem test_witness_DecimalInvalidOperandsRun :
    let s := start (fun s => { s with a := 0x9A, p := { s.p with d := true } }) []
    s.cpu.p.d = true ∧ 9 < s.cpu.a.toNat % 16 := by decide

theorem test_witness_DecimalDefaultsAgree :
    (0x99#8).toNat / 16 ≤ 9 ∧ (0x99#8).toNat % 16 ≤ 9 ∧ (0x00#8).toNat / 16 ≤ 9 ∧ (0x00#8).toNat % 16 ≤ 9 ∧ decAddDefault 0x99 0x00 true = (0x00, true) ∧
    decSubDefault 0x00 0x99 false = (0x00, false) := by decide

theorem test_witness_IncrementsMemory :
    let s := start id [(0x0010, 0xFF)]
    s.bus.mem.wf = true ∧ byteRead (.zp 0x10) s = 0xFF := by decide

theorem test_witness_LogicCombinesBits : (0 : Nat) < 8 ∧ (7 : Nat) < 8 := by decide

theorem test_witness_ShiftsMemory :
    let s := start (fun s => { s with p := { s.p with c := true } }) [(0x0010, 0x81)]
    s.bus.mem.wf = true ∧ byteRead (.zp 0x10) s = 0x81 := by decide

/-- A pointer at the end of its page. -/
theorem test_witness_JumpsSetPc :
    let s := start id [(0x1000, 0x12), (0x10FF, 0x34), (0x1100, 0x56)]
    s.bus.script = [] ∧ (indirectTarget 0x10FF s).1 = 0x1234 := by decide

/-- The stack pointer wraps between the two pushes. -/
theorem test_witness_JsrPushesReturnAddress :
    let s := start (fun s => { s with sp := 0x00, pc := 0x0000 }) []
    s.bus.mem.wf = true ∧ (pushWord (s.cpu.pc - 1) s).bus.mem = [(0x0100, 0xFF), (0x01FF, 0xFF)] := by decide

theorem test_witness_RtsPullsReturnAddress :
    let s := start (fun s => { s with sp := 0xFE }) [(0x0100, 0xFF), (0x01FF, 0xFF)]
    s.bus.script = [] ∧ (pullWord s).1 = 0xFFFF := by decide

theorem test_witness_RtsReturnsFromJsr :
    let s := start (fun s => { s with sp := 0x00 }) []
    s.bus.script = [] ∧ s.bus.mem.wf = true := by decide

theorem test_witness_BrkEntersHandler :
    let s := start (fun s => { s with sp := 0x01 }) [(0xFFFE, 0x34), (0xFFFF, 0x12)]
    s.bus.script = [] ∧ s.bus.mem.wf = true := by decide

theorem test_witness_RtiRestoresFlagsAndPc :
    let s := start (fun s => { s with sp := 0xFD }) [(0x0100, 0x12), (0x01FE, 0xC3), (0x01FF, 0x34)]
    s.bus.script = [] ∧ (pull s).1 = 0xC3 := by decide

theorem test_witness_IllegalRaisesFatal : isIllegalOpcode 0x02 = true ∧ isIllegalOpcode 0xFF = true := by decide

/-- The vectors at both ends of the range. -/
theorem test_witness_InterruptEntryEffect :
    plain.bus.script = [] ∧ plain.bus.mem.wf = true ∧ (0xFFFE : Word).toNat < 0xFFFF ∧ 0x01FF < (0xFFFE : Word).toNat ∧
    (0x0200 : Word).toNat < 0xFFFF ∧ 0x01FF < (0x0200 : Word).toNat := by decide

/-- A state for each clause: both requests, an IRQ with `I` clear, one with `I` set, no request. -/
theorem test_witness_InterruptPriority :
    let both := start (fun s => { s with es := ⟨true, true, false, false⟩ }) []
    let open_ := start (fun s => { s with es := ⟨true, false, false, false⟩ }) []
    let masked := start (fun s => { s with p := { s.p with i := true }, es := ⟨true, false, false, false⟩ }) []
    both.cpu.es.nmi = true ∧ (boundary both).cpu.es = ⟨true, false, false, false⟩ ∧
    (open_.cpu.es.nmi = false ∧ open_.cpu.es.irq = true ∧ open_.cpu.p.i = false) ∧
    (masked.cpu.es.nmi = false ∧ masked.cpu.es.irq = true ∧ masked.cpu.p.i = true) ∧
    (plain.cpu.es.nmi = false ∧ plain.cpu.es.irq = false) := by decide

theorem test_witness_RtiReturnsFromHandler : plain.bus.script = [] ∧ plain.bus.mem.wf = true := by decide

/-- Instructions of one, two and three bytes, the last across the end of memory. -/
theorem test_witness_StepRunsDecodedInstruction :
    plain.Runs ∧ plain.bus.script = [] ∧ plain.hook = [] ∧ decode [0xEA, 0x00, 0x00] = .ok (.nop, [0x00, 0x00]) ∧
    decode [0xA9, 0x12, 0x00] = .ok (.lda (.imm 0x12), [0x00]) ∧
    (let s := start (fun s => { s with pc := 0xFFFE }) [(0x0000, 0x12), (0xFFFE, 0xAD), (0xFFFF, 0x34)]
     s.Runs ∧ s.bus.script = [] ∧ s.hook = [] ∧
     decode [s.bus.mem.read (s.cpu.pc + 0).toNat, s.bus.mem.read (s.cpu.pc + 1).toNat,
       s.bus.mem.read (s.cpu.pc + 2).toNat] = .ok (.lda (.mem (.abs 0x1234)), [])) :=
  ⟨by decide, rfl, rfl, rfl, rfl, by decide, rfl, rfl, rfl⟩

/-- A Bus that answers and a hook that goes on. -/
theorem test_witness_StepOnAnyBus :
    stateE4.Runs ∧ plain.hook = [] ∧
    (let s : State := { plain with hook := [.goOn ⟨true, false, false⟩, .stop] }
     s.Runs ∧ s.hook = .goOn ⟨true, false, false⟩ :: [.stop] ∧ (consultHook s).2.cpu.es = ⟨true, false, false, false⟩ ∧
     (consultHook s).2.hook = [.stop] ∧ consultHook (consultHook s).2 = (true, { (consultHook s).2 with hook := [] })) := by
  decide

/-- An IRQ raised by a push of an NMI entry is kept, and is masked by the `I` the entry sets; whether an NMI raised there is
kept is free (R207 and R211, log entry 13). -/
theorem test_requestsDuringEntry :
    let s := start (fun s => { s with es := ⟨false, true, false, false⟩ }) []
    let t := boundary { s with bus := { s.bus with script := [⟨none, ⟨true, true, false⟩⟩] } }
    t.cpu.es = ⟨true, Config.keepsRequestDuringEntry, false, false⟩ ∧ t.cpu.p.i = true := ⟨rfl, rfl⟩

/-- A state for each outcome. -/
theorem test_witness_StepOutcomes :
    plain.Runs ∧ (start (fun s => { s with es := ⟨false, false, true, true⟩ }) []).cpu.es.fatal = true ∧
    (let s := start (fun s => { s with es := ⟨false, false, true, false⟩ }) []
     s.cpu.es.fatal = false ∧ s.cpu.es.stop = true) ∧
    (let s : State := { plain with hook := [.stop] }
     s.cpu.es.fatal = false ∧ s.cpu.es.stop = false ∧ s.hook = .stop :: []) := by decide

/-- One step that sets `ES.Fatal` and one that does not. -/
theorem test_witness_OnlyIllegalIsFatal :
    (∃ t, step plain = .next t ∧ t.cpu.es.fatal = false) ∧
    (∃ t, step (start id [(0x0200, 0xFF)]) = .next t ∧ t.cpu.es.fatal = true) :=
  ⟨⟨_, rfl, by decide⟩, ⟨_, rfl, by decide⟩⟩

theorem test_witness_FatalIsSticky :
    (start (fun s => { s with es := ⟨false, false, false, true⟩ }) []).cpu.es.fatal = true := by decide

/-- Two steps of a run, and of a call whose step 1 clears a pending NMI. -/
theorem test_witness_ExecuteIteratesStep :
    (∃ t, Host.Core.run core 2 plain = .next t ∧ t.bus.cycles = 9) ∧
    (let s := start (fun s => { s with es := ⟨false, true, false, false⟩ }) []
     ∃ t, Host.Core.run core 2 { s with cpu := { s.cpu with es := ⟨false, false, false, false⟩ } } = .next t ∧
       execute 2 s = ⟨true, t⟩) :=
  ⟨⟨_, rfl, by decide⟩, ⟨_, rfl, by decide⟩⟩

/-- A state for each way the loop ends: FatalError, StopExecution, a stop of the hook; and one that runs. -/
theorem test_witness_ExecuteReturnsAlive :
    (start (fun s => { s with es := ⟨false, false, false, true⟩ }) []).cpu.es.fatal = true ∧
    (let s := start (fun s => { s with es := ⟨true, false, true, false⟩ }) []
     s.cpu.es.fatal = false ∧ s.cpu.es.stop = true ∧ executeLoop 1 s = ⟨true, s⟩) ∧
    (let s : State := { plain with hook := [.stop, .goOn .none] }
     s.cpu.es.fatal = false ∧ s.cpu.es.stop = false ∧
     executeLoop 1 s = ⟨true, { plain with hook := [.goOn .none] }⟩) ∧
    plain.Runs := by decide

theorem test_witness_FlagWriters :
    (∃ t, exec (.sta (.zp 0x10)) plain = .next t) ∧ .n ∉ (Instr.sta (.zp 0x10)).writes ∧
    (∃ t, exec (.inx) plain = .next t) ∧ .c ∉ Instr.inx.writes := ⟨⟨_, rfl⟩, by decide, ⟨_, rfl⟩, by decide⟩

theorem test_witness_RegisterWriters :
    (∃ t, exec (.asl (.mem (.zp 0x10))) plain = .next t) ∧ .a ∉ (Instr.asl (.mem (.zp 0x10))).writes ∧
    .memory ∉ (Instr.asl .acc).writes ∧ ∀ op, Instr.asl .acc ≠ .illegal op :=
  ⟨⟨_, rfl⟩, by decide, by decide, nofun⟩

/-- BRK makes all five accesses. -/
theorem test_witness_RoutineAccessBound :
    ∃ t, exec (.brk 0x00) plain = .next t ∧ traceAccesses t.bus.trace = 5 := ⟨_, rfl, by decide⟩

theorem test_witness_StepKeepsInvariant : plain.Inv ∧ ∃ t, step plain = .next t := ⟨by decide, _, rfl⟩

/-- The vector as a device answers it, with a request that may survive the clear (log entry 18). -/
theorem test_witness_ResetOperation :
    let s : State := { plain with bus := { plain.bus with script := [⟨some 0x34, .none⟩, ⟨some 0x12, ⟨true, false, false⟩⟩] } }
    plain.bus.script = [] ∧ (hostReset s).cpu.pc = 0x1234 ∧
    (hostReset s).cpu.es = ⟨Config.keepsRequestDuringReset, false, false, false⟩ := ⟨rfl, rfl, rfl⟩

/-- A Bus of plain RAM, and one whose answers hide the bytes stored. -/
theorem test_witness_ResetIdempotent :
    (hostReset (hostReset plain)).cpu.pc = (hostReset plain).cpu.pc ∧
    (let s : State := { plain with bus := { plain.bus with script := List.replicate 4 ⟨some 0x10, .none⟩ } }
     (hostReset (hostReset s)).cpu.pc = (hostReset s).cpu.pc ∧ (hostReset s).cpu.pc = 0x1010 ∧
     ∀ ans ∈ s.bus.script.take 4, ans.raises = .none) := by decide

/-- Legal patterns, and a dead instance, which loads a live snapshot in every field but perhaps `ES.Fatal`. -/
theorem test_witness_SnapshotRoundTrip :
    let dead := start (fun s => { s with es := ⟨false, false, false, true⟩ }) []
    patterns.Legal ∧ plain.cpu.es.fatal = false ∧ dead.cpu.es.fatal = true ∧ cpuG1.es.fatal = false := by decide

/-- A short stream, a wrong tag, and a success. -/
theorem test_witness_LoadIsAllOrNothing :
    ((save patterns cpuG1).take 67).length < 68 ∧ ((save patterns cpuG1).set 9 0x48).take 12 ≠ snapshotTag ∧
    (loadSnapshot patterns (save patterns cpuG1) plain).1 = true := by decide

end Sys2Proof.Tests
end

/-! SUPPORT. What each instruction writes (rules R12 to R17, R23): the rule of each shared operation, composed. -/

namespace Sys2Proof.Machine

/-- The part reads the same in both states. -/
def SamePart (s t : State) : Part → Prop
  | .a => t.cpu.a = s.cpu.a
  | .x => t.cpu.x = s.cpu.x
  | .y => t.cpu.y = s.cpu.y
  | .sp => t.cpu.sp = s.cpu.sp
  | .pc => t.cpu.pc = s.cpu.pc
  | .n => t.cpu.p.n = s.cpu.p.n
  | .v => t.cpu.p.v = s.cpu.p.v
  | .b => t.cpu.p.b = s.cpu.p.b
  | .d => t.cpu.p.d = s.cpu.p.d
  | .i => t.cpu.p.i = s.cpu.p.i
  | .z => t.cpu.p.z = s.cpu.p.z
  | .c => t.cpu.p.c = s.cpu.p.c
  | .memory => t.bus.mem = s.bus.mem

theorem SamePart.trans {s t u : State} {p : Part} (h : SamePart s t p) (k : SamePart t u p) : SamePart s u p := by
  cases p <;> exact Eq.trans k h

/-- From `s` to `t` the engine wrote at most the parts listed and not `IR`, and `ES` and the hook changed by the
collaborators alone (rules R12 to R17, R23). -/
structure Writes (ps : List Part) (s t : State) : Prop where
  same : ∀ p, p ∉ ps → SamePart s t p
  ir : t.cpu.ir = s.cpu.ir
  collaborators : Collaborators s t

theorem Writes.trans {ps qs : List Part} {s t u : State} (h : Writes ps s t) (k : Writes qs t u) :
    Writes (ps ++ qs) s u where
  same p hp := by
    rw [List.mem_append, not_or] at hp
    exact (h.same p hp.1).trans (k.same p hp.2)
  ir := k.ir.trans h.ir
  collaborators := h.collaborators.trans k.collaborators

theorem Writes.mono {ps qs : List Part} {s t : State} (h : Writes ps s t) (hq : ps ⊆ qs) : Writes qs s t :=
  ⟨fun p hp => h.same p fun hm => hp (hq hm), h.ir, h.collaborators⟩

theorem Writes.refl (s : State) : Writes [] s s :=
  ⟨fun p _ => by cases p <;> rfl, rfl, .refl s⟩

/-- What only used the Bus wrote memory at most. -/
theorem BusOnly.writes_memory {s t : State} (h : BusOnly s t) : Writes [.memory] s t where
  same p hp := by
    cases p with
    | memory => simp at hp
    | a => exact h.a
    | x => exact h.x
    | y => exact h.y
    | sp => exact h.sp
    | pc => exact h.pc
    | _ => simp only [SamePart, h.p]
  ir := h.ir
  collaborators := h.collaborators

/-- What only used the Bus and left memory alone wrote nothing. -/
theorem BusOnly.writes {s t : State} (h : BusOnly s t) (hm : t.bus.mem = s.bus.mem) : Writes [] s t where
  same p _ := by
    cases p with
    | memory => exact hm
    | _ => exact h.writes_memory.same _ (by simp)
  ir := h.ir
  collaborators := h.collaborators

theorem Frame.collaborators {addrs : List Word} {n : Nat} {s t : State} (h : Frame addrs n s t) : Collaborators s t :=
  h.2.1

/-! The register updates. -/

theorem State.setA_writes (s : State) (v : Byte) : Writes [.a] s (s.setA v) where
  same p hp := by
    cases p with
    | a => simp at hp
    | _ => rfl
  ir := rfl
  collaborators := (Collaborators.refl s).setA v

theorem State.setX_writes (s : State) (v : Byte) : Writes [.x] s (s.setX v) where
  same p hp := by
    cases p with
    | x => simp at hp
    | _ => rfl
  ir := rfl
  collaborators := (Collaborators.refl s).setX v

theorem State.setY_writes (s : State) (v : Byte) : Writes [.y] s (s.setY v) where
  same p hp := by
    cases p with
    | y => simp at hp
    | _ => rfl
  ir := rfl
  collaborators := (Collaborators.refl s).setY v

theorem State.setSP_writes (s : State) (v : Byte) : Writes [.sp] s (s.setSP v) where
  same p hp := by
    cases p with
    | sp => simp at hp
    | _ => rfl
  ir := rfl
  collaborators := (Collaborators.refl s).setSP v

theorem State.setPC_writes (s : State) (v : Word) : Writes [.pc] s (s.setPC v) where
  same p hp := by
    cases p with
    | pc => simp at hp
    | _ => rfl
  ir := rfl
  collaborators := (Collaborators.refl s).setPC v

/-- A write of the flags writes those it does not keep. -/
theorem State.setP_writes {ps : List Part} {s : State} {q : Flags} (h : ∀ p, p ∉ ps → SamePart s (s.setP q) p) :
    Writes ps s (s.setP q) := ⟨h, rfl, (Collaborators.refl s).setP q⟩

theorem State.setNZ_writes (s : State) (v : Byte) : Writes [.n, .z] s (s.setNZ v) :=
  State.setP_writes fun p hp => by
    cases p with
    | n | z => simp at hp
    | _ => rfl

/-- The flags of compares, shifts and rotates: `SetNZ` and `C` (rules R136 to R138, R154 to R157). -/
theorem State.setNZC_writes (s : State) (r : Byte) (c : Bool) :
    Writes [.n, .z, .c] s (s.setP { s.cpu.p.setNZ r with c := c }) :=
  State.setP_writes fun p hp => by
    cases p with
    | n | z | c => simp at hp
    | _ => rfl

theorem State.setBit_writes (s : State) (a m : Byte) : Writes [.n, .v, .z] s (s.setP (s.cpu.p.setBit a m)) :=
  State.setP_writes fun p hp => by
    cases p with
    | n | v | z => simp at hp
    | _ => rfl

/-- `LoadP` writes all seven flags (rule R22). -/
theorem State.unpack_writes (s : State) (b : Byte) :
    Writes [.n, .v, .b, .d, .i, .z, .c] s (s.setP (Flags.unpack b)) :=
  State.setP_writes fun p hp => by
    cases p with
    | n | v | b | d | i | z | c => simp at hp
    | _ => rfl

theorem State.setC_writes (s : State) (c : Bool) : Writes [.c] s (s.setP { s.cpu.p with c := c }) :=
  State.setP_writes fun p hp => by
    cases p with
    | c => simp at hp
    | _ => rfl

theorem State.setD_writes (s : State) (d : Bool) : Writes [.d] s (s.setP { s.cpu.p with d := d }) :=
  State.setP_writes fun p hp => by
    cases p with
    | d => simp at hp
    | _ => rfl

theorem State.setI_writes (s : State) (i : Bool) : Writes [.i] s (s.setP { s.cpu.p with i := i }) :=
  State.setP_writes fun p hp => by
    cases p with
    | i => simp at hp
    | _ => rfl

theorem State.setV_writes (s : State) (v : Bool) : Writes [.v] s (s.setP { s.cpu.p with v := v }) :=
  State.setP_writes fun p hp => by
    cases p with
    | v => simp at hp
    | _ => rfl

theorem State.setB_writes (s : State) (b : Bool) : Writes [.b] s (s.setP { s.cpu.p with b := b }) :=
  State.setP_writes fun p hp => by
    cases p with
    | b => simp at hp
    | _ => rfl

/-! The shared operations. -/

theorem readOperand_writes (m : ReadMode) (s : State) : Writes [] s (readOperand m s).2 :=
  (readOperand_busOnly m s).writes (readOperand_mem m s)

theorem writeOperand_writes (m : EaMode) (v : Byte) (s : State) : Writes [.memory] s (writeOperand m v s) :=
  (writeOperand_busOnly m v s).writes_memory

theorem modifyOperand_writes (m : ModifyMode) (f : Byte → Byte) (s : State) :
    Writes m.writes s (modifyOperand m f s).2 := by
  cases m with
  | acc => exact s.setA_writes _
  | mem m => exact (modifyOperand_mem_busOnly m f s).writes_memory

theorem push_writes (v : Byte) (s : State) : Writes [.sp, .memory] s (push v s) :=
  (s.setSP_writes _).trans (push_frame v s).writes_memory

theorem pull_writes (s : State) : Writes [.sp] s (pull s).2 :=
  (s.setSP_writes _).trans ((pull_frame s).writes rfl)

theorem pushWord_writes (w : Word) (s : State) : Writes [.sp, .memory] s (pushWord w s) :=
  (s.setSP_writes _).trans (pushWord_frame w s).writes_memory

theorem pullWord_writes (s : State) : Writes [.sp] s (pullWord s).2 :=
  (s.setSP_writes _).trans ((pullWord_frame s).writes rfl)

/-- A load writes what its register update does, `N` and `Z`. -/
theorem load_writes {ps : List Part} {set : State → Byte → State} (h : ∀ s v, Writes ps s (set s v)) (m : ReadMode)
    (s : State) : Writes (ps ++ [.n, .z]) s (load m set s) :=
  (readOperand_writes m s).trans ((h _ _).trans (State.setNZ_writes _ _))

theorem transfer_writes {ps : List Part} {set : State → Byte → State} (h : ∀ s v, Writes ps s (set s v)) (v : Byte)
    (s : State) : Writes (ps ++ [.n, .z]) s (transfer v set s) := (h s v).trans (State.setNZ_writes _ v)

theorem addSub_writes (bin : Byte → Byte → Bool → AluResult) (dec : Nat → Byte → Byte → Bool → AluResult) (m : Byte)
    (s : State) : Writes [.a, .n, .v, .z, .c] s (addSub bin dec m s) where
  same p hp := by
    unfold addSub
    cases p with
    | a | n | v | z | c => simp at hp
    | _ => split <;> rfl
  ir := by simp only [addSub_cpu]
  collaborators := (Collaborators.refl s).congr rfl rfl rfl (by simp only [addSub_cpu]) (by rw [addSub_bus]) (by simp)
    rfl (by rw [addSub_bus])

theorem compare_writes (r : Byte) (m : ReadMode) (s : State) : Writes [.n, .z, .c] s (compare r m s) :=
  (readOperand_writes m s).trans (State.setNZC_writes _ _ _)

theorem modifyNZ_writes (m : EaMode) (f : Byte → Byte) (s : State) : Writes [.n, .z, .memory] s (modifyNZ m f s) :=
  ((modifyOperand_writes (.mem m) f s).trans (State.setNZ_writes _ _)).mono (ps := [.memory] ++ [.n, .z]) (by decide)

theorem logic_writes (op : Byte → Byte → Byte) (m : ReadMode) (s : State) : Writes [.a, .n, .z] s (logic op m s) :=
  (readOperand_writes m s).trans ((State.setA_writes _ _).trans (State.setNZ_writes _ _))

theorem shift_writes (m : ModifyMode) (f : Byte → Byte) (out : Nat) (s : State) :
    Writes (m.writes ++ [.n, .z, .c]) s (shift m f out s) :=
  (modifyOperand_writes m f s).trans (State.setNZC_writes _ _ _)

theorem branch_writes (taken : Bool) (d : Byte) (s : State) : Writes [.pc] s (branch taken d s) where
  same p hp := by
    cases p with
    | pc => simp at hp
    | memory => exact branch_mem taken d s
    | _ => simp only [SamePart, branch_cpu]
  ir := by rw [branch_cpu]
  collaborators := (branch_frame taken d s).collaborators

/-- BRK's entry leaves `D` alone (rule R196). -/
theorem takeException_writes (st : Byte) (vec : Word) (s : State) :
    Writes [.sp, .memory, .i, .pc] s (takeException false st vec s) :=
  have pushed : Writes [.sp, .memory] s (push st (pushWord s.cpu.pc s)) :=
    ((pushWord_writes s.cpu.pc s).trans (push_writes st _)).mono (by decide)
  pushed.trans ((State.setI_writes _ true).trans
    (((peekWord_busOnly vec (vec + 1) _).writes rfl).trans (State.setPC_writes _ _)))

theorem returnFromException_writes (s : State) :
    Writes [.sp, .pc, .n, .v, .b, .d, .i, .z, .c] s (returnFromException s) :=
  (pull_writes s).trans ((State.unpack_writes _ _).trans ((pullWord_writes _).trans (State.setPC_writes _ _)))
    |>.mono (by decide)

/-! The instructions. -/

theorem execJmp_writes (m : JmpMode) (s : State) : ∃ t, exec (.jmp m) s = .next t ∧ Writes [.pc] s t := by
  cases m with
  | abs a => exact ⟨_, rfl, s.setPC_writes a⟩
  | ind a => exact ⟨_, rfl, ((indirectTarget_busOnly a s).writes rfl).trans (State.setPC_writes _ _)⟩

/-- Every instruction but an illegal opcode writes at most the parts its rules give it. -/
theorem exec_writes_of_legal (i : Instr) (s : State) (h : ∀ op, i ≠ .illegal op) :
    ∃ t, exec i s = .next t ∧ Writes i.writes s t := by
  cases i with
  | lda m => exact ⟨_, rfl, load_writes State.setA_writes m s⟩
  | ldx m => exact ⟨_, rfl, load_writes State.setX_writes m s⟩
  | ldy m => exact ⟨_, rfl, load_writes State.setY_writes m s⟩
  | sta m => exact ⟨_, rfl, writeOperand_writes m s.cpu.a s⟩
  | stx m => exact ⟨_, rfl, writeOperand_writes m s.cpu.x s⟩
  | sty m => exact ⟨_, rfl, writeOperand_writes m s.cpu.y s⟩
  | tax => exact ⟨_, rfl, transfer_writes State.setX_writes s.cpu.a s⟩
  | tay => exact ⟨_, rfl, transfer_writes State.setY_writes s.cpu.a s⟩
  | tsx => exact ⟨_, rfl, transfer_writes State.setX_writes s.cpu.sp s⟩
  | txa => exact ⟨_, rfl, transfer_writes State.setA_writes s.cpu.x s⟩
  | txs => exact ⟨_, rfl, s.setSP_writes s.cpu.x⟩
  | tya => exact ⟨_, rfl, transfer_writes State.setA_writes s.cpu.y s⟩
  | pha => exact ⟨_, rfl, push_writes s.cpu.a s⟩
  | php => exact ⟨_, rfl, push_writes s.cpu.p.pack s⟩
  | pla =>
    exact ⟨_, rfl, ((pull_writes s).trans ((State.setA_writes _ _).trans (State.setNZ_writes _ _))).mono (by decide)⟩
  | plp => exact ⟨_, rfl, (pull_writes s).trans (State.unpack_writes _ _)⟩
  | adc m => exact ⟨_, rfl, (readOperand_writes m s).trans (addSub_writes _ _ _ _)⟩
  | sbc m => exact ⟨_, rfl, (readOperand_writes m s).trans (addSub_writes _ _ _ _)⟩
  | cmp m => exact ⟨_, rfl, compare_writes s.cpu.a m s⟩
  | cpx m => exact ⟨_, rfl, compare_writes s.cpu.x m s⟩
  | cpy m => exact ⟨_, rfl, compare_writes s.cpu.y m s⟩
  | inc m | dec m => exact ⟨_, rfl, modifyNZ_writes m _ s⟩
  | inx | dex => exact ⟨_, rfl, (s.setX_writes _).trans (State.setNZ_writes _ _)⟩
  | iny | dey => exact ⟨_, rfl, (s.setY_writes _).trans (State.setNZ_writes _ _)⟩
  | and m | ora m | eor m => exact ⟨_, rfl, logic_writes _ m s⟩
  | bit m => exact ⟨_, rfl, (readOperand_writes (.mem m) s).trans (State.setBit_writes _ _ _)⟩
  | asl m | lsr m | rol m | ror m => exact ⟨_, rfl, shift_writes m _ _ s⟩
  | bcc d | bcs d | beq d | bmi d | bne d | bpl d | bvc d | bvs d => exact ⟨_, rfl, branch_writes _ d s⟩
  | jmp m => exact execJmp_writes m s
  | jsr target =>
    exact ⟨_, rfl, ((pushWord_writes _ s).trans (State.setPC_writes _ target)).mono
      (qs := [.sp, .pc, .memory]) (by decide)⟩
  | rts => exact ⟨_, rfl, (pullWord_writes s).trans (State.setPC_writes _ _)⟩
  | clc | sec => exact ⟨_, rfl, s.setC_writes _⟩
  | cld | sed => exact ⟨_, rfl, s.setD_writes _⟩
  | cli | sei => exact ⟨_, rfl, s.setI_writes _⟩
  | clv => exact ⟨_, rfl, s.setV_writes _⟩
  | nop => exact ⟨_, rfl, .refl s⟩
  | brk padding =>
    exact ⟨_, rfl, ((s.setB_writes true).trans (takeException_writes _ vecIrq _)).mono
      (qs := [.sp, .pc, .b, .i, .memory]) (by decide)⟩
  | rti => exact ⟨_, rfl, returnFromException_writes s⟩
  | illegal op => exact absurd rfl (h op)

theorem exec_writes {i : Instr} {s t : State} (h : exec i s = .next t) (hi : ∀ op, i ≠ .illegal op) :
    Writes i.writes s t := by
  obtain ⟨u, hu, hw⟩ := exec_writes_of_legal i s hi
  cases hu.symm.trans h
  exact hw

/-- An illegal opcode raises FatalError and does nothing else (rules R66, R201). -/
theorem exec_illegal {op : Byte} {s t : State} (h : exec (.illegal op) s = .next t) : t = s.raiseFatal := by
  cases h
  rfl

/-- No instruction writes a part its rules do not give it. -/
theorem exec_same {i : Instr} {s t : State} (h : exec i s = .next t) {p : Part} (hp : p ∉ i.writes) :
    SamePart s t p := by
  by_cases hi : ∃ op, i = .illegal op
  · obtain ⟨op, rfl⟩ := hi
    rw [exec_illegal h]
    cases p <;> rfl
  · exact (exec_writes h (not_exists.mp hi)).same p hp

/-- No instruction writes `IR` (rule R23). -/
theorem exec_ir {i : Instr} {s t : State} (h : exec i s = .next t) : t.cpu.ir = s.cpu.ir := by
  by_cases hi : ∃ op, i = .illegal op
  · obtain ⟨op, rfl⟩ := hi
    rw [exec_illegal h, State.raiseFatal_ir]
  · exact (exec_writes h (not_exists.mp hi)).ir

/-- Settles O51: each flag is a part, and an instruction writes only the parts rule R17 lists. -/
theorem flagWriters : Obligations.FlagWriters := fun _ _ _ h =>
  ⟨exec_same (p := .n) h, exec_same (p := .v) h, exec_same (p := .b) h, exec_same (p := .d) h, exec_same (p := .i) h,
    exec_same (p := .z) h, exec_same (p := .c) h⟩

/-- Settles O52: each register and the memory is a part; only an illegal opcode writes `ES` itself. -/
theorem registerWriters : Obligations.RegisterWriters := fun _ _ _ h =>
  ⟨exec_same (p := .a) h, exec_same (p := .x) h, exec_same (p := .y) h, exec_same (p := .sp) h,
    exec_same (p := .pc) h, exec_ir h, exec_same (p := .memory) h, fun hi => (exec_writes h hi).collaborators⟩

end Sys2Proof.Machine

/-! SUPPORT. The decoder: the opcode byte decides the opcode of the instruction, and so that it is well formed. -/

namespace Sys2Proof

/-- The well-formed instructions are those that have an opcode (rules R63, R65). -/
theorem opcode_isSome (i : Instr) : i.opcode.isSome = i.wf := by
  cases i with
  | lda m | ldx m | ldy m | adc m | sbc m | cmp m | cpx m | cpy m | and m | ora m | eor m =>
    cases m with
    | imm d => rfl
    | mem m => cases m <;> rfl
  | asl m | lsr m | rol m | ror m =>
    cases m with
    | acc => rfl
    | mem m => cases m <;> rfl
  | sta m | stx m | sty m | inc m | dec m | bit m => cases m <;> rfl
  | jmp m => cases m <;> rfl
  | illegal op =>
    simp only [Instr.opcode, Instr.wf]
    split <;> simp [*]
  | _ => rfl

/-- A decoded instruction and the same opcode with zero operand bytes: one opcode, and both illegal or neither. -/
theorem decodeInstr_zero_operands (op b1 b2 : Byte) :
    (decodeInstr op b1 b2).opcode = (decodeInstr op 0 0).opcode ∧
    (decodeInstr op b1 b2 = .illegal op ↔ decodeInstr op 0 0 = .illegal op) := by
  unfold decodeInstr
  dsimp only
  generalize op.toNat % 16 = lo
  split
  · unfold decodeRow0; split <;> exact ⟨rfl, by simp⟩
  · unfold decodeRow1; split <;> exact ⟨rfl, by simp⟩
  · unfold decodeRow2; split <;> exact ⟨rfl, by simp⟩
  · unfold decodeRow3; split <;> exact ⟨rfl, by simp⟩
  · unfold decodeRow4; split <;> exact ⟨rfl, by simp⟩
  · unfold decodeRow5; split <;> exact ⟨rfl, by simp⟩
  · unfold decodeRow6; split <;> exact ⟨rfl, by simp⟩
  · unfold decodeRow7; split <;> exact ⟨rfl, by simp⟩
  · unfold decodeRow8; split <;> exact ⟨rfl, by simp⟩
  · unfold decodeRow9; split <;> exact ⟨rfl, by simp⟩
  · unfold decodeRowA; split <;> exact ⟨rfl, by simp⟩
  · unfold decodeRowB; split <;> exact ⟨rfl, by simp⟩
  · unfold decodeRowC; split <;> exact ⟨rfl, by simp⟩
  · unfold decodeRowD; split <;> exact ⟨rfl, by simp⟩
  · unfold decodeRowE; split <;> exact ⟨rfl, by simp⟩
  · unfold decodeRowF; split <;> exact ⟨rfl, by simp⟩

/-- Decoding keeps the opcode (rule R63). -/
theorem decodeInstr_opcode (op b1 b2 : Byte) : (decodeInstr op b1 b2).opcode = some op := by
  rw [(decodeInstr_zero_operands op b1 b2).1]
  revert op
  decide

/-- Whatever the operand bytes, decoding gives a well-formed instruction (rules R63, R64). -/
theorem decodeInstr_wf (op b1 b2 : Byte) : (decodeInstr op b1 b2).wf = true := by
  rw [← opcode_isSome, decodeInstr_opcode, Option.isSome_some]

/-- The constructor of the illegal opcodes has an opcode at the bytes of rule R65 alone, and there it is the byte itself. -/
theorem illegal_opcode_eq_some {op b : Byte} :
    (Instr.illegal op).opcode = some b ↔ isIllegalOpcode op = true ∧ op = b := by
  simp [Instr.opcode]

/-- The bytes that decode to an illegal opcode are those of rule R65. -/
theorem decodeInstr_illegal_iff (op b1 b2 : Byte) :
    decodeInstr op b1 b2 = .illegal op ↔ isIllegalOpcode op = true := by
  constructor
  · intro h
    exact (illegal_opcode_eq_some.mp (h ▸ decodeInstr_opcode op b1 b2)).1
  · intro h
    have listed : illegalOpcodes.map (decodeInstr · 0 0) = illegalOpcodes.map .illegal := rfl
    exact (decodeInstr_zero_operands op b1 b2).2.mpr (List.map_inj_left.mp listed op (List.contains_iff_mem.mp h))

end Sys2Proof

/-! SUPPORT. The fetch on any Bus, and FatalError in a step. -/

namespace Sys2Proof.Machine

/-! The fetch. -/

/-- The opcode is the next answer of the Bus (rule R84). -/
theorem fetch_answered (s : State) : (fetch s).1 = s.bus.answered 0 s.cpu.pc := rfl

/-- The first operand byte is the second answer (rules R58, R84). -/
theorem fetch_afterOpcode_answered (s : State) : (fetch (afterOpcode s)).1 = s.bus.answered 1 (s.cpu.pc + 1) :=
  Bus.answered_drop (b := s.bus) (c := (afterOpcode s).bus) (n := 1) List.drop_one.symm rfl 0

/-- The second operand byte is the third answer (rules R58, R84). -/
theorem fetch_fetch_afterOpcode_answered (s : State) :
    (fetch (fetch (afterOpcode s)).2).1 = s.bus.answered 2 (s.cpu.pc + 2) := by
  have hs : (fetch (afterOpcode s)).2.bus.script = s.bus.script.drop 2 := by
    change s.bus.script.tail.tail = _
    simp only [← List.drop_one, List.drop_drop]
  have hpc : (fetch (afterOpcode s)).2.cpu.pc = s.cpu.pc + 2 := by
    rw [fetch_pc, afterOpcode_pc, BitVec.add_assoc]
    rfl
  rw [fetch_answered, hpc]
  exact Bus.answered_drop hs rfl 0

/-- The fetched instruction is what the opcode fetched and some operand bytes decode to (rules R60, R64). -/
theorem fetchInstr_eq_decodeInstr (s : State) : ∃ b1 b2, (fetchInstr s).1 = decodeInstr (fetch s).1 b1 b2 := by
  rcases fetchInstr_cases s with ⟨-, e⟩ | ⟨-, e⟩ | ⟨-, e⟩ <;> exact ⟨_, _, congrArg Prod.fst e⟩

/-- The fetched instruction has the length its opcode fixes (rules R60, R61). -/
theorem fetchInstr_length (s : State) : (fetchInstr s).1.length = opcodeLength (fetch s).1 := by
  obtain ⟨b1, b2, e⟩ := fetchInstr_eq_decodeInstr s
  rw [e, decodeInstr_length]

/-- The fetched instruction has the opcode fetched (rule R63). -/
theorem fetchInstr_opcode (s : State) : (fetchInstr s).1.opcode = some (fetch s).1 := by
  obtain ⟨b1, b2, e⟩ := fetchInstr_eq_decodeInstr s
  rw [e, decodeInstr_opcode]

/-- Only well-formed instructions are fetched (rule R64). -/
theorem fetchInstr_wf (s : State) : (fetchInstr s).1.wf = true := by
  rw [← opcode_isSome, fetchInstr_opcode, Option.isSome_some]

/-- The instruction is what the next three answers of the Bus decode to (rules R56, R60, R64). -/
theorem fetchInstr_decode (s : State) :
    let bytes := [s.bus.answered 0 s.cpu.pc, s.bus.answered 1 (s.cpu.pc + 1), s.bus.answered 2 (s.cpu.pc + 2)]
    decode bytes = .ok ((fetchInstr s).1, bytes.drop (fetchInstr s).1.length) := by
  rw [fetchInstr_length, ← fetch_answered, ← fetch_afterOpcode_answered, ← fetch_fetch_afterOpcode_answered]
  rcases fetchInstr_cases s with ⟨h, e⟩ | ⟨h, e⟩ | ⟨h, e⟩ <;> simp [decode, h, e]

/-- The fetch writes `IR` and advances `PC` past the instruction (rules R16, R23, R84, R85). -/
theorem fetchInstr_cpu (s : State) :
    (fetchInstr s).2.cpu = { s.cpu with
      ir := (fetch s).1, pc := s.cpu.pc + BitVec.ofNat 16 (fetchInstr s).1.length, es := (fetchInstr s).2.cpu.es } := by
  rw [fetchInstr_length]
  rcases fetchInstr_cases s with ⟨h, e⟩ | ⟨h, e⟩ | ⟨h, e⟩ <;> rw [h, e] <;> apply ProcessorState.ext <;>
    simp [BitVec.add_assoc]

/-- The fetch charges the base cycles and otherwise only peeks (rules R43, R84, R85). -/
theorem fetchInstr_frame (s : State) : Frame [] (cycleTable (fetch s).1) s (fetchInstr s).2 := by
  refine ⟨fun _ _ => by rw [fetchInstr_mem], fetchInstr_collaborators s, ?_, ?_⟩
  all_goals rcases fetchInstr_cases s with ⟨-, e⟩ | ⟨-, e⟩ | ⟨-, e⟩ <;> simp [e]

/-- The Bus calls of a fetch: the opcode peek, the base cycles, a peek for each operand byte (rules R58, R84, R85). -/
theorem fetchInstr_trace (s : State) :
    (fetchInstr s).2.bus.trace =
      [BusEvent.peek (s.cpu.pc + 2), .peek (s.cpu.pc + 1)].drop (3 - (fetchInstr s).1.length) ++
        (.cycles (cycleTable (fetch s).1) :: .peek s.cpu.pc :: s.bus.trace) := by
  rw [fetchInstr_length]
  rcases fetchInstr_cases s with ⟨h, e⟩ | ⟨h, e⟩ | ⟨h, e⟩ <;> rw [h, e]
  · rfl
  · rfl
  · simp [BitVec.add_assoc]

/-- Settles O44, part by part: the decoding, then `PC` and `IR`, the frame, the events. -/
theorem fetchReadsOneInstruction : Obligations.FetchReadsOneInstruction := by
  intro s
  have h0 : s.cpu.pc + BitVec.ofNat 16 0 = s.cpu.pc := BitVec.add_zero _
  simp only [h0, ← fetch_answered]
  exact ⟨fetchInstr_decode s, fetchInstr_wf s, fetchInstr_opcode s, fetchInstr_cpu s, fetchInstr_frame s,
    fetchInstr_trace s⟩

/-! FatalError. -/

theorem interruptEntry_ir (vec : Word) (s : State) : (interruptEntry vec s).cpu.ir = s.cpu.ir := by
  rw [interruptEntry, takeException_cpu, addCycles_cpu]

/-- The boundary does not write `IR` (rules R23, R207). -/
theorem boundary_ir (s : State) : (boundary s).cpu.ir = s.cpu.ir := by
  rcases boundary_cases s with e | ⟨-, e⟩ | ⟨-, -, -, e⟩ <;> rw [e]
  · rw [State.setES_ir, interruptEntry_ir]
  · rw [State.setES_ir, interruptEntry_ir]

/-- Running what was fetched raises FatalError exactly when the opcode fetched is illegal (rules R66, R201). -/
theorem exec_fetchInstr_fatal {s u : State} (hs : s.Alive) (h : exec (fetchInstr s).1 (fetchInstr s).2 = .next u) :
    u.cpu.es.fatal = isIllegalOpcode (fetch s).1 := by
  by_cases hi : ∃ op, (fetchInstr s).1 = .illegal op
  · obtain ⟨op, e⟩ := hi
    obtain ⟨hop, rfl⟩ := illegal_opcode_eq_some.mp (e ▸ fetchInstr_opcode s)
    rw [e] at h
    rw [exec_illegal h, hop, State.raiseFatal_es]
  · obtain ⟨b1, b2, e⟩ := fetchInstr_eq_decodeInstr s
    have hop : isIllegalOpcode (fetch s).1 = false := by
      rw [← Bool.not_eq_true, ← decodeInstr_illegal_iff _ b1 b2, ← e]
      exact fun hill => hi ⟨_, hill⟩
    rw [(exec_writes h (not_exists.mp hi)).collaborators.fatal, (fetchInstr_collaborators s).fatal, hop, hs]

/-- Neither exit condition holds of a live machine that is not stopped, and of no other (rule R82). -/
theorem exitCheck_eq_none {s : State} : exitCheck s = none ↔ s.Alive ∧ s.cpu.es.stop = false := by
  unfold exitCheck State.Alive
  cases s.cpu.es.fatal <;> cases s.cpu.es.stop <;> simp

/-- A running step fetches from a live machine: consulting the hook ends no life (rules R82, R216). -/
theorem State.Runs.alive {s : State} (h : s.Runs) : (consultHook s).2.Alive := by
  obtain ⟨r, hcpu, -⟩ := consultHook_cases s
  rw [State.Alive, hcpu]
  exact (exitCheck_eq_none.mp h.1).1

/-- Settles O46: the instruction alone can raise FatalError, and nothing after the fetch writes `IR`. -/
theorem onlyIllegalIsFatal : Obligations.OnlyIllegalIsFatal := by
  intro s t h
  obtain ⟨hruns, u, hu, rfl⟩ := step_cases h
  rw [boundary_fatal, boundary_ir, exec_ir hu, fetchInstr_cpu]
  exact exec_fetchInstr_fatal hruns.alive hu

end Sys2Proof.Machine

/-! SUPPORT. The stack, the status byte, the dead machine, `reset()` and creation. -/

namespace Sys2Proof.Machine

/-! The stack. -/

/-- A pull after a push gives the byte back, and the registers, on plain RAM (rule R49). -/
theorem pull_push (v : Byte) {s : State} (hs : s.bus.script = []) (hm : s.bus.mem.wf = true) :
    (pull (push v s)).1 = v ∧ (pull (push v s)).2.cpu = s.cpu := by
  have hsp : s.cpu.sp - 1 + 1 = s.cpu.sp := BitVec.sub_add_cancel _ _
  obtain ⟨hes, hplain⟩ := ((Collaborators.refl s).push v).plain hs
  constructor
  · rw [pull_plain hplain, push_sp, hsp, push_mem, Memory.read_write_same hm]
  · apply ProcessorState.ext
    case sp => exact hsp
    case es => exact (((Collaborators.refl s).push v).pull.plain hs).1
    all_goals simp

/-- Settles O10: the addresses and the stack pointer in numbers, then the pull after the push. -/
theorem stackPrimitives : Obligations.StackPrimitives := by
  intro s v
  refine ⟨rfl, ?_, rfl, ?_, stackAddr_toNat _, pull_push v⟩
  · rw [push_sp, BitVec.toNat_sub, Nat.add_comm]
    rfl
  · rw [pull_sp, BitVec.toNat_add]
    rfl

/-! The status byte. -/

theorem Flags.pack_toNat (p : Flags) : p.pack.toNat = 128 * carryNat p.n + 64 * carryNat p.v + 32 + 16 * carryNat p.b +
    8 * carryNat p.d + 4 * carryNat p.i + 2 * carryNat p.z + carryNat p.c := by
  obtain ⟨n, v, b, d, i, z, c⟩ := p
  revert n v b d i z c
  decide

/-- `LoadP(P())` changes nothing (rule R22). -/
theorem Flags.unpack_pack (p : Flags) : Flags.unpack p.pack = p := by
  obtain ⟨n, v, b, d, i, z, c⟩ := p
  revert n v b d i z c
  decide

/-- `P()` after `LoadP(b)` is `b` with bit 5 set (rule R22). -/
theorem Flags.pack_unpack (b : Byte) : (Flags.unpack b).pack = b ||| 0x20 := by
  revert b
  decide

/-- Settles O16: the two laws of rule R22 over the 128 flag states and the 256 bytes. -/
theorem statusBytePacksFlags : Obligations.StatusBytePacksFlags :=
  ⟨Flags.pack_toNat, Flags.unpack_pack, Flags.pack_unpack⟩

/-! A dead machine, `reset()` and creation. -/

/-- A dead machine does not step (rules R25, R82). -/
theorem step_of_fatal {s : State} (h : s.cpu.es.fatal = true) : step s = .fault .fatalError := by
  simp [step, iteration, exitCheck, h]

/-- The loop of `execute` leaves a dead machine as it is and answers false, whatever the count (rule R82). -/
theorem executeLoop_of_fatal {s : State} (h : s.cpu.es.fatal = true) (n : Nat) :
    executeLoop n s = { running := false, state := s } := by
  cases n with
  | zero => simp [executeLoop, h]
  | succ n => simp [executeLoop, step_of_fatal h]

/-- Settles O47: step 1 of `execute` and `reset()` keep `ES.Fatal`, and the loop ends at once. -/
theorem fatalIsSticky : Obligations.FatalIsSticky := by
  intro n s h
  refine ⟨executeLoop_of_fatal (s := beginExecute s) h n, rfl, ?_, ?_⟩
  · rw [← h]
    rfl
  · rw [hostReset_fatal, h]

/-- `reset()` leaves no request where the engine keeps none, or its two peeks raise none (rule R230, log entry 18). -/
theorem hostReset_es_of_quiet {s : State}
    (h : Config.keepsRequestDuringReset = true → ∀ ans ∈ s.bus.script.take 2, ans.raises = .none) :
    (hostReset s).cpu.es = ⟨false, false, false, s.cpu.es.fatal⟩ := by
  rw [hostReset_es]
  cases hk : Config.keepsRequestDuringReset with
  | false => rw [ExecStatus.keepRequests_false, ExecStatus.raiseAll_fatal]
  | true => rw [ExecStatus.keepRequests_true, ExecStatus.raiseAll_none _ _ (h hk)]

/-- Settles O57: of the three fields `reset()` writes, `PC` is alike by the premise, `I` is 1 and no request is left. -/
theorem resetIdempotent : Obligations.ResetIdempotent := by
  intro s hpc hquiet
  have h1 : (hostReset s).cpu.es = ⟨false, false, false, s.cpu.es.fatal⟩ :=
    hostReset_es_of_quiet fun hk ans hans => hquiet hk ans (List.take_subset_take_left _ (by decide) hans)
  have h2 : (hostReset (hostReset s)).cpu.es = ⟨false, false, false, (hostReset s).cpu.es.fatal⟩ := by
    refine hostReset_es_of_quiet fun hk ans hans => hquiet hk ans ?_
    rw [hostReset_script, List.take_drop] at hans
    exact List.mem_of_mem_drop hans
  have hes : (hostReset (hostReset s)).cpu.es = (hostReset s).cpu.es := by rw [h2, h1]
  apply ProcessorState.ext
  case pc => exact hpc
  case es => exact hes
  case p => rw [hostReset_cpu (hostReset s), hostReset_cpu s]
  all_goals rw [hostReset_cpu (hostReset s)]

/-- Settles O58: creation and the vector peeks on an empty plain RAM compute. -/
theorem resetStateIsCreationThenReset : Obligations.ResetStateIsCreationThenReset :=
  ⟨fun _ _ => ⟨rfl, rfl, rfl⟩, rfl, rfl⟩

end Sys2Proof.Machine

/-! SUPPORT. The snapshot: each field read back where `save` puts it. -/

namespace Sys2Proof.Machine

/-- Four bytes that spell a 32-bit number read as that number (rule R251). -/
theorem fieldAt_of_take {blob : List Byte} {offset n : Nat} (h : (blob.drop offset).take 4 = le32 n) (hn : n < 2 ^ 32) :
    fieldAt blob offset = some n := by
  unfold fieldAt
  generalize blob.drop offset = bytes at h ⊢
  rcases bytes with _ | ⟨b0, _ | ⟨b1, _ | ⟨b2, _ | ⟨b3, rest⟩⟩⟩⟩ <;>
    simp only [List.take_succ_cons, List.take_zero, List.take_nil, le32, List.cons.injEq, reduceCtorEq, and_false] at h
  obtain ⟨rfl, rfl, rfl, rfl, -⟩ := h
  simp only [BitVec.toNat_ofNat, Option.some.injEq]
  omega

/-- A register field is read back (rule R252). -/
theorem loadBits_of_take {w : Nat} {blob : List Byte} {offset : Nat} {v : BitVec w}
    (h : (blob.drop offset).take 4 = le32 v.toNat) (hw : w ≤ 32) : loadBits w blob offset = some v := by
  have hv : v.toNat < 2 ^ 32 := Nat.lt_of_lt_of_le v.isLt (Nat.pow_le_pow_right (by decide) hw)
  simp [loadBits, fieldAt_of_take h hv, v.isLt]

/-- A boolean field is read back, whatever the two patterns, if they differ (rules R251, R252). -/
theorem loadBool_of_take {pat : Config.BoolPatterns} {blob : List Byte} {offset : Nat} {b : Bool} (hp : pat.Legal)
    (h : (blob.drop offset).take 4 = boolField pat b) : loadBool pat blob offset = some b := by
  have hne : pat.falsePattern.toNat ≠ pat.truePattern.toNat := fun e => hp.1 (BitVec.eq_of_toNat_eq e.symm)
  rw [loadBool, fieldAt_of_take h (BitVec.isLt _)]
  cases b <;> simp [hne]

/-- ExecutionStatus as a number has four bits (rule R24). -/
theorem ExecStatus.toNat_lt (es : ExecStatus) : es.toNat < 2 ^ 4 := by
  obtain ⟨irq, nmi, stop, fatal⟩ := es
  revert irq nmi stop fatal
  decide

/-- The four bits of ExecutionStatus as a number (rules R24, R251). -/
theorem ExecStatus.bits_toNat (es : ExecStatus) :
    let n := BitVec.ofNat 4 es.toNat
    (⟨n.getLsbD 2, n.getLsbD 3, n.getLsbD 0, n.getLsbD 1⟩ : ExecStatus) = es := by
  obtain ⟨irq, nmi, stop, fatal⟩ := es
  revert irq nmi stop fatal
  decide

/-- ExecutionStatus is read back (rules R24, R252). -/
theorem loadStatus_of_take {blob : List Byte} {offset : Nat} {es : ExecStatus}
    (h : (blob.drop offset).take 4 = le32 es.toNat) : loadStatus blob offset = some es := by
  have hbits : (BitVec.ofNat 4 es.toNat).toNat = es.toNat := Nat.mod_eq_of_lt es.toNat_lt
  rw [loadStatus, loadBits_of_take (h.trans (congrArg le32 hbits.symm)) (by decide)]
  exact congrArg some es.bits_toNat

/-- What `save` wrote is parsed back to the ProcessorState saved, whatever follows (rules R251, R252, log entry 15). -/
theorem parseSnapshot_save {pat : Config.BoolPatterns} (hp : pat.Legal) (c : ProcessorState) (more : List Byte) :
    parseSnapshot pat (save pat c ++ more) = some c := by
  have tag : (save pat c ++ more).take 12 = snapshotTag := rfl
  have ha : loadBits 8 (save pat c ++ more) 12 = some c.a := loadBits_of_take rfl (by decide)
  have hx : loadBits 8 (save pat c ++ more) 16 = some c.x := loadBits_of_take rfl (by decide)
  have hy : loadBits 8 (save pat c ++ more) 20 = some c.y := loadBits_of_take rfl (by decide)
  have hsp : loadBits 8 (save pat c ++ more) 24 = some c.sp := loadBits_of_take rfl (by decide)
  have hir : loadBits 8 (save pat c ++ more) 28 = some c.ir := loadBits_of_take rfl (by decide)
  have hpc : loadBits 16 (save pat c ++ more) 32 = some c.pc := loadBits_of_take rfl (by decide)
  have hn : loadBool pat (save pat c ++ more) 36 = some c.p.n := loadBool_of_take hp rfl
  have hv : loadBool pat (save pat c ++ more) 40 = some c.p.v := loadBool_of_take hp rfl
  have hb : loadBool pat (save pat c ++ more) 44 = some c.p.b := loadBool_of_take hp rfl
  have hd : loadBool pat (save pat c ++ more) 48 = some c.p.d := loadBool_of_take hp rfl
  have hi : loadBool pat (save pat c ++ more) 52 = some c.p.i := loadBool_of_take hp rfl
  have hz : loadBool pat (save pat c ++ more) 56 = some (!c.p.z) := loadBool_of_take hp rfl
  have hc : loadBool pat (save pat c ++ more) 60 = some c.p.c := loadBool_of_take hp rfl
  have hes : loadStatus (save pat c ++ more) 64 = some c.es := loadStatus_of_take rfl
  simp [parseSnapshot, tag, ha, hx, hy, hsp, hir, hpc, hn, hv, hb, hd, hi, hz, hc, hes]

/-- Settles O59: the format by evaluating `save`, the round trip by parsing each field back. -/
theorem snapshotRoundTrip : Obligations.SnapshotRoundTrip := by
  intro pat c s more
  refine ⟨rfl, rfl, rfl, rfl, rfl, rfl, rfl, rfl, rfl, rfl, rfl, rfl, rfl, rfl, rfl, rfl, rfl, ?_, ?_⟩
  · exact fun hp hs => loadSnapshot_some (parseSnapshot_save hp c more) hs
  · intro hp hs hc
    simp [loadSnapshot, parseSnapshot_save hp c more, hs, hc]

end Sys2Proof.Machine

/-! SUPPORT. The Bus calls of the access patterns and of every routine: memory, the events and the invariant. -/

namespace Sys2Proof.Machine

/-! The access patterns (rule R100). -/

/-- Forming an address makes the pointer peeks of its mode (rules R96, R97, R101). -/
@[simp] theorem effectiveAddress_trace (m : EaMode) (s : State) :
    (effectiveAddress m s).2.bus.trace = pointerPeeks m s ++ s.bus.trace := by
  cases m <;> rfl

theorem peekWord_script (lo hi : Word) (s : State) : (peekWord lo hi s).2.bus.script = s.bus.script.drop 2 := by
  change s.bus.script.tail.tail = _
  simp only [← List.drop_one, List.drop_drop]

/-- Each pointer peek uses up one answer of the Bus (rule R44). -/
theorem effectiveAddress_script (m : EaMode) (s : State) :
    (effectiveAddress m s).2.bus.script = s.bus.script.drop (pointerPeeks m s).length := by
  cases m with
  | indx d | indy d => exact peekWord_script _ _ s
  | _ => rfl

@[simp] theorem pagePenalty_script (e : Ea) (s : State) : (pagePenalty e s).bus.script = s.bus.script := by
  unfold pagePenalty; split <;> rfl

/-- A read peeks once, after the pointer peeks and the penalty (rules R100, R248). -/
theorem readOperand_mem_trace (m : EaMode) (s : State) :
    (readOperand (.mem m) s).2.bus.trace =
      (.peek (addressOf m s) :: if penaltyOf (.mem m) s = 1 then [.cycles 1] else []) ++
        (pointerPeeks m s ++ s.bus.trace) := by
  simp [readOperand, penaltyOf, addressOf]

/-- A write pokes once and does not peek at its target (rule R100). -/
theorem writeOperand_trace (m : EaMode) (v : Byte) (s : State) :
    (writeOperand m v s).bus.trace = .poke (addressOf m s) v :: (pointerPeeks m s ++ s.bus.trace) := by
  simp [writeOperand, addressOf]

/-- A read-modify-write peeks once and pokes once (rule R100). -/
theorem modifyOperand_mem_trace (m : EaMode) (f : Byte → Byte) (s : State) :
    (modifyOperand (.mem m) f s).2.bus.trace =
      .poke (addressOf m s) (f (byteRead m s)) :: .peek (addressOf m s) :: (pointerPeeks m s ++ s.bus.trace) := by
  simp [modifyOperand, addressOf, byteRead]

/-- The byte read is the answer after those to the pointer peeks (rules R44, R100). -/
theorem readOperand_mem_answered (m : EaMode) (s : State) :
    (readOperand (.mem m) s).1 = s.bus.answered (pointerPeeks m s).length (addressOf m s) :=
  Bus.answered_drop (c := (pagePenalty _ (effectiveAddress m s).2).bus)
    ((pagePenalty_script _ _).trans (effectiveAddress_script m s)) (by simp) 0

theorem byteRead_answered (m : EaMode) (s : State) :
    byteRead m s = s.bus.answered (pointerPeeks m s).length (addressOf m s) :=
  Bus.answered_drop (c := (effectiveAddress m s).2.bus) (effectiveAddress_script m s) (by simp) 0

/-! The routines. -/

/-- The Bus a routine can leave: one of the access patterns, a branch, a jump or a use of the stack from `s` (rule R85). -/
inductive RoutineBus (s : State) : Bus → Prop
  | silent : RoutineBus s s.bus
  | read (m : ReadMode) : RoutineBus s (readOperand m s).2.bus
  | write (m : EaMode) (v : Byte) : RoutineBus s (writeOperand m v s).bus
  | modify (m : ModifyMode) (f : Byte → Byte) : RoutineBus s (modifyOperand m f s).2.bus
  | branch (taken : Bool) (d : Byte) : RoutineBus s (branch taken d s).bus
  | indirect (ptr : Word) : RoutineBus s (indirectTarget ptr s).2.bus
  | push (v : Byte) : RoutineBus s (push v s).bus
  | pull : RoutineBus s (pull s).2.bus
  | pushWord (w : Word) : RoutineBus s (pushWord w s).bus
  | pullWord : RoutineBus s (pullWord s).2.bus
  | entry (status : Byte) : RoutineBus s (takeException false status vecIrq s).bus
  | ret : RoutineBus s (returnFromException s).bus

theorem modifyNZ_bus (m : EaMode) (f : Byte → Byte) (s : State) :
    (modifyNZ m f s).bus = (modifyOperand (.mem m) f s).2.bus := rfl

/-- The flags play no part in what an entry does on the Bus, beyond the status byte it is given (rule R196). -/
theorem takeException_setP_bus (cd : Bool) (st : Byte) (vec : Word) (s : State) (p : Flags) :
    (takeException cd st vec (s.setP p)).bus = (takeException cd st vec s).bus := rfl

/-- Every instruction is one of these routines, and otherwise only computes. -/
theorem exec_routineBus {i : Instr} {s t : State} (h : exec i s = .next t) : RoutineBus s t.bus := by
  cases i with
  | lda m | ldx m | ldy m | cmp m | cpx m | cpy m | and m | ora m | eor m => cases h; exact .read m
  | adc m | sbc m => cases h; rw [addSub_bus]; exact .read m
  | bit m => cases h; exact .read (.mem m)
  | sta m | stx m | sty m => cases h; exact .write m _
  | inc m | dec m => cases h; rw [modifyNZ_bus]; exact .modify (.mem m) _
  | asl m | lsr m | rol m | ror m => cases h; exact .modify m _
  | bcc d | bcs d | beq d | bmi d | bne d | bpl d | bvc d | bvs d => cases h; exact .branch _ d
  | jmp m =>
    cases m with
    | abs a => cases h; exact .silent
    | ind a => cases h; exact .indirect a
  | pha | php => cases h; exact .push _
  | pla | plp => cases h; exact .pull
  | jsr target => cases h; exact .pushWord _
  | rts => cases h; exact .pullWord
  | brk padding => cases h; rw [takeException_setP_bus]; exact .entry _
  | rti => cases h; exact .ret
  | _ => cases h; exact .silent

/-! The invariant. -/

theorem branch_inv {s : State} (h : s.Inv) (taken : Bool) (d : Byte) : (branch taken d s).Inv := by
  cases taken
  · exact h
  · have h1 := addCycles_inv h 1
    simp only [branch, if_true]
    split
    · exact (addCycles_inv h1 1).congr (State.setPC_bus _ _)
    · exact h1.congr (State.setPC_bus _ _)

theorem RoutineBus.inv {s : State} {b : Bus} (r : RoutineBus s b) (h : s.Inv) :
    b.mem.wf = true ∧ b.cycles = traceCycles b.trace := by
  cases r with
  | silent => exact h
  | read m => exact readOperand_inv h m
  | write m v => exact writeOperand_inv h m v
  | modify m f => exact modifyOperand_inv h m f
  | branch taken d => exact branch_inv h taken d
  | indirect ptr => exact indirectTarget_inv h ptr
  | push v => exact push_inv h v
  | pull => exact pull_inv h
  | pushWord w => exact pushWord_inv h w
  | pullWord => exact pullWord_inv h
  | entry status => exact takeException_inv h false status vecIrq
  | ret => exact returnFromException_inv h

theorem exec_inv {i : Instr} {s t : State} (h : exec i s = .next t) (hs : s.Inv) : t.Inv :=
  (exec_routineBus h).inv hs

/-- Settles O54: the hook, the fetch, the routine and the boundary each keep the invariant. -/
theorem stepKeepsInvariant : Obligations.StepKeepsInvariant := by
  intro s t hs h
  obtain ⟨-, u, hu, rfl⟩ := step_cases h
  exact boundary_inv (exec_inv hu (fetchInstr_inv (consultHook_inv hs)))

/-- Settles O55: the reset state lists no byte and its Bus has seen two peeks. -/
theorem resetMeetsInvariant : Obligations.ResetMeetsInvariant := ⟨rfl, rfl⟩

/-! How many accesses. -/

theorem traceAccesses_append (l m : List BusEvent) :
    traceAccesses (l ++ m) = traceAccesses l + traceAccesses m := by
  induction l with
  | nil => simp [traceAccesses]
  | cons e l ih =>
    cases e with
    | cycles n => exact ih
    | peek a | poke a v =>
      simp only [List.cons_append, traceAccesses, ih]
      omega

/-- A pointer is two bytes (rules R96, R97). -/
theorem traceAccesses_pointerPeeks_le (m : EaMode) (s : State) : traceAccesses (pointerPeeks m s) ≤ 2 := by
  cases m <;> simp [pointerPeeks, traceAccesses]

/-- A pattern adds to the pointer peeks of its mode at most three accesses more. -/
theorem accesses_le_of_pattern {m : EaMode} {s : State} {b : Bus} (ev : List BusEvent)
    (h : b.trace = ev ++ (pointerPeeks m s ++ s.bus.trace)) (hev : traceAccesses ev ≤ 3) :
    ∃ ev, b.trace = ev ++ s.bus.trace ∧ traceAccesses ev ≤ 5 := by
  have := traceAccesses_pointerPeeks_le m s
  exact ⟨ev ++ pointerPeeks m s, by rw [h, List.append_assoc], by rw [traceAccesses_append]; omega⟩

theorem RoutineBus.accesses_le {s : State} {b : Bus} (r : RoutineBus s b) :
    ∃ ev, b.trace = ev ++ s.bus.trace ∧ traceAccesses ev ≤ 5 := by
  cases r with
  | silent => exact ⟨[], rfl, by simp [traceAccesses]⟩
  | read m =>
    cases m with
    | imm d => exact ⟨[], rfl, by simp [traceAccesses]⟩
    | mem m =>
      refine accesses_le_of_pattern _ (readOperand_mem_trace m s) ?_
      split <;> simp [traceAccesses]
  | write m v => exact accesses_le_of_pattern [_] (writeOperand_trace m v s) (by simp [traceAccesses])
  | modify m f =>
    cases m with
    | acc => exact ⟨[], rfl, by simp [traceAccesses]⟩
    | mem m => exact accesses_le_of_pattern [_, _] (modifyOperand_mem_trace m f s) (by simp [traceAccesses])
  | branch taken d =>
    refine ⟨_, branch_trace taken d s, ?_⟩
    split
    · split <;> simp [traceAccesses]
    · simp [traceAccesses]
  | push v => exact ⟨[_], push_trace v s, by simp [traceAccesses]⟩
  | pull => exact ⟨[_], pull_trace s, by simp [traceAccesses]⟩
  | pushWord w => exact ⟨[_, _], rfl, by simp [traceAccesses]⟩
  | indirect ptr => exact ⟨[_, _], peekWord_trace _ _ s, by simp [traceAccesses]⟩
  | pullWord => exact ⟨[_, _], rfl, by simp [traceAccesses]⟩
  | entry status => exact ⟨[_, _, _, _, _], takeException_trace false status vecIrq s, by simp [traceAccesses]⟩
  | ret => exact ⟨[_, _, _], returnFromException_trace s, by simp [traceAccesses]⟩

/-- Settles O53: BRK's entry makes the most, five. -/
theorem routineAccessBound : Obligations.RoutineAccessBound := fun _ _ _ h => (exec_routineBus h).accesses_le

/-! Which pattern each instruction follows. -/

/-- The instructions that read one operand (rule R100, `ReadOperand`), but for BIT, which has no immediate. -/
def readInstrs (r : ReadMode) : List Instr :=
  [.lda r, .ldx r, .ldy r, .adc r, .sbc r, .cmp r, .cpx r, .cpy r, .and r, .ora r, .eor r]

/-- The shifts and rotates (rule R100, `ModifyOperand`). -/
def shiftInstrs (r : ModifyMode) : List Instr := [.asl r, .lsr r, .rol r, .ror r]

/-- A reading instruction uses the Bus as its operand does. -/
theorem exec_readInstrs_bus (r : ReadMode) (s : State) :
    ∀ i ∈ readInstrs r, ∃ t, exec i s = .next t ∧ t.bus = (readOperand r s).2.bus := by
  simp only [readInstrs, List.forall_mem_cons]
  exact ⟨⟨_, rfl, rfl⟩, ⟨_, rfl, rfl⟩, ⟨_, rfl, rfl⟩, ⟨_, rfl, addSub_bus _ _ _ _⟩, ⟨_, rfl, addSub_bus _ _ _ _⟩,
    ⟨_, rfl, rfl⟩, ⟨_, rfl, rfl⟩, ⟨_, rfl, rfl⟩, ⟨_, rfl, rfl⟩, ⟨_, rfl, rfl⟩, ⟨_, rfl, rfl⟩, nofun⟩

/-- A shift uses the Bus as its operand does. -/
theorem exec_shiftInstrs_bus (r : ModifyMode) (s : State) :
    ∀ i ∈ shiftInstrs r, ∃ t f, exec i s = .next t ∧ t.bus = (modifyOperand r f s).2.bus := by
  simp only [shiftInstrs, List.forall_mem_cons]
  exact ⟨⟨_, _, rfl, rfl⟩, ⟨_, _, rfl, rfl⟩, ⟨_, _, rfl, rfl⟩, ⟨_, _, rfl, rfl⟩, nofun⟩

/-- INC, DEC, the shifts and rotates of memory modify it (rules R139, R140, R154 to R157). -/
theorem exec_modifyInstrs_bus (m : EaMode) (s : State) :
    ∀ i ∈ .inc m :: .dec m :: shiftInstrs (.mem m),
      ∃ t f, exec i s = .next t ∧ t.bus = (modifyOperand (.mem m) f s).2.bus := by
  simp only [List.forall_mem_cons]
  exact ⟨⟨_, _, rfl, modifyNZ_bus m _ s⟩, ⟨_, _, rfl, modifyNZ_bus m _ s⟩, exec_shiftInstrs_bus (.mem m) s⟩

/-- BIT reads as the other reading instructions do (rule R153). -/
theorem exec_memReadInstrs_bus (m : EaMode) (s : State) :
    ∀ i ∈ .bit m :: readInstrs (.mem m), ∃ t, exec i s = .next t ∧ t.bus = (readOperand (.mem m) s).2.bus := by
  simp only [List.forall_mem_cons]
  exact ⟨⟨_, rfl, rfl⟩, exec_readInstrs_bus (.mem m) s⟩

/-- Settles O7: the pattern of each instruction, then the events of the pattern. -/
theorem accessPatternEvents : Obligations.AccessPatternEvents := by
  intro m s
  refine ⟨?reads, ⟨_, rfl, writeOperand_trace m _ s⟩, ⟨_, rfl, writeOperand_trace m _ s⟩,
    ⟨_, rfl, writeOperand_trace m _ s⟩, ?modifies, ?immediates, ?accumulator⟩
  case reads =>
    intro i hi
    obtain ⟨t, ht, hb⟩ := exec_memReadInstrs_bus m s i hi
    exact ⟨t, ht, hb ▸ readOperand_mem_trace m s⟩
  case modifies =>
    intro i hi
    obtain ⟨t, f, ht, hb⟩ := exec_modifyInstrs_bus m s i hi
    exact ⟨f (byteRead m s), t, ht, hb ▸ modifyOperand_mem_trace m f s⟩
  case immediates => exact fun d => exec_readInstrs_bus (.imm d) s
  case accumulator =>
    intro i hi
    obtain ⟨t, f, ht, hb⟩ := exec_shiftInstrs_bus .acc s i hi
    exact ⟨t, ht, hb⟩

/-! One access. -/

/-- Settles O9: a peek on plain RAM reads memory, where the poke wrote. -/
theorem peekAfterPoke : Obligations.PeekAfterPoke := by
  intro s a b v hs hm
  have hp : (poke a v s).bus.script = [] := ((poke_busOnly a v s).collaborators.plain hs).2
  refine ⟨?_, fun hab => ?_, Memory.wf_write hm a v⟩
  · rw [peek_plain hp, poke_mem, Memory.read_write_same hm]
  · rw [peek_plain hp, peek_plain hs, poke_mem, Memory.read_write_other _ _ fun e => hab (BitVec.eq_of_toNat_eq e)]

/-- Using plain RAM changes no register, no flag and no request (rule R44). -/
theorem BusOnly.cpu_of_plain {s t : State} (h : BusOnly s t) (hs : s.bus.script = []) : t.cpu = s.cpu := by
  rw [h.1, (h.collaborators.plain hs).1]

/-- The address a pull reads, in numbers (rule R49). -/
theorem stackAddr_succ_toNat (sp : Byte) : (stackAddr (sp + 1)).toNat = 0x0100 + (sp.toNat + 1) % 256 := by
  rw [stackAddr_toNat, BitVec.toNat_add]
  rfl

/-- Settles O8: one access is its definition; each read is the answer its place gives it, on plain RAM the byte stored. -/
theorem plainBusReadsStoredByte : Obligations.PlainBusReadsStoredByte := by
  intro s
  refine ⟨fun _ => rfl, fun _ _ => rfl, fetch_answered s, pull_answered s, fun _ => rfl,
    fun m => ⟨readOperand_mem_answered m s, byteRead_answered m s⟩, fun hs => ?_⟩
  refine ⟨Bus.answered_plain hs, peek_plain hs, fun m => ?_, fun m => ?_, fetch_plain hs, ?_, fun a v => ?_⟩
  · rw [readOperand_mem_answered, Bus.answered_plain hs]
  · rw [byteRead_answered, Bus.answered_plain hs]
  · rw [pull_plain hs, stackAddr_succ_toNat]
  · exact ⟨(peek_busOnly a s).cpu_of_plain hs, (poke_busOnly a v s).cpu_of_plain hs⟩

/-! `reset()`. -/

/-- `reset()` loads `PC` with the word the Bus answers at the vector, low byte first (rule R230). -/
theorem hostReset_pc_toNat (s : State) :
    (hostReset s).cpu.pc.toNat = 256 * (s.bus.answered 1 0xFFFD).toNat + (s.bus.answered 0 0xFFFC).toNat := by
  rw [hostReset_cpu, memRead16, peekWord_answered, makeWord_toNat]
  rfl

/-- Settles O56, field by field. -/
theorem resetOperation : Obligations.ResetOperation := by
  intro s
  refine ⟨hostReset_cpu s, ?_, fun hq => hostReset_es_of_quiet fun _ => hq, hostReset_script s, hostReset_trace s,
    hostReset_cycles s, hostReset_mem s, hostReset_hook s, hostReset_draws s, hostReset_pc_toNat s⟩
  rw [hostReset_es, ExecStatus.raiseAll_eq]
  simp only [ExecStatus.keepRequests, Bool.false_or]

end Sys2Proof.Machine

/-! SUPPORT. The round trip between the decoder and the encoder, and the statements of spec/30_encoding.md: every
well-formed instruction is decoded from some bytes, what an instruction is decoded from is its encoding, and decoding
does not look at the bytes that follow. -/

namespace Sys2Proof

open Sys2Proof.Machine

/-- A word is its two bytes. -/
theorem exists_makeWord (a : Word) : ∃ hi lo, a = makeWord hi lo := ⟨hiByte a, loByte a, (makeWord_hi_lo a).symm⟩

/-- Every instruction that has an opcode is decoded from it and some operand bytes (rules R63, R67): none, one, or the
two of a word. A mode the mnemonic does not have leaves no case, for it has no opcode. -/
theorem exists_decode_of_opcode {i : Instr} {op : Byte} (h : i.opcode = some op) :
    ∃ operand, decode (op :: operand) = .ok (i, []) := by
  cases i with
  | lda m | ldx m | ldy m | adc m | sbc m | cmp m | cpx m | cpy m | and m | ora m | eor m =>
    cases m with
    | imm d => cases h; exact ⟨[d], rfl⟩
    | mem m =>
      cases m with
      | zp d | zpx d | zpy d | indx d | indy d => cases h <;> exact ⟨[d], rfl⟩
      | abs a | absx a | absy a =>
        obtain ⟨hi, lo, rfl⟩ := exists_makeWord a
        cases h <;> exact ⟨[lo, hi], rfl⟩
  | asl m | lsr m | rol m | ror m =>
    cases m with
    | acc => cases h; exact ⟨[], rfl⟩
    | mem m =>
      cases m with
      | zp d | zpx d | zpy d | indx d | indy d => cases h <;> exact ⟨[d], rfl⟩
      | abs a | absx a | absy a =>
        obtain ⟨hi, lo, rfl⟩ := exists_makeWord a
        cases h <;> exact ⟨[lo, hi], rfl⟩
  | sta m | stx m | sty m | inc m | dec m | bit m =>
    cases m with
    | zp d | zpx d | zpy d | indx d | indy d => cases h <;> exact ⟨[d], rfl⟩
    | abs a | absx a | absy a =>
      obtain ⟨hi, lo, rfl⟩ := exists_makeWord a
      cases h <;> exact ⟨[lo, hi], rfl⟩
  | jmp m =>
    cases m with
    | abs a | ind a =>
      obtain ⟨hi, lo, rfl⟩ := exists_makeWord a
      cases h
      exact ⟨[lo, hi], rfl⟩
  | jsr a =>
    obtain ⟨hi, lo, rfl⟩ := exists_makeWord a
    cases h
    exact ⟨[lo, hi], rfl⟩
  | bcc d | bcs d | beq d | bmi d | bne d | bpl d | bvc d | bvs d | brk d => cases h; exact ⟨[d], rfl⟩
  | illegal b =>
    obtain ⟨listed, rfl⟩ := illegal_opcode_eq_some.mp h
    have hi := (decodeInstr_illegal_iff b 0 0).mpr listed
    have hl : opcodeLength b = 1 := by rw [opcodeLength, hi]; rfl
    exact ⟨[], by rw [← hi]; simp [decode, hl]⟩
  | _ => cases h; exact ⟨[], rfl⟩

/-- What decoding succeeds on: an opcode with as many bytes after it as its form has, one case per length (rule R61). -/
theorem decode_cases {bytes rest : List Byte} {i : Instr} (h : decode bytes = .ok (i, rest)) :
    ∃ op, (opcodeLength op = 1 ∧ bytes = op :: rest ∧ i = decodeInstr op 0 0) ∨
      (∃ b1, opcodeLength op = 2 ∧ bytes = op :: b1 :: rest ∧ i = decodeInstr op b1 0) ∨
      (∃ b1 b2, opcodeLength op = 3 ∧ bytes = op :: b1 :: b2 :: rest ∧ i = decodeInstr op b1 b2) := by
  cases bytes with
  | nil => cases h
  | cons op tail =>
    rcases opcodeLength_cases op with hl | hl | hl
    · obtain ⟨rfl, rfl⟩ : decodeInstr op 0 0 = i ∧ tail = rest := by simpa [decode, hl] using h
      exact ⟨op, .inl ⟨hl, rfl, rfl⟩⟩
    · cases tail with
      | nil => simp [decode, hl] at h
      | cons b1 tail =>
        obtain ⟨rfl, rfl⟩ : decodeInstr op b1 0 = i ∧ tail = rest := by simpa [decode, hl] using h
        exact ⟨op, .inr (.inl ⟨b1, hl, rfl, rfl⟩)⟩
    · match tail with
      | [] | [_] => simp [decode, hl] at h
      | b1 :: b2 :: tail =>
        obtain ⟨rfl, rfl⟩ : decodeInstr op b1 b2 = i ∧ tail = rest := by simpa [decode, hl] using h
        exact ⟨op, .inr (.inr ⟨b1, b2, hl, rfl, rfl⟩)⟩

/-- What decodes was its opcode and its operand bytes, before the rest. -/
theorem decode_eq_ok {bytes rest : List Byte} {i : Instr} (h : decode bytes = .ok (i, rest)) :
    ∃ op b1 b2, i = decodeInstr op b1 b2 ∧ bytes = op :: (i.operandBytes ++ rest) := by
  obtain ⟨op, ⟨hl, rfl, rfl⟩ | ⟨b1, hl, rfl, rfl⟩ | ⟨b1, b2, hl, rfl, rfl⟩⟩ := decode_cases h
  · exact ⟨op, 0, 0, rfl, by simp [decodeInstr_operandBytes, hl]⟩
  · exact ⟨op, b1, 0, rfl, by simp [decodeInstr_operandBytes, hl]⟩
  · exact ⟨op, b1, b2, rfl, by simp [decodeInstr_operandBytes, hl]⟩

/-- Decoding does not look at the bytes after the instruction (rule R60). -/
theorem decode_append {bytes rest : List Byte} {i : Instr} (h : decode bytes = .ok (i, rest)) (more : List Byte) :
    decode (bytes ++ more) = .ok (i, rest ++ more) := by
  obtain ⟨op, ⟨hl, rfl, rfl⟩ | ⟨b1, hl, rfl, rfl⟩ | ⟨b1, b2, hl, rfl, rfl⟩⟩ := decode_cases h <;>
    simp [decode, hl]

/-- Decoding succeeds where there are as many bytes as the opcode's length (rules R60, R61). -/
theorem exists_decode_iff (op : Byte) (rest : List Byte) :
    (∃ i r, decode (op :: rest) = .ok (i, r)) ↔ opcodeLength op ≤ rest.length + 1 := by
  rcases opcodeLength_cases op with hl | hl | hl
  · simp [decode, hl]
  · cases rest <;> simp [decode, hl]
  · rcases rest with _ | ⟨b1, _ | ⟨b2, r⟩⟩ <;> simp [decode, hl]

/-- Settles O2: the opcode and the operand bytes of a decoded instruction are the bytes it was decoded from. -/
theorem encodeOfDecode : Obligations.EncodeOfDecode := by
  intro bytes rest i h
  obtain ⟨op, b1, b2, rfl, hb⟩ := decode_eq_ok h
  exact ⟨decodeInstr_wf op b1 b2, _, encode_eq_some.mpr ⟨op, decodeInstr_opcode op b1 b2, rfl⟩, hb⟩

/-- The bytes of an instruction decode to it, whatever follows. -/
theorem decode_encode {i : Instr} {bytes : List Byte} (h : encode i = some bytes) (rest : List Byte) :
    decode (bytes ++ rest) = .ok (i, rest) := by
  obtain ⟨op, hop, rfl⟩ := encode_eq_some.mp h
  obtain ⟨operand, hd⟩ := exists_decode_of_opcode hop
  obtain ⟨-, b, hb, hbytes⟩ := encodeOfDecode _ _ _ hd
  have same : op :: i.operandBytes = b := by simpa [h] using hb
  rw [hbytes, List.append_nil, ← same] at hd
  exact decode_append hd rest

/-- Settles O1: a well-formed instruction has an opcode, and so an encoding. -/
theorem decodeOfEncode : Obligations.DecodeOfEncode := by
  intro i rest hw
  obtain ⟨op, hop⟩ := Option.isSome_iff_exists.mp ((opcode_isSome i).trans hw)
  have he := encode_eq_some.mpr ⟨op, hop, rfl⟩
  exact ⟨_, he, decode_encode he rest⟩

/-- An instruction is encoded by what the encoder gives it, at the cycles of its opcode. -/
theorem encodedBy_of_encode {i : Instr} {bytes : List Byte} {n : Nat} (h : encode i = some bytes)
    (hn : cycleTable (bytes.headD 0) = n) : EncodedBy i bytes n := ⟨h, decode_encode h, hn⟩

/-- The bytes of rule R65, by row and column of the opcode map. The decoder stands in for the list, which is slow to
search 256 times. -/
theorem isIllegalOpcode_iff_pattern (op : Byte) :
    let row := op.toNat / 16
    let lo := op.toNat % 16
    isIllegalOpcode op = true ↔
      lo ∈ [0x3, 0x7, 0xB, 0xF] ∨ (lo = 0x2 ∧ row ≠ 0xA) ∨
      (lo = 0x4 ∧ row ∈ [0x0, 0x1, 0x3, 0x4, 0x5, 0x6, 0x7, 0xD, 0xF]) ∨
      (lo = 0xA ∧ row ∈ [0x1, 0x3, 0x5, 0x7, 0xD, 0xF]) ∨
      (lo = 0xC ∧ row ∈ [0x0, 0x1, 0x3, 0x5, 0x7, 0x9, 0xD, 0xF]) ∨
      op ∈ [0x80#8, 0x89#8, 0x9E#8] := by
  rw [← decodeInstr_illegal_iff op 0 0]
  revert op
  decide

/-- Settles O3: the list by evaluation, its bytes by what the decoder answers, the pattern byte by byte. -/
theorem illegalBytesAreTheListed : Obligations.IllegalBytesAreTheListed :=
  ⟨rfl, by decide, decodeInstr_illegal_iff, isIllegalOpcode_iff_pattern⟩

/-- Settles O4: the length comes from the opcode's row, and decoding compares it with the bytes there are. -/
theorem opcodeFixesLength : Obligations.OpcodeFixesLength := by
  intro op b1 b2
  have := opcodeLength_cases op
  exact ⟨decodeInstr_length op b1 b2, by omega, by omega, exists_decode_iff op⟩

/-- Settles O5: each word is decoded by evaluation. -/
theorem sampleWordsDecode : Obligations.SampleWordsDecode :=
  ⟨rfl, rfl, rfl, rfl, rfl, rfl, rfl, rfl, rfl, rfl⟩

/-- The illegal opcodes charge no base cycles (rule R247). -/
theorem cycleTable_illegal {op : Byte} (h : isIllegalOpcode op = true) : cycleTable op = 0 := by
  have zero : illegalOpcodes.map cycleTable = illegalOpcodes.map fun _ => 0 := rfl
  exact List.map_inj_left.mp zero op (List.contains_iff_mem.mp h)

/-- Settles O38: the meaning is `State.raiseFatal`, the encoding the byte itself. -/
theorem illegalRaisesFatal : Obligations.IllegalRaisesFatal := by
  intro op s
  refine ⟨rfl, fun h => encodedBy_of_encode ?_ (cycleTable_illegal h)⟩
  exact encode_eq_some.mpr ⟨op, illegal_opcode_eq_some.mpr ⟨h, rfl⟩, rfl⟩

end Sys2Proof

/-! SUPPORT. The effective addresses in numbers (rules R89 to R94, R96, R97). -/

namespace Sys2Proof.Machine

/-! Addresses in page 0. -/

/-- A zero-page address is the number of its byte. -/
theorem zext16_eq_ofNat (v : Byte) : zext16 v = BitVec.ofNat 16 v.toNat := by
  rw [← zext16_toNat, BitVec.ofNat_toNat, BitVec.setWidth_eq]

/-- A zero-page sum wraps inside page 0 (rules R90, R91, R96). -/
theorem zext16_add (d i : Byte) : zext16 (d + i) = BitVec.ofNat 16 ((d.toNat + i.toNat) % 256) := by
  rw [zext16_eq_ofNat, BitVec.toNat_add]

/-- The address after a zero-page address wraps inside page 0 (rules R96, R97). -/
theorem zext16_add_one (v : Byte) : zext16 (v + 1) = BitVec.ofNat 16 ((v.toNat + 1) % 256) := zext16_add v 1

/-! Absolute sums. -/

/-- An absolute sum wraps at 2^16 (rules R93, R94, R97). -/
theorem indexed_addr_toNat (base : Word) (i : Byte) :
    (indexed base i).addr.toNat = (base.toNat + i.toNat) % 65536 := by
  rw [indexed, BitVec.toNat_add, zext16_toNat]

/-- Two words are in the same page where they agree above the low byte (rule R9). -/
theorem page_eq_iff (a b : Word) : page a = page b ↔ a.toNat / 256 = b.toNat / 256 := by
  rw [page, page, ← BitVec.toNat_inj, hiByte_toNat, hiByte_toNat]

/-- An indexed sum crosses when it leaves the page of its base (rules R93, R94, R97). -/
theorem indexed_crossed (base : Word) (i : Byte) :
    (indexed base i).crossed = decide ((indexed base i).addr.toNat / 256 ≠ base.toNat / 256) := by
  simp only [indexed, ne_eq, page_eq_iff]

/-! Pointers in page 0. -/

/-- A word read at two addresses, in numbers: the next two answers of the Bus, the low byte first (rule R46). -/
theorem peekWord_toNat (lo hi : Word) (s : State) :
    (peekWord lo hi s).1.toNat = 256 * (s.bus.answered 1 hi).toNat + (s.bus.answered 0 lo).toNat := by
  rw [peekWord_answered, makeWord_toNat]

/-- The pointer of `($nn,X)` is at the wrapped sum and the address after it, wrapped too (rule R96). -/
theorem addressOf_indx_toNat (d : Byte) (s : State) :
    (addressOf (.indx d) s).toNat =
      256 * (s.bus.answered 1 (BitVec.ofNat 16 ((d.toNat + s.cpu.x.toNat + 1) % 256))).toNat +
        (s.bus.answered 0 (BitVec.ofNat 16 ((d.toNat + s.cpu.x.toNat) % 256))).toNat := by
  rw [← zext16_add, ← Nat.mod_add_mod, ← BitVec.toNat_add, ← zext16_add_one]
  exact peekWord_toNat _ _ s

/-- The pointer of `($nn),Y` is at the operand and the address after it, wrapped (rule R97). -/
theorem indyBase_toNat (d : Byte) (s : State) :
    (peekWord (zext16 d) (zext16 (d + 1)) s).1.toNat =
      256 * (s.bus.answered 1 (BitVec.ofNat 16 ((d.toNat + 1) % 256))).toNat +
        (s.bus.answered 0 (BitVec.ofNat 16 d.toNat)).toNat := by
  rw [peekWord_toNat, zext16_add_one, zext16_eq_ofNat]

/-- Settles O6: the sums of page 0, the absolute sums, then the two pointers. -/
theorem effectiveAddresses : Obligations.EffectiveAddresses := by
  intro s d a
  refine ⟨?_, zext16_toNat d, ?_, ?_, rfl, indexed_addr_toNat a _, indexed_crossed a _, indexed_addr_toNat a _,
    indexed_crossed a _, addressOf_indx_toNat d s, ?_, ?_⟩
  · rintro m (rfl | rfl | rfl | rfl | rfl) <;> rfl
  · exact (zext16_toNat (d + s.cpu.x)).trans (BitVec.toNat_add ..)
  · exact (zext16_toNat (d + s.cpu.y)).trans (BitVec.toNat_add ..)
  · rw [← indyBase_toNat]
    exact indexed_addr_toNat _ _
  · rw [← indyBase_toNat]
    exact indexed_crossed _ _

end Sys2Proof.Machine

/-! SUPPORT. The shifts and rotates in numbers (rules R154 to R157). -/

namespace Sys2Proof.Machine

/-! Bits and results as numbers. -/

theorem getLsbD_seven (v : Byte) : v.getLsbD 7 = decide (128 ≤ v.toNat) :=
  (BitVec.msb_eq_getLsbD_last v).symm.trans (BitVec.msb_eq_decide v)

theorem getLsbD_zero (v : Byte) : v.getLsbD 0 = decide (v.toNat % 2 = 1) := Nat.testBit_zero _

/-- `SetNZ` of a byte given as a number (rule R20). -/
theorem nzOf_ofNat (p : Flags) (r : Nat) :
    nzOf p (BitVec.ofNat 8 r) = { p with n := decide (128 ≤ r % 256), z := decide (r % 256 = 0) } := by
  have hz : BitVec.ofNat 8 r = 0 ↔ r % 256 = 0 := by
    rw [← BitVec.toNat_inj, BitVec.toNat_ofNat]
    rfl
  simp only [nzOf, getLsbD_seven, BitVec.toNat_ofNat, hz]

theorem shiftLeft_eq_ofNat (v : Byte) : shiftLeft v = BitVec.ofNat 8 (2 * v.toNat) := by
  rw [shiftLeft, BitVec.shiftLeft_eq_mul_twoPow]
  bv_omega

theorem shiftRight_eq_ofNat (v : Byte) : shiftRight v = BitVec.ofNat 8 (v.toNat / 2) := by
  apply BitVec.eq_of_toNat_eq
  rw [shiftRight, BitVec.toNat_ushiftRight, BitVec.toNat_ofNat, Nat.shiftRight_eq_div_pow]
  omega

theorem rotateLeft_eq_ofNat (c : Bool) (v : Byte) : rotateLeft c v = BitVec.ofNat 8 (2 * v.toNat + carryNat c) := by
  revert v c
  decide

theorem rotateRight_eq_ofNat (c : Bool) (v : Byte) :
    rotateRight c v = BitVec.ofNat 8 (v.toNat / 2 + 128 * carryNat c) := by
  revert v c
  decide

/-! The accumulator. -/

/-- A shift of the accumulator whose result is `r` (rules R154 to R157). -/
theorem shift_acc_ofNat {f : Byte → Byte} {s : State} {r : Nat} (h : f s.cpu.a = BitVec.ofNat 8 r) (out : Nat) :
    shift .acc f out s = { s with cpu := { s.cpu with
      a := BitVec.ofNat 8 r,
      p := { s.cpu.p with n := decide (128 ≤ r % 256), z := decide (r % 256 = 0), c := s.cpu.a.getLsbD out } } } := by
  rw [shift_acc, h, nzOf_ofNat]

/-- Settles O28: each result as a number, and the bit shifted out. -/
theorem shiftsAccumulator : Obligations.ShiftsAccumulator := by
  refine ⟨encodedBy_of_encode rfl rfl, encodedBy_of_encode rfl rfl, encodedBy_of_encode rfl rfl,
    encodedBy_of_encode rfl rfl, fun s => ?_⟩
  simp only [← getLsbD_seven, ← getLsbD_zero]
  exact ⟨congrArg _ (shift_acc_ofNat (shiftLeft_eq_ofNat _) 7), congrArg _ (shift_acc_ofNat (shiftRight_eq_ofNat _) 0),
    congrArg _ (shift_acc_ofNat (rotateLeft_eq_ofNat _ _) 7), congrArg _ (shift_acc_ofNat (rotateRight_eq_ofNat _ _) 0)⟩

/-! Memory. -/

/-- A shift of memory whose result is `r`: three flags, and one byte at the effective address (rules R154 to R157). -/
theorem shift_mem_ofNat {m : EaMode} {f : Byte → Byte} {s : State} {r : Nat}
    (h : f (byteRead m s) = BitVec.ofNat 8 r) (out : Nat) :
    let t := shift (.mem m) f out s
    t.cpu = { s.cpu with
      p := { s.cpu.p with
        n := decide (128 ≤ r % 256), z := decide (r % 256 = 0), c := (byteRead m s).getLsbD out },
      es := t.cpu.es } ∧
    Frame [addressOf m s] 0 s t ∧
    (s.bus.mem.wf = true → t.bus.mem.read (addressOf m s).toNat = BitVec.ofNat 8 r) := by
  refine ⟨?_, shift_mem_frame m f out s, fun hm => ?_⟩
  · rw [shift_mem_cpu, h, nzOf_ofNat]
  · rw [shift_mem_stored m f out hm, h]

/-- The memory rows of a read-modify-write instruction, from its opcodes and their cycles. -/
theorem modifyEncodings_of_encode {i : EaMode → Instr} {zp zpx abs absx : Byte}
    (h : ∀ (d : Byte) (a : Word), encode (i (.zp d)) = some [zp, d] ∧ encode (i (.zpx d)) = some [zpx, d] ∧
      encode (i (.abs a)) = some [abs, loByte a, hiByte a] ∧ encode (i (.absx a)) = some [absx, loByte a, hiByte a])
    (hn : cycleTable zp = 5 ∧ cycleTable zpx = 6 ∧ cycleTable abs = 6 ∧ cycleTable absx = 7) :
    ModifyEncodings i zp zpx abs absx := by
  intro d a
  obtain ⟨hzp, hzpx, habs, habsx⟩ := h d a
  obtain ⟨nzp, nzpx, nabs, nabsx⟩ := hn
  exact ⟨encodedBy_of_encode hzp nzp, encodedBy_of_encode hzpx nzpx, encodedBy_of_encode habs nabs,
    encodedBy_of_encode habsx nabsx⟩

/-- Settles O29: the encodings, then the same results and bits as of the accumulator. -/
theorem shiftsMemory : Obligations.ShiftsMemory := by
  refine ⟨modifyEncodings_of_encode (fun _ _ => ⟨rfl, rfl, rfl, rfl⟩) ⟨rfl, rfl, rfl, rfl⟩,
    modifyEncodings_of_encode (fun _ _ => ⟨rfl, rfl, rfl, rfl⟩) ⟨rfl, rfl, rfl, rfl⟩,
    modifyEncodings_of_encode (fun _ _ => ⟨rfl, rfl, rfl, rfl⟩) ⟨rfl, rfl, rfl, rfl⟩,
    modifyEncodings_of_encode (fun _ _ => ⟨rfl, rfl, rfl, rfl⟩) ⟨rfl, rfl, rfl, rfl⟩, fun m s => ?_⟩
  simp only [← getLsbD_seven, ← getLsbD_zero]
  exact ⟨⟨_, rfl, shift_mem_ofNat (shiftLeft_eq_ofNat _) 7⟩, ⟨_, rfl, shift_mem_ofNat (shiftRight_eq_ofNat _) 0⟩,
    ⟨_, rfl, shift_mem_ofNat (rotateLeft_eq_ofNat _ _) 7⟩, ⟨_, rfl, shift_mem_ofNat (rotateRight_eq_ofNat _ _) 0⟩⟩

end Sys2Proof.Machine

/-! SUPPORT. The loop: the hook, the step on each exit condition and in a run, the boundary, and `execute`. -/

namespace Sys2Proof.Machine

/-! The hook (rules R83, R216). -/

theorem consultHook_goOn {s : State} {r : Requests} {rest : List HookAnswer} (h : s.hook = .goOn r :: rest) :
    consultHook s = (false, { s with hook := rest }.raise r) := by
  simp [consultHook, h]

theorem consultHook_stop {s : State} {rest : List HookAnswer} (h : s.hook = .stop :: rest) :
    consultHook s = (true, { s with hook := rest }) := by
  simp [consultHook, h]

/-- The hook goes on, or its next answer is a stop. -/
theorem consultHook_goesOn_or_stop (s : State) : (consultHook s).1 = false ∨ ∃ rest, s.hook = .stop :: rest := by
  rcases h : s.hook with _ | ⟨_ | r, rest⟩
  · exact .inl (by rw [consultHook_nil h])
  · exact .inr ⟨rest, rfl⟩
  · exact .inl (by rw [consultHook_goOn h])

/-! The step. -/

/-- An iteration runs, or one of the three exit conditions holds, in their order (rules R82, R83). -/
theorem State.runs_or_exits (s : State) :
    s.Runs ∨ s.cpu.es.fatal = true ∨ (s.Alive ∧ s.cpu.es.stop = true) ∨
      (s.Alive ∧ s.cpu.es.stop = false ∧ ∃ rest, s.hook = .stop :: rest) := by
  cases hf : s.cpu.es.fatal with
  | true => exact .inr (.inl rfl)
  | false =>
    cases hs : s.cpu.es.stop with
    | true => exact .inr (.inr (.inl ⟨hf, rfl⟩))
    | false =>
      rcases consultHook_goesOn_or_stop s with hk | hk
      · exact .inl ⟨exitCheck_eq_none.mpr ⟨hf, hs⟩, hk⟩
      · exact .inr (.inr (.inr ⟨hf, rfl, hk⟩))

/-- A stopped machine does not step (rules R82, R215). -/
theorem step_of_stop {s : State} (hf : s.Alive) (hs : s.cpu.es.stop = true) : step s = .fault .stopped := by
  simp [step, iteration, exitCheck, hf, hs]

/-- The hook's stop comes before the fetch (rule R83). -/
theorem step_of_debugStop {s : State} (hf : s.Alive) (hs : s.cpu.es.stop = false) {rest : List HookAnswer}
    (hk : s.hook = .stop :: rest) : step s = .fault .debugStop := by
  simp [step, iteration, exitCheck_eq_none.mpr ⟨hf, hs⟩, consultHook_stop hk]

/-- A step that runs is the fetch, the meaning, the boundary (rule R80). -/
theorem step_of_runs {s : State} (h : s.Runs) :
    step s = finish (exec (fetchInstr (consultHook s).2).1 (fetchInstr (consultHook s).2).2) := by
  simp [step, iteration, h.1, h.2]

/-- What was fetched completes, and the boundary follows (rules R80, R99). -/
theorem finish_exec (i : Instr) (s : State) : ∃ u, exec i s = .next u ∧ finish (exec i s) = .next (boundary u) := by
  obtain ⟨u, hu⟩ := exec_next i s
  exact ⟨u, hu, by rw [hu, finish]⟩

/-- A step that runs completes. -/
theorem step_next_of_runs {s : State} (h : s.Runs) : ∃ t, step s = .next t := by
  obtain ⟨u, -, hu⟩ := finish_exec (fetchInstr (consultHook s).2).1 (fetchInstr (consultHook s).2).2
  exact ⟨boundary u, (step_of_runs h).trans hu⟩

/-- Settles O45: the step on each exit condition and in a run, one of which is the case. -/
theorem stepOutcomes : Obligations.StepOutcomes := by
  intro s
  refine ⟨step_next_of_runs, step_of_fatal, step_of_stop, fun rest hf hs hk => step_of_debugStop hf hs hk, ?_⟩
  rcases s.runs_or_exits with h | h | ⟨-, h⟩ | ⟨-, -, h⟩
  · exact .inl h
  · exact .inr (.inl h)
  · exact .inr (.inr (.inl h))
  · exact .inr (.inr (.inr h))

/-- Settles O43: the run of the step, then the hook's three answers. -/
theorem stepOnAnyBus : Obligations.StepOnAnyBus := by
  intro s
  refine ⟨fun h => ?_, consultHook_nil, fun r rest => consultHook_goOn, fun rest => consultHook_stop⟩
  have hstep := step_of_runs h
  obtain ⟨u, hu, hfin⟩ := finish_exec (fetchInstr (consultHook s).2).1 (fetchInstr (consultHook s).2).2
  exact ⟨hstep, u, hu, hstep.trans hfin⟩

/-! The step on plain RAM. -/

/-- The fetch on plain RAM, in full: `IR`, `PC`, the base cycles and the peeks, nothing else (rules R44, R84, R85). -/
theorem fetchInstr_plain {s : State} (hs : s.bus.script = []) :
    (fetchInstr s).2 = { s with
      cpu := { s.cpu with ir := (fetch s).1, pc := s.cpu.pc + BitVec.ofNat 16 (fetchInstr s).1.length },
      bus := { s.bus with
        cycles := s.bus.cycles + cycleTable (fetch s).1,
        trace := [BusEvent.peek (s.cpu.pc + 2), .peek (s.cpu.pc + 1)].drop (3 - (fetchInstr s).1.length) ++
          (.cycles (cycleTable (fetch s).1) :: .peek s.cpu.pc :: s.bus.trace) } } := by
  obtain ⟨-, hcoll, hdraws, hcycles⟩ := fetchInstr_frame s
  obtain ⟨hes, hscript⟩ := hcoll.plain hs
  obtain ⟨-, -, -, -, hhook⟩ := hcoll
  have hcpu := fetchInstr_cpu s
  rw [hes] at hcpu
  exact State.ext hcpu (Bus.ext (fetchInstr_mem s) hcycles (hscript.trans hs.symm) (fetchInstr_trace s)) hhook hdraws

/-- On plain RAM the instruction fetched is the one the bytes stored at `PC` decode to (rules R44, R64). -/
theorem fetchInstr_of_decode {s : State} (hs : s.bus.script = []) {i : Instr} {rest : List Byte}
    (h : decode [s.bus.mem.read s.cpu.pc.toNat, s.bus.mem.read (s.cpu.pc + 1).toNat,
      s.bus.mem.read (s.cpu.pc + 2).toNat] = .ok (i, rest)) : (fetchInstr s).1 = i := by
  have hd := fetchInstr_decode s
  simp only [Bus.answered_plain hs, h, Except.ok.injEq, Prod.mk.injEq] at hd
  obtain ⟨hi, -⟩ := hd
  exact hi.symm

/-- Settles O42: without a hook the step fetches from `s` itself, and the fetch on plain RAM is known in full. -/
theorem stepRunsDecodedInstruction : Obligations.StepRunsDecodedInstruction := by
  intro s i rest hruns hs hk
  have h0 : s.cpu.pc + 0 = s.cpu.pc := BitVec.add_zero _
  simp only [h0]
  intro hd
  have hstep := step_of_runs hruns
  rw [consultHook_nil hk, fetchInstr_plain hs, fetchInstr_of_decode hs hd, fetch_plain hs] at hstep
  obtain ⟨u, hu, hfin⟩ := finish_exec i _
  exact ⟨hstep, u, hu, hstep.trans hfin⟩

/-! The boundary. -/

/-- NMI is entered whatever `I` (rule R207, log entry 13). -/
theorem boundary_of_nmi {s : State} (hn : s.cpu.es.nmi = true) :
    boundary s = (interruptEntry vecNmi s).setES { (interruptEntry vecNmi s).cpu.es with
      nmi := (s.bus.script.take 5).any (·.raises.nmi) && Config.keepsRequestDuringEntry } := by
  simp [boundary, interruptSequence, hn, interruptEntry_setES, interruptEntry_es, ExecStatus.raiseAll_eq]

/-- IRQ is entered where no NMI is pending and `I` is 0 (rule R207, log entry 13). -/
theorem boundary_of_irq {s : State} (hn : s.cpu.es.nmi = false) (hq : s.cpu.es.irq = true) (hi : s.cpu.p.i = false) :
    boundary s = (interruptEntry vecIrq s).setES { (interruptEntry vecIrq s).cpu.es with
      irq := (s.bus.script.take 5).any (·.raises.irq) && Config.keepsRequestDuringEntry } := by
  simp [boundary, interruptSequence, hn, hq, hi, interruptEntry_setES, interruptEntry_es, ExecStatus.raiseAll_eq]

/-- A masked IRQ waits (rule R207). -/
theorem boundary_of_masked {s : State} (hn : s.cpu.es.nmi = false) (hi : s.cpu.p.i = true) : boundary s = s := by
  simp [boundary, interruptSequence, hn, hi]

/-- Without a request the boundary does nothing (rule R99). -/
theorem boundary_of_none {s : State} (hn : s.cpu.es.nmi = false) (hq : s.cpu.es.irq = false) : boundary s = s := by
  simp [boundary, hn, hq]

/-- Settles O40, case by case. -/
theorem interruptPriority : Obligations.InterruptPriority := fun _ =>
  ⟨boundary_of_nmi, boundary_of_irq, fun hn _ hi => boundary_of_masked hn hi, boundary_of_none⟩

/-! `execute`. -/

/-- A step that completes leaves the rest to a loop of one fewer (rule R80). -/
theorem executeLoop_of_next {s t : State} (h : step s = .next t) (n : Nat) :
    executeLoop (n + 1) s = executeLoop n t := by
  simp [executeLoop, h]

/-- The loop leaves a stopped machine as it is and answers true (rules R82, R215). -/
theorem executeLoop_of_stop {s : State} (hf : s.Alive) (hs : s.cpu.es.stop = true) (n : Nat) :
    executeLoop (n + 1) s = { running := true, state := s } := by
  simp [executeLoop, step_of_stop hf hs]

/-- A stop of the hook ends the loop, with the hook's answer used up (rule R83, log entry 7). -/
theorem executeLoop_of_debugStop {s : State} (hf : s.Alive) (hs : s.cpu.es.stop = false) {rest : List HookAnswer}
    (hk : s.hook = .stop :: rest) (n : Nat) :
    executeLoop (n + 1) s = { running := true, state := { s with hook := rest } } := by
  simp [executeLoop, step_of_debugStop hf hs hk, consultHook_stop hk]

/-- The loop answers whether the machine it leaves is alive (rule R80). -/
theorem executeLoop_running (n : Nat) (s : State) :
    (executeLoop n s).running = !(executeLoop n s).state.cpu.es.fatal := by
  induction n generalizing s with
  | zero => rfl
  | succ n ih =>
    rcases s.runs_or_exits with h | h | ⟨hf, hs⟩ | ⟨hf, hs, rest, hk⟩
    · obtain ⟨t, ht⟩ := step_next_of_runs h
      rw [executeLoop_of_next ht, ih]
    · rw [executeLoop_of_fatal h, h, Bool.not_true]
    · rw [executeLoop_of_stop hf hs, hf, Bool.not_false]
    · rw [executeLoop_of_debugStop hf hs hk, hf, Bool.not_false]

/-- Settles O50: the answer by induction on the count, then each exit of the loop. -/
theorem executeReturnsAlive : Obligations.ExecuteReturnsAlive := by
  refine ⟨fun n s => executeLoop_running n (beginExecute s), fun n s => ⟨rfl, fun h => executeLoop_of_fatal h (n + 1),
    fun hf hs => executeLoop_of_stop hf hs n, fun rest hf hs hk => executeLoop_of_debugStop hf hs hk n, fun h => ?_⟩⟩
  obtain ⟨t, ht⟩ := step_next_of_runs h
  exact ⟨t, ht, executeLoop_of_next ht n⟩

/-- A run of `m + 1` steps is a step that completes and a run of `m`. -/
theorem run_succ_eq_next {M : Host.Core} {m : Nat} {s t : M.State} (h : M.run (m + 1) s = .next t) :
    ∃ u, M.step s = .next u ∧ M.run m u = .next t := by
  rw [Host.Core.run] at h
  split at h
  next u hu => exact ⟨u, hu, h⟩
  all_goals cases h

/-- The loop for `m + n` instructions is `m` steps, if they complete, and the loop for `n` more (rule R80). -/
theorem executeLoop_add {m : Nat} {s t : State} (h : Host.Core.run core m s = .next t) (n : Nat) :
    executeLoop (m + n) s = executeLoop n t := by
  induction m generalizing s with
  | zero => cases h; rw [Nat.zero_add]
  | succ m ih =>
    obtain ⟨u, hu, hrun⟩ := run_succ_eq_next (M := core) h
    rw [Nat.succ_add, executeLoop_of_next hu, ih hrun]

/-- Settles O49: step 1 is its definition, and the loop is the step iterated. -/
theorem executeIteratesStep : Obligations.ExecuteIteratesStep := fun _ n _ _ =>
  ⟨rfl, fun h => executeLoop_add h n, fun h => executeLoop_add h n⟩

/-- Settles O48: with no iteration to run, `execute` is its step 1. -/
theorem executeZero : Obligations.ExecuteZero := fun _ => rfl

end Sys2Proof.Machine

/-! SUPPORT. Loads, stores, transfers and the stack instructions (spec/41_load_store_transfer.md). -/

namespace Sys2Proof.Machine

/-- An instruction is encoded by its opcode and operand bytes, at the cycles of the opcode. -/
theorem encodedBy_of_opcode {i : Instr} {op : Byte} {operand : List Byte} {n : Nat}
    (h : encode i = some (op :: operand)) (hn : cycleTable op = n) : EncodedBy i (op :: operand) n :=
  encodedBy_of_encode h hn

/-! Loads (rules R110 to R112). -/

/-- A load writes its register and two flags: reading the operand wrote no register (rules R110 to R112). -/
theorem load_cpu (m : ReadMode) (s : State) :
    let v := (readOperand m s).1
    let p := nzOf s.cpu.p v
    (load m State.setA s).cpu = { s.cpu with a := v, p := p, es := (load m State.setA s).cpu.es } ∧
    (load m State.setX s).cpu = { s.cpu with x := v, p := p, es := (load m State.setX s).cpu.es } ∧
    (load m State.setY s).cpu = { s.cpu with y := v, p := p, es := (load m State.setY s).cpu.es } := by
  intro v p
  have hread := (readOperand_busOnly m s).1
  exact ⟨congrArg (fun c : ProcessorState => { c with a := v, p := nzOf c.p v }) hread,
    congrArg (fun c : ProcessorState => { c with x := v, p := nzOf c.p v }) hread,
    congrArg (fun c : ProcessorState => { c with y := v, p := nzOf c.p v }) hread⟩

/-- Settles O11: the encodings, then the register, the flags and the frame of the operand read. -/
theorem loadsSetRegister : Obligations.LoadsSetRegister := by
  refine ⟨fun d a => ?lda, fun d a => ?ldxLdy, fun m s => ?meaning⟩
  case lda => refine ⟨?_, ?_, ?_, ?_, ?_, ?_, ?_, ?_⟩ <;> exact encodedBy_of_opcode rfl rfl
  case ldxLdy => refine ⟨?_, ?_, ?_, ?_, ?_, ?_, ?_, ?_, ?_, ?_⟩ <;> exact encodedBy_of_opcode rfl rfl
  case meaning =>
    obtain ⟨ha, hx, hy⟩ := load_cpu m s
    have hframe := readOperand_frame m s
    exact ⟨⟨_, rfl, ha, hframe.congr rfl rfl rfl rfl⟩, ⟨_, rfl, hx, hframe.congr rfl rfl rfl rfl⟩,
      ⟨_, rfl, hy, hframe.congr rfl rfl rfl rfl⟩⟩

/-! Stores (rules R113 to R115). -/

/-- The byte a store leaves at the effective address (rule R100). -/
theorem writeOperand_stored (m : EaMode) (v : Byte) {s : State} (h : s.bus.mem.wf = true) :
    (writeOperand m v s).bus.mem.read (addressOf m s).toNat = v := by
  rw [writeOperand_mem]
  exact Memory.read_write_same h _ v

/-- A store of any byte: no register, the frame, the Bus calls and the byte stored (rule R100). -/
theorem writeOperand_effect (m : EaMode) (v : Byte) (s : State) :
    let t := writeOperand m v s
    t.cpu = { s.cpu with es := t.cpu.es } ∧ Frame [addressOf m s] 0 s t ∧
      t.bus.trace = .poke (addressOf m s) v :: (pointerPeeks m s ++ s.bus.trace) ∧
      (s.bus.mem.wf = true → t.bus.mem.read (addressOf m s).toNat = v) :=
  ⟨(writeOperand_busOnly m v s).1, writeOperand_frame m v s, writeOperand_trace m v s, writeOperand_stored m v⟩

/-- Settles O12: the encodings, then each store as the write of its register. -/
theorem storesWriteRegister : Obligations.StoresWriteRegister := by
  refine ⟨fun d a => ?encodings, fun m s => ?meaning⟩
  case encodings => refine ⟨?_, ?_, ?_, ?_, ?_, ?_, ?_, ?_, ?_, ?_, ?_, ?_, ?_⟩ <;> exact encodedBy_of_opcode rfl rfl
  case meaning =>
    exact ⟨⟨_, rfl, writeOperand_effect m s.cpu.a s⟩, ⟨_, rfl, writeOperand_effect m s.cpu.x s⟩,
      ⟨_, rfl, writeOperand_effect m s.cpu.y s⟩⟩

/-! Pushes (rules R122, R123). -/

/-- A push of any byte: `SP`, the frame, the Bus call and the byte stored (rule R49). -/
theorem push_effect (v : Byte) (s : State) :
    let t := push v s
    t.cpu = { s.cpu with sp := s.cpu.sp - 1, es := t.cpu.es } ∧ Frame [stackAddr s.cpu.sp] 0 s t ∧
      t.bus.trace = .poke (stackAddr s.cpu.sp) v :: s.bus.trace ∧
      (s.bus.mem.wf = true → t.bus.mem.read (stackAddr s.cpu.sp).toNat = v) := by
  have hframe := (poke_busOnly (stackAddr s.cpu.sp) v s).frame_write (poke_mem _ v s) (poke_cycles _ v s)
  refine ⟨(push_frame v s).1, hframe.congr rfl rfl rfl rfl, push_trace v s, fun hm => ?_⟩
  rw [push_mem, Memory.read_write_same hm]

/-- Bit 5 of `P()` is 1 and bit 4 the stored `B` (rule R21). -/
theorem Flags.pack_bits_five_four (p : Flags) : p.pack.getLsbD 5 = true ∧ p.pack.getLsbD 4 = p.b := by
  obtain ⟨n, v, b, d, i, z, c⟩ := p
  revert n v b d i z c
  decide

/-- Settles O14: both are pushes, of `A` and of `P()`. -/
theorem pushesStoreByte : Obligations.PushesStoreByte :=
  ⟨encodedBy_of_opcode rfl rfl, encodedBy_of_opcode rfl rfl, fun s =>
    ⟨⟨_, rfl, push_effect s.cpu.a s⟩, ⟨_, rfl, push_effect s.cpu.p.pack s, s.cpu.p.pack_bits_five_four⟩⟩⟩

/-! Pulls (rules R124, R125). -/

/-- A pull stores nothing and charges nothing (rule R49). -/
theorem pull_memoryFrame (s : State) : Frame [] 0 s (pull s).2 :=
  ⟨fun _ _ => by rw [pull_mem], (Collaborators.refl s).pull, pull_draws s, pull_cycles s⟩

/-- Settles O15: both are a pull, after which only registers and flags are written. -/
theorem pullsLoadByte : Obligations.PullsLoadByte := by
  refine ⟨encodedBy_of_opcode rfl rfl, encodedBy_of_opcode rfl rfl, fun s => ?_⟩
  have hframe := pull_memoryFrame s
  exact ⟨pull_answered s, ⟨_, rfl, hframe.congr rfl rfl rfl rfl, pull_trace s, rfl⟩,
    ⟨_, rfl, hframe.congr rfl rfl rfl rfl, pull_trace s, rfl⟩⟩

/-! Transfers (rules R116 to R121). -/

/-- Settles O13: five are `transfer`, whose effect is known in full, and TXS is the update of `SP`. -/
theorem transfersCopyRegister : Obligations.TransfersCopyRegister := by
  refine ⟨encodedBy_of_opcode rfl rfl, encodedBy_of_opcode rfl rfl, encodedBy_of_opcode rfl rfl,
    encodedBy_of_opcode rfl rfl, encodedBy_of_opcode rfl rfl, encodedBy_of_opcode rfl rfl, fun s => ?_⟩
  obtain ⟨-, htax, htay⟩ := transfer_frame s.cpu.a s
  obtain ⟨-, htsx, -⟩ := transfer_frame s.cpu.sp s
  obtain ⟨htxa, -⟩ := transfer_frame s.cpu.x s
  obtain ⟨htya, -⟩ := transfer_frame s.cpu.y s
  exact ⟨congrArg Host.Outcome.next htax, congrArg Host.Outcome.next htay, congrArg Host.Outcome.next htsx,
    congrArg Host.Outcome.next htxa, rfl, congrArg Host.Outcome.next htya⟩

end Sys2Proof.Machine

/-! SUPPORT. Arithmetic, compares, increments and decrements (spec/42_arithmetic.md). -/

namespace Sys2Proof.Machine

/-! The encodings. -/

/-- The rows of `AluEncodings`, from the opcodes and their cycles (rules R131, R133, R136). -/
theorem aluEncodings_of_encode {i : ReadMode → Instr} {imm zp zpx abs absx absy indx indy : Byte}
    (h : ∀ (d : Byte) (a : Word),
      [.imm d, .mem (.zp d), .mem (.zpx d), .mem (.abs a), .mem (.absx a), .mem (.absy a), .mem (.indx d),
        .mem (.indy d)].map (fun m => encode (i m)) =
      [some [imm, d], some [zp, d], some [zpx, d], some [abs, loByte a, hiByte a], some [absx, loByte a, hiByte a],
        some [absy, loByte a, hiByte a], some [indx, d], some [indy, d]])
    (hn : [imm, zp, zpx, abs, absx, absy, indx, indy].map cycleTable = [2, 3, 4, 4, 4, 4, 6, 5]) :
    AluEncodings i imm zp zpx abs absx absy indx indy := by
  intro d a
  have hda := h d a
  simp only [List.map_cons, List.map_nil, List.cons.injEq, and_true] at hda hn
  obtain ⟨himm, hzp, hzpx, habs, habsx, habsy, hindx, hindy⟩ := hda
  obtain ⟨nimm, nzp, nzpx, nabs, nabsx, nabsy, nindx, nindy⟩ := hn
  exact ⟨encodedBy_of_opcode himm nimm, encodedBy_of_opcode hzp nzp, encodedBy_of_opcode hzpx nzpx,
    encodedBy_of_opcode habs nabs, encodedBy_of_opcode habsx nabsx, encodedBy_of_opcode habsy nabsy,
    encodedBy_of_opcode hindx nindx, encodedBy_of_opcode hindy nindy⟩

/-! The adder in numbers (rule R130). -/

theorem carryNat_eq_toNat (c : Bool) : carryNat c = c.toNat := by cases c <;> rfl

theorem carryNat_le_one (c : Bool) : carryNat c ≤ 1 := by cases c <;> decide

/-- Nine bits hold the sum of two bytes and a carry (rule R130). -/
theorem nineBitSum_toNat (a m : Byte) (c : Bool) :
    (a.setWidth 9 + m.setWidth 9 + (BitVec.ofBool c).setWidth 9).toNat = a.toNat + m.toNat + carryNat c := by
  have := carryNat_le_one c
  simp only [BitVec.toNat_add, BitVec.toNat_setWidth, BitVec.toNat_ofBool, ← carryNat_eq_toNat]
  omega

theorem addBin_r (a m : Byte) (c : Bool) : (addBin a m c).r = BitVec.ofNat 8 (a.toNat + m.toNat + carryNat c) := by
  apply BitVec.eq_of_toNat_eq
  rw [← nineBitSum_toNat, addBin, BitVec.toNat_setWidth, BitVec.toNat_ofNat]

/-- The carry out is the ninth bit (rule R130). -/
theorem addBin_cout (a m : Byte) (c : Bool) : (addBin a m c).cout = decide (255 < a.toNat + m.toNat + carryNat c) := by
  rw [← nineBitSum_toNat]
  exact (BitVec.msb_eq_getLsbD_last _).symm.trans (BitVec.msb_eq_decide _)

/-- The overflow is a result whose sign is that of neither operand (rule R130). -/
theorem addBin_v (a m : Byte) (c : Bool) :
    (addBin a m c).v =
      decide (a.toInt + m.toInt + carryNat c < -128 ∨ 127 < a.toInt + m.toInt + carryNat c) := by
  have hc := carryNat_le_one c
  have hv : (addBin a m c).v = ((a ^^^ (addBin a m c).r) &&& (m ^^^ (addBin a m c).r)).getLsbD 7 := rfl
  rw [hv, addBin_r, BitVec.getLsbD_and, BitVec.getLsbD_xor, BitVec.getLsbD_xor, Bool.eq_iff_iff]
  simp only [getLsbD_seven, BitVec.toNat_ofNat, BitVec.toInt_eq_toNat_cond, Bool.and_eq_true, bne_iff_ne, ne_eq,
    decide_eq_decide, decide_eq_true_eq]
  split <;> split <;> omega

/-- The adder, each part a number (rule R130). -/
theorem addBin_eq (a m : Byte) (c : Bool) :
    addBin a m c = {
      r := BitVec.ofNat 8 (a.toNat + m.toNat + carryNat c)
      cout := decide (255 < a.toNat + m.toNat + carryNat c)
      v := decide (a.toInt + m.toInt + carryNat c < -128 ∨ 127 < a.toInt + m.toInt + carryNat c) } := by
  rw [← addBin_r, ← addBin_cout, ← addBin_v]

/-- Settles O17: the parts of the adder as numbers. -/
theorem adderLaw : Obligations.AdderLaw := by
  intro a m c
  rw [addBin_eq]
  exact ⟨BitVec.toNat_ofNat .., rfl, rfl⟩

/-- The complement is the value reflected, unsigned and signed. -/
theorem not_toNat_toInt (m : Byte) : (~~~m).toNat = 255 - m.toNat ∧ (~~~m).toInt = -m.toInt - 1 := by
  have hnot : (~~~m).toNat = 255 - m.toNat := BitVec.toNat_not
  have := m.isLt
  refine ⟨hnot, ?_⟩
  rw [BitVec.toInt_eq_toNat_cond, BitVec.toInt_eq_toNat_cond, hnot]
  split <;> split <;> omega

/-- Adding the complement is the difference less the borrow, and the carry out is no borrow (rule R133). -/
theorem addBin_not_eq (a m : Byte) (c : Bool) :
    addBin a (~~~m) c = {
      r := BitVec.ofInt 8 ((a.toNat : Int) - m.toNat - (1 - carryNat c : Nat))
      cout := decide (m.toNat + (1 - carryNat c) ≤ a.toNat)
      v := decide (a.toInt - m.toInt - (1 - carryNat c : Nat) < -128 ∨
        127 < a.toInt - m.toInt - (1 - carryNat c : Nat)) } := by
  have := carryNat_le_one c
  have := m.isLt
  obtain ⟨hnat, hint⟩ := not_toNat_toInt m
  rw [addBin_eq, hnat, hint, AluResult.mk.injEq, decide_eq_decide, decide_eq_decide]
  refine ⟨BitVec.eq_of_toNat_eq ?_, ?_, ?_⟩
  · rw [BitVec.toNat_ofNat, BitVec.toNat_ofInt]
    omega
  · omega
  · omega

/-! ADC and SBC: the read, then the write of a result (rules R131, R133, R135). -/

section
variable {s : State}

theorem addSub_readOperand_of_binary {bin : Byte → Byte → Bool → AluResult}
    {dec : Nat → Byte → Byte → Bool → AluResult} (hd : s.cpu.p.d = false) (m : ReadMode) :
    addSub bin dec (readOperand m s).1 (readOperand m s).2 =
      (readOperand m s).2.setAlu (bin s.cpu.a (readOperand m s).1 s.cpu.p.c) := by
  have hread := readOperand_busOnly m s
  simp [addSub, hread.p, hread.a, hd]

theorem addSub_readOperand_of_decimal {bin : Byte → Byte → Bool → AluResult}
    {dec : Nat → Byte → Byte → Bool → AluResult} (hd : s.cpu.p.d = true) (m : ReadMode) :
    addSub bin dec (readOperand m s).1 (readOperand m s).2 =
      ((readOperand m s).2.setAlu (dec s.draws s.cpu.a (readOperand m s).1 s.cpu.p.c)).nextDraw := by
  have hread := readOperand_busOnly m s
  simp [addSub, hread.p, hread.a, hread.draws, hd]

theorem exec_adc_of_binary (hd : s.cpu.p.d = false) (m : ReadMode) :
    exec (.adc m) s = .next ((readOperand m s).2.setAlu (addBin s.cpu.a (readOperand m s).1 s.cpu.p.c)) :=
  congrArg _ (addSub_readOperand_of_binary hd m)

theorem exec_sbc_of_binary (hd : s.cpu.p.d = false) (m : ReadMode) :
    exec (.sbc m) s = .next ((readOperand m s).2.setAlu (addBin s.cpu.a (~~~(readOperand m s).1) s.cpu.p.c)) :=
  congrArg _ (addSub_readOperand_of_binary hd m)

theorem exec_adc_of_decimal (hd : s.cpu.p.d = true) (m : ReadMode) :
    exec (.adc m) s =
      .next ((readOperand m s).2.setAlu (decAdd s.draws s.cpu.a (readOperand m s).1 s.cpu.p.c)).nextDraw :=
  congrArg _ (addSub_readOperand_of_decimal hd m)

theorem exec_sbc_of_decimal (hd : s.cpu.p.d = true) (m : ReadMode) :
    exec (.sbc m) s =
      .next ((readOperand m s).2.setAlu (decSub s.draws s.cpu.a (readOperand m s).1 s.cpu.p.c)).nextDraw :=
  congrArg _ (addSub_readOperand_of_decimal hd m)

end

/-- A result written after the read: the frame of the read, `A` and four flags. -/
theorem readOperand_setAlu_effect (m : ReadMode) (s : State) (t : AluResult) :
    let u := (readOperand m s).2.setAlu t
    Frame [] (penaltyOf m s) s u ∧
    u.cpu = { s.cpu with a := t.r, p := { nzOf s.cpu.p t.r with c := t.cout, v := t.v }, es := u.cpu.es } :=
  ⟨(readOperand_frame m s).congr rfl rfl rfl rfl,
    congrArg (fun c : ProcessorState => { c with a := t.r, p := c.p.setAlu t }) (readOperand_busOnly m s).1⟩

/-- The same in decimal mode, where a draw is used (rule R135). -/
theorem readOperand_setAlu_nextDraw_effect (m : ReadMode) (s : State) (t : AluResult) :
    let u := ((readOperand m s).2.setAlu t).nextDraw
    u.cpu = { s.cpu with a := t.r, p := { nzOf s.cpu.p t.r with c := t.cout, v := t.v }, es := u.cpu.es } ∧
    MemorySameOutside [] s u ∧ Collaborators s u ∧ u.draws = s.draws + 1 ∧
    u.bus.cycles = s.bus.cycles + penaltyOf m s := by
  obtain ⟨⟨hmem, hcoll, hdraws, hcycles⟩, hcpu⟩ := readOperand_setAlu_effect m s t
  exact ⟨hcpu, hmem, hcoll, congrArg (· + 1) hdraws, hcycles⟩

/-- Settles O18: the encodings, then the read and the adder in numbers. -/
theorem adcBinary : Obligations.AdcBinary := by
  refine ⟨aluEncodings_of_encode (fun _ _ => rfl) rfl, fun m s hd => ?_⟩
  have hrun := exec_adc_of_binary hd m
  rw [addBin_eq] at hrun
  exact ⟨_, hrun, readOperand_setAlu_effect m s _⟩

/-- Settles O19: the encodings, then the read and the adder on the complement in numbers. -/
theorem sbcBinary : Obligations.SbcBinary := by
  refine ⟨aluEncodings_of_encode (fun _ _ => rfl) rfl, fun m s hd => ?_⟩
  have hrun := exec_sbc_of_binary hd m
  rw [addBin_not_eq] at hrun
  exact ⟨_, hrun, readOperand_setAlu_effect m s _⟩

/-! Decimal mode (rules R132, R134, R135). -/

theorem validBcd_iff {v : Byte} : validBcd v = true ↔ hiNibble v ≤ 9 ∧ loNibble v ≤ 9 := by
  simp [validBcd]

/-- On valid BCD the sum is the decimal one (rule R132). -/
theorem decAdd_of_valid {a m : Byte} (ha : validBcd a = true) (hm : validBcd m = true) (k : Nat) (c : Bool) :
    decAdd k a m c = {
      r := toBcd ((bcdValue a + bcdValue m + carryNat c) % 100)
      cout := decide (99 < bcdValue a + bcdValue m + carryNat c)
      v := Config.decV k } := by
  simp [decAdd, ha, hm]

/-- On valid BCD the difference is the decimal one (rule R134). -/
theorem decSub_of_valid {a m : Byte} (ha : validBcd a = true) (hm : validBcd m = true) (k : Nat) (c : Bool) :
    decSub k a m c = {
      r := toBcd (((bcdValue a : Int) - bcdValue m - (1 - carryNat c)) % 100).toNat
      cout := decide (0 ≤ (bcdValue a : Int) - bcdValue m - (1 - carryNat c))
      v := Config.decV k } := by
  simp [decSub, ha, hm]

/-- Settles O20: the read, the decimal result on valid BCD, and the draw. -/
theorem decimalResults : Obligations.DecimalResults := by
  intro m s hd v hah hal hvh hvl
  have ha := validBcd_iff.mpr ⟨hah, hal⟩
  have hv := validBcd_iff.mpr ⟨hvh, hvl⟩
  have hadc := exec_adc_of_decimal hd m
  have hsbc := exec_sbc_of_decimal hd m
  rw [decAdd_of_valid ha hv] at hadc
  rw [decSub_of_valid ha hv] at hsbc
  exact ⟨⟨_, hadc, readOperand_setAlu_nextDraw_effect m s _⟩, ⟨_, hsbc, readOperand_setAlu_nextDraw_effect m s _⟩⟩

/-- Settles O21: the read and the draw, whatever the decimal result. -/
theorem decimalInvalidOperandsRun : Obligations.DecimalInvalidOperandsRun := fun m s hd _ =>
  ⟨⟨_, exec_adc_of_decimal hd m, readOperand_setAlu_nextDraw_effect m s _⟩,
    ⟨_, exec_sbc_of_decimal hd m, readOperand_setAlu_nextDraw_effect m s _⟩⟩

/-- A byte is its nibbles. -/
theorem toNat_eq_nibbles (v : Byte) : v.toNat = 16 * hiNibble v + loNibble v := (Nat.div_add_mod v.toNat 16).symm

/-- The digits of a number given by tens and ones, with the carry or borrow between them (rules R132, R134). -/
theorem toBcd_digits (tens ones : Int) :
    toBcd ((10 * tens + ones) % 100).toNat = BitVec.ofInt 8 (16 * ((tens + ones / 10) % 10) + ones % 10) := by
  have hlow : ((10 * tens + ones) % 100).toNat % 10 = (ones % 10).toNat := by omega
  have hhigh : ((10 * tens + ones) % 100).toNat / 10 = ((tens + ones / 10) % 10).toNat := by omega
  apply BitVec.eq_of_toNat_eq
  rw [toBcd, hlow, hhigh, BitVec.toNat_ofNat, BitVec.toNat_ofInt]
  omega

/-- Adding 6 to the low digit and 0x60 to the high one carries at ten; the cases are the two carries (rule R132). -/
theorem decAddDefault_eq {a m : Byte} (ha : validBcd a = true) (hm : validBcd m = true) (k : Nat) (c : Bool) :
    decAddDefault a m c = ((decAdd k a m c).r, (decAdd k a m c).cout) := by
  have hsum : (bcdValue a + bcdValue m + carryNat c) % 100 =
      ((10 * (hiNibble a + hiNibble m) + (loNibble a + loNibble m + carryNat c) : Int) % 100).toNat := by
    simp only [bcdValue]
    omega
  have := carryNat_le_one c
  rw [decAdd_of_valid ha hm, hsum, toBcd_digits]
  rw [validBcd_iff] at ha hm
  refine Prod.ext (BitVec.eq_of_toNat_eq ?_) (decide_eq_decide.mpr ?_)
  · simp only [decAddDefault, BitVec.toNat_ofNat, BitVec.toNat_ofInt]
    split <;> split <;> omega
  · simp only [bcdValue]
    split <;> split <;> omega

/-- Taking 6 from the low digit and 0x60 from the high one borrows ten; the cases are the two borrows. Valid BCD bytes
compare as the numbers they spell, so the binary carry is the decimal one (rule R134). -/
theorem decSubDefault_eq {a m : Byte} (ha : validBcd a = true) (hm : validBcd m = true) (k : Nat) (c : Bool) :
    decSubDefault a m c = ((decSub k a m c).r, (decSub k a m c).cout) := by
  have hdiff : (bcdValue a : Int) - bcdValue m - (1 - carryNat c) =
      10 * (hiNibble a - hiNibble m) + (loNibble a - loNibble m + carryNat c - 1) := by
    simp only [bcdValue]
    omega
  have := carryNat_le_one c
  rw [decSub_of_valid ha hm, hdiff, toBcd_digits, decSubDefault, addBin_not_eq]
  rw [validBcd_iff] at ha hm
  refine Prod.ext (BitVec.eq_of_toNat_eq ?_) (decide_eq_decide.mpr ?_)
  · simp only [BitVec.toNat_ofInt]
    split <;> split <;> omega
  · rw [toNat_eq_nibbles, toNat_eq_nibbles]
    omega

/-- Settles O25: both algorithms on valid BCD. -/
theorem decimalDefaultsAgree : Obligations.DecimalDefaultsAgree := by
  intro k a m c hah hal hmh hml
  have ha := validBcd_iff.mpr ⟨hah, hal⟩
  have hm := validBcd_iff.mpr ⟨hmh, hml⟩
  exact ⟨decAddDefault_eq ha hm k c, decSubDefault_eq ha hm k c⟩

/-! Compares (rules R136 to R138). -/

/-- Settles O22: the encodings, then each as `compare` of its register. -/
theorem comparesSetFlags : Obligations.ComparesSetFlags := by
  refine ⟨aluEncodings_of_encode (fun _ _ => rfl) rfl, fun d a => ?cpxCpy, fun m s => ?meaning⟩
  case cpxCpy => refine ⟨?_, ?_, ?_, ?_, ?_, ?_⟩ <;> exact encodedBy_of_opcode rfl rfl
  case meaning =>
    exact ⟨⟨_, rfl, compare_cpu s.cpu.a m s, compare_frame _ m s⟩,
      ⟨_, rfl, compare_cpu s.cpu.x m s, compare_frame _ m s⟩, ⟨_, rfl, compare_cpu s.cpu.y m s, compare_frame _ m s⟩⟩

/-! Increments and decrements (rules R139 to R144). -/

theorem add_one_eq_ofNat (v : Byte) : v + 1 = BitVec.ofNat 8 (v.toNat + 1) := by bv_omega

theorem sub_one_eq_ofNat (v : Byte) : v - 1 = BitVec.ofNat 8 (v.toNat + 255) := by bv_omega

/-- INC and DEC in full, for the byte `r` they store (rules R139, R140). -/
theorem modifyNZ_effect {m : EaMode} {f : Byte → Byte} {s : State} {r : Byte} (h : f (byteRead m s) = r) :
    let t := modifyNZ m f s
    t.cpu = { s.cpu with p := nzOf s.cpu.p r, es := t.cpu.es } ∧ Frame [addressOf m s] 0 s t ∧
    t.bus.trace = .poke (addressOf m s) r :: .peek (addressOf m s) :: (pointerPeeks m s ++ s.bus.trace) ∧
    (s.bus.mem.wf = true → t.bus.mem.read (addressOf m s).toNat = r) := by
  subst h
  refine ⟨modifyNZ_cpu m f s, modifyNZ_frame m f s, ?_, modifyNZ_stored m f⟩
  rw [modifyNZ_bus, modifyOperand_mem_trace]

/-- Settles O23: the encodings, then `modifyNZ` with the byte plus and minus one as a number. -/
theorem incrementsMemory : Obligations.IncrementsMemory :=
  ⟨modifyEncodings_of_encode (fun _ _ => ⟨rfl, rfl, rfl, rfl⟩) ⟨rfl, rfl, rfl, rfl⟩,
    modifyEncodings_of_encode (fun _ _ => ⟨rfl, rfl, rfl, rfl⟩) ⟨rfl, rfl, rfl, rfl⟩, fun _ _ =>
    ⟨⟨_, rfl, modifyNZ_effect (add_one_eq_ofNat _)⟩, ⟨_, rfl, modifyNZ_effect (sub_one_eq_ofNat _)⟩⟩⟩

/-- Settles O24: the encodings, then the register plus and minus one as a number. -/
theorem incrementsIndex : Obligations.IncrementsIndex := by
  refine ⟨encodedBy_of_opcode rfl rfl, encodedBy_of_opcode rfl rfl, encodedBy_of_opcode rfl rfl,
    encodedBy_of_opcode rfl rfl, fun s => ?_⟩
  simp only [← add_one_eq_ofNat, ← sub_one_eq_ofNat]
  exact ⟨rfl, rfl, rfl, rfl⟩

end Sys2Proof.Machine

/-! SUPPORT. The logical operations and BIT (rules R150 to R153). -/

namespace Sys2Proof.Machine

/-- A logical operation that works bit by bit: each bit of `A`, the flags of the new `A`, and the frame of the read
(rules R150 to R152). -/
theorem logic_effect {op : Byte → Byte → Byte} {bitOp : Bool → Bool → Bool}
    (h : ∀ a v k, (op a v).getLsbD k = bitOp (a.getLsbD k) (v.getLsbD k)) (m : ReadMode) (s : State) :
    let t := logic op m s
    (∀ k < 8, t.cpu.a.getLsbD k = bitOp (s.cpu.a.getLsbD k) ((readOperand m s).1.getLsbD k)) ∧
    t.cpu = { s.cpu with a := t.cpu.a, p := nzOf s.cpu.p t.cpu.a, es := t.cpu.es } ∧
    Frame [] (penaltyOf m s) s t := by
  intro t
  have ha : t.cpu.a = op s.cpu.a (readOperand m s).1 := congrArg ProcessorState.a (logic_cpu op m s)
  rw [ha]
  exact ⟨fun k _ => h _ _ k, logic_cpu op m s, logic_frame op m s⟩

/-- Settles O26: the encodings, then each operation bit by bit. -/
theorem logicCombinesBits : Obligations.LogicCombinesBits :=
  ⟨aluEncodings_of_encode (fun _ _ => rfl) rfl, aluEncodings_of_encode (fun _ _ => rfl) rfl,
    aluEncodings_of_encode (fun _ _ => rfl) rfl, fun m s =>
    ⟨⟨_, rfl, logic_effect (fun _ _ _ => BitVec.getLsbD_and) m s⟩,
      ⟨_, rfl, logic_effect (fun _ _ _ => BitVec.getLsbD_or) m s⟩,
      ⟨_, rfl, logic_effect (fun _ _ _ => BitVec.getLsbD_xor) m s⟩⟩⟩

/-- BIT writes three flags after its read, from `A` and the byte read (rule R153). -/
theorem readOperand_setBit_effect (m : ReadMode) (s : State) :
    let v := (readOperand m s).1
    let u := (readOperand m s).2
    let t := u.setP (u.cpu.p.setBit u.cpu.a v)
    Frame [] (penaltyOf m s) s t ∧ t.cpu = { s.cpu with p := s.cpu.p.setBit s.cpu.a v, es := t.cpu.es } :=
  ⟨(readOperand_frame m s).congr rfl rfl rfl rfl,
    congrArg (fun c : ProcessorState => { c with p := c.p.setBit c.a (readOperand m s).1 }) (readOperand_busOnly m s).1⟩

/-- Settles O27: the two encodings, then the read and the flags it sets. -/
theorem bitTestsMemory : Obligations.BitTestsMemory :=
  ⟨fun _ _ => ⟨encodedBy_of_opcode rfl rfl, encodedBy_of_opcode rfl rfl⟩,
    fun m s => ⟨_, rfl, readOperand_setBit_effect (.mem m) s⟩⟩

end Sys2Proof.Machine

/-! SUPPORT. Branches, jumps, subroutines, flag instructions, BRK and RTI (spec/44_control_flags_system.md). -/

namespace Sys2Proof.Machine

/-! Steps of the stack pointer. -/

theorem add_one_add_one (v : Byte) : v + 1 + 1 = v + 2 := BitVec.add_assoc v 1 1

theorem add_two_add_one (v : Byte) : v + 2 + 1 = v + 3 := BitVec.add_assoc v 2 1

theorem sub_one_sub_one (v : Byte) : v - 1 - 1 = v - 2 := by bv_omega

/-! Branches (rules R170 to R178). -/

/-- A branch target in numbers: the displacement is signed and the sum wraps (rule R98). -/
theorem branchTarget_eq_ofInt (pc : Word) (d : Byte) :
    branchTarget pc d = BitVec.ofInt 16 ((pc.toNat : Int) + d.toInt) := by
  rw [branchTarget, sext16_eq_ofInt, BitVec.ofInt_add, BitVec.ofInt_natCast, BitVec.ofNat_toNat, BitVec.setWidth_eq]

/-- A branch on any condition, in numbers: `PC`, the frame with the penalties, and their Bus calls (rules R170,
R249). -/
theorem branch_effect (taken : Bool) (d : Byte) (s : State) :
    let target := BitVec.ofInt 16 ((s.cpu.pc.toNat : Int) + d.toInt)
    let crossed := decide (target.toNat / 256 ≠ s.cpu.pc.toNat / 256)
    let t := branch taken d s
    t.cpu = { s.cpu with pc := if taken then target else s.cpu.pc } ∧
    Frame [] (if taken then (if crossed then 2 else 1) else 0) s t ∧
    t.bus.trace =
      (if taken then (if crossed then [.cycles 1, .cycles 1] else [.cycles 1]) else []) ++ s.bus.trace := by
  simp only [← branchTarget_eq_ofInt, decide_eq_true_eq, ne_eq, ← page_eq_iff]
  exact ⟨branch_cpu taken d s, branch_frame taken d s, branch_trace taken d s⟩

/-- Settles O30: each branch is its encoding and `branch` on its condition. -/
theorem branchesOnFlags : Obligations.BranchesOnFlags := by
  intro d s
  refine ⟨?_, ?_, ?_, ?_, ?_, ?_, ?_, ?_⟩ <;> exact ⟨encodedBy_of_opcode rfl rfl, _, rfl, branch_effect _ d s⟩

/-! JMP (rules R95, R180). -/

/-- The address of the pointer's second byte, which stays in the pointer's page (rule R95). -/
theorem makeWord_hi_lo_add_one (w : Word) :
    makeWord (hiByte w) (loByte w + 1) = BitVec.ofNat 16 (256 * (w.toNat / 256) + (w.toNat + 1) % 256) := by
  apply BitVec.eq_of_toNat_eq
  rw [makeWord_toNat, hiByte_toNat, BitVec.toNat_add, loByte_toNat, BitVec.toNat_ofNat]
  bv_omega

/-- The word behind a pointer: the frame, the Bus calls and the answers it is made of (rule R95). -/
theorem indirectTarget_effect (ptr : Word) (s : State) :
    let r := indirectTarget ptr s
    let hiAt := BitVec.ofNat 16 (256 * (ptr.toNat / 256) + (ptr.toNat + 1) % 256)
    Frame [] 0 s r.2 ∧ r.2.bus.trace = .peek hiAt :: .peek ptr :: s.bus.trace ∧
      r.1.toNat = 256 * (s.bus.answered 1 hiAt).toNat + (s.bus.answered 0 ptr).toNat := by
  rw [← makeWord_hi_lo_add_one]
  exact ⟨(indirectTarget_busOnly ptr s).frame rfl rfl, rfl, peekWord_toNat _ _ s⟩

/-- Settles O31: the direct jump is the update of `PC`, the indirect one loads it with the word behind the pointer. -/
theorem jumpsSetPc : Obligations.JumpsSetPc := by
  intro a s
  obtain ⟨hframe, htrace, hword⟩ := indirectTarget_effect a s
  exact ⟨encodedBy_of_opcode rfl rfl, encodedBy_of_opcode rfl rfl, rfl, _, rfl, rfl, hframe.congr rfl rfl rfl rfl,
    htrace, hword⟩

/-! Subroutines (rules R181 to R183): a word pushed, a word pulled, and both in turn. -/

/-- A push of a word: `SP`, the frame, the Bus calls and the bytes stored (rules R46, R49). -/
theorem pushWord_effect (w : Word) (s : State) :
    let t := pushWord w s
    t.cpu = { s.cpu with sp := s.cpu.sp - 2, es := t.cpu.es } ∧
    Frame [stackAddr s.cpu.sp, stackAddr (s.cpu.sp - 1)] 0 s t ∧
    t.bus.trace =
      .poke (stackAddr (s.cpu.sp - 1)) (loByte w) :: .poke (stackAddr s.cpu.sp) (hiByte w) :: s.bus.trace ∧
    (s.bus.mem.wf = true →
      t.bus.mem.read (stackAddr s.cpu.sp).toNat = hiByte w ∧
      t.bus.mem.read (stackAddr (s.cpu.sp - 1)).toNat = loByte w) := by
  rw [← sub_one_sub_one]
  exact ⟨(pushWord_frame w s).1, ⟨pushWord_memory w s, (Collaborators.refl s).pushWord w, rfl, rfl⟩, rfl,
    pushWord_stored w⟩

/-- A pull of a word: `SP`, the frame, the Bus calls and the answers it is made of (rules R46, R49). -/
theorem pullWord_effect (s : State) :
    let r := pullWord s
    r.2.cpu = { s.cpu with sp := s.cpu.sp + 2, es := r.2.cpu.es } ∧ Frame [] 0 s r.2 ∧
    r.2.bus.trace = .peek (stackAddr (s.cpu.sp + 2)) :: .peek (stackAddr (s.cpu.sp + 1)) :: s.bus.trace ∧
    r.1.toNat = 256 * (s.bus.answered 1 (stackAddr (s.cpu.sp + 2))).toNat +
      (s.bus.answered 0 (stackAddr (s.cpu.sp + 1))).toNat := by
  rw [← add_one_add_one]
  refine ⟨(pullWord_frame s).1, ⟨fun _ _ => rfl, (Collaborators.refl s).pullWord, rfl, rfl⟩, rfl, ?_⟩
  rw [pullWord_answered, makeWord_toNat]

/-- Settles O32: JSR pushes the word before `PC` and loads `PC`. -/
theorem jsrPushesReturnAddress : Obligations.JsrPushesReturnAddress := by
  intro a s
  obtain ⟨hcpu, hframe, htrace, hstored⟩ := pushWord_effect (s.cpu.pc - 1) s
  exact ⟨encodedBy_of_opcode rfl rfl, _, rfl, congrArg (fun c : ProcessorState => { c with pc := a }) hcpu,
    hframe.congr rfl rfl rfl rfl, htrace, hstored⟩

/-- RTS loads `PC` with the word pulled, plus one (rule R182). -/
theorem exec_rts (s : State) : exec .rts s = .next ((pullWord s).2.setPC ((pullWord s).1 + 1)) := rfl

/-- Settles O33: RTS pulls a word and loads `PC` with the next one. -/
theorem rtsPullsReturnAddress : Obligations.RtsPullsReturnAddress := by
  refine ⟨encodedBy_of_opcode rfl rfl, fun s => ?_⟩
  obtain ⟨hcpu, hframe, htrace, hword⟩ := pullWord_effect s
  refine ⟨_, exec_rts s, congrArg (fun c : ProcessorState => { c with pc := (pullWord s).1 + 1 }) hcpu,
    hframe.congr rfl rfl rfl rfl, htrace, ?_⟩
  rw [← hword]
  exact BitVec.toNat_add ..

/-- A pull of a word after a push of one gives it back, and the registers, on plain RAM (rules R46, R49). -/
theorem pullWord_pushWord (w : Word) {s : State} (hs : s.bus.script = []) (hm : s.bus.mem.wf = true) :
    (pullWord (pushWord w s)).1 = w ∧ (pullWord (pushWord w s)).2.cpu = s.cpu := by
  have hlo : s.cpu.sp - 1 - 1 + 1 = s.cpu.sp - 1 := BitVec.sub_add_cancel _ _
  have hhi : s.cpu.sp - 1 + 1 = s.cpu.sp := BitVec.sub_add_cancel _ _
  obtain ⟨hhiStored, hloStored⟩ := pushWord_stored w hm
  constructor
  · rw [pullWord_plain (((Collaborators.refl s).pushWord w).plain hs).2, pushWord_sp, hlo, hhi, hhiStored, hloStored,
      makeWord_hi_lo]
  · apply ProcessorState.ext
    case sp => rw [pullWord_sp, pushWord_sp, hlo, hhi]
    case es => exact (((Collaborators.refl s).pushWord w).pullWord.plain hs).1
    all_goals simp

/-- A pull does not look at `PC` (rule R49). -/
theorem pullWord_setPC (s : State) (pc : Word) :
    pullWord (s.setPC pc) = ((pullWord s).1, (pullWord s).2.setPC pc) := rfl

/-- Settles O34: RTS pulls the word JSR pushed, and adds the one that JSR took off. -/
theorem rtsReturnsFromJsr : Obligations.RtsReturnsFromJsr := by
  intro a pc s hs hm
  obtain ⟨hword, hcpu⟩ := pullWord_pushWord (s.cpu.pc - 1) hs hm
  refine ⟨(pushWord (s.cpu.pc - 1) s).setPC a, _, rfl, exec_rts _, ?_⟩
  rw [pullWord_setPC, pullWord_setPC, hword, BitVec.sub_add_cancel]
  exact congrArg (fun c : ProcessorState => { c with pc := s.cpu.pc }) hcpu

/-! Flag instructions and NOP (rules R185 to R191, R195). -/

/-- Settles O35: the encodings; each meaning is the update of one flag. -/
theorem flagInstructionsWriteOneFlag : Obligations.FlagInstructionsWriteOneFlag :=
  ⟨encodedBy_of_opcode rfl rfl, encodedBy_of_opcode rfl rfl, encodedBy_of_opcode rfl rfl, encodedBy_of_opcode rfl rfl,
    encodedBy_of_opcode rfl rfl, encodedBy_of_opcode rfl rfl, encodedBy_of_opcode rfl rfl, encodedBy_of_opcode rfl rfl,
    fun _ => ⟨rfl, rfl, rfl, rfl, rfl, rfl, rfl, rfl⟩⟩

/-! BRK (rules R196, R202). -/

/-- An entry stores its three bytes and charges nothing (rules R196, R208). -/
theorem takeException_frame (cd : Bool) (st : Byte) (vec : Word) (s : State) :
    Frame [stackAddr s.cpu.sp, stackAddr (s.cpu.sp - 1), stackAddr (s.cpu.sp - 2)] 0 s (takeException cd st vec s) :=
  ⟨takeException_memory cd st vec s, takeException_collaborators cd st vec s, takeException_draws cd st vec s,
    takeException_cycles cd st vec s⟩

/-- BRK is the entry at the IRQ vector after `B` is set, with the flags packed as the status byte (rule R196). -/
theorem exec_brk (pad : Byte) (s : State) :
    let p := { s.cpu.p with b := true }
    exec (.brk pad) s = .next (takeException false p.pack vecIrq (s.setP p)) := rfl

/-- An entry after a write of the flags: the registers and flags, the frame, the Bus calls and the bytes stored (rules
R196, R208). -/
theorem takeException_setP_effect (cd : Bool) (st : Byte) (vec : Word) (s : State) (p : Flags) :
    let sp := s.cpu.sp
    let t := takeException cd st vec (s.setP p)
    t.cpu = { s.cpu with
      sp := sp - 3, pc := t.cpu.pc, p := { p with d := if cd then false else p.d, i := true }, es := t.cpu.es } ∧
    Frame [stackAddr sp, stackAddr (sp - 1), stackAddr (sp - 2)] 0 s t ∧
    t.bus.trace = [.peek (vec + 1), .peek vec, .poke (stackAddr (sp - 2)) st,
      .poke (stackAddr (sp - 1)) (loByte s.cpu.pc), .poke (stackAddr sp) (hiByte s.cpu.pc)] ++ s.bus.trace ∧
    (s.bus.mem.wf = true →
      t.bus.mem.read (stackAddr sp).toNat = hiByte s.cpu.pc ∧
      t.bus.mem.read (stackAddr (sp - 1)).toNat = loByte s.cpu.pc ∧
      t.bus.mem.read (stackAddr (sp - 2)).toNat = st) := by
  obtain ⟨hmem, hcollab, hdraws, hcycles⟩ := takeException_frame cd st vec (s.setP p)
  refine ⟨takeException_cpu cd st vec (s.setP p),
    ⟨hmem, hcollab.congr rfl rfl rfl rfl rfl rfl rfl rfl, hdraws, hcycles⟩, ?_,
    takeException_stored cd st vec (s := s.setP p)⟩
  rw [takeException_trace, State.setP_sp, sub_one_sub_one]
  rfl

/-- Settles O36: what an entry does after `B` is set; the vector is outside the stack page. -/
theorem brkEntersHandler : Obligations.BrkEntersHandler := by
  intro pad s
  obtain ⟨hcpu, hframe, htrace, hstored⟩ := takeException_setP_effect false _ vecIrq s { s.cpu.p with b := true }
  refine ⟨encodedBy_of_opcode rfl rfl, _, exec_brk pad s, hcpu, hframe, htrace, hstored, ?_⟩
  rw [takeException_pc _ _ _ (by decide) (by decide), makeWord_toNat]
  rfl

/-! RTI (rules R197, R211, R241). -/

/-- A return stores nothing and charges nothing (rule R197). -/
theorem returnFromException_frame (s : State) : Frame [] 0 s (returnFromException s) :=
  ⟨fun _ _ => by rw [returnFromException_mem], returnFromException_collaborators s, returnFromException_draws s,
    returnFromException_cycles s⟩

/-- A return pulls the status byte and then `PC`, which is made of the second and third answers (rule R197). -/
theorem returnFromException_pc (s : State) :
    (returnFromException s).cpu.pc =
      makeWord (s.bus.answered 2 (stackAddr (s.cpu.sp + 3))) (s.bus.answered 1 (stackAddr (s.cpu.sp + 2))) := by
  have hs : (pull s).2.bus.script = s.bus.script.drop 1 := List.drop_one.symm
  calc (returnFromException s).cpu.pc = (pullWord ((pull s).2.setP (Flags.unpack (pull s).1))).1 := rfl
    _ = _ := by
      rw [pullWord_answered, State.setP_sp, State.setP_bus, pull_sp, add_one_add_one s.cpu.sp, add_two_add_one,
        Bus.answered_drop hs rfl, Bus.answered_drop hs rfl]

/-- Settles O37, field by field of what a return does. -/
theorem rtiRestoresFlagsAndPc : Obligations.RtiRestoresFlagsAndPc := by
  refine ⟨encodedBy_of_opcode rfl rfl, fun s => ?_⟩
  refine ⟨_, rfl, returnFromException_cpu s, returnFromException_frame s, ?_, ?_⟩
  · rw [returnFromException_trace, add_one_add_one s.cpu.sp, add_two_add_one]
    rfl
  · rw [returnFromException_pc, makeWord_toNat]

/-- A return right after an entry restores every register, on plain RAM, and the flags are those of the status byte the
entry was given (rules R197, R211). -/
theorem returnFromException_takeException (cd : Bool) (st : Byte) (vec : Word) {s : State} (hs : s.bus.script = [])
    (hm : s.bus.mem.wf = true) :
    (returnFromException (takeException cd st vec s)).cpu = { s.cpu with p := Flags.unpack st } := by
  have hcollab := takeException_collaborators cd st vec s
  have hplain := (hcollab.plain hs).2
  obtain ⟨hhi, hlo, hst⟩ := takeException_stored cd st vec hm
  have hsp : (takeException cd st vec s).cpu.sp = s.cpu.sp - 3 := by rw [takeException_cpu]
  have h1 : s.cpu.sp - 3 + 1 = s.cpu.sp - 2 := by bv_omega
  have h2 : s.cpu.sp - 3 + 2 = s.cpu.sp - 1 := by bv_omega
  have h3 : s.cpu.sp - 3 + 3 = s.cpu.sp := BitVec.sub_add_cancel _ _
  apply ProcessorState.ext
  case pc =>
    rw [returnFromException_pc, Bus.answered_plain hplain, Bus.answered_plain hplain, hsp, h2, h3, hhi, hlo,
      makeWord_hi_lo]
  case p => rw [returnFromException_cpu, pull_plain hplain, hsp, h1, hst]
  case sp => rw [returnFromException_cpu, hsp, h3]
  case es => exact ((hcollab.trans (returnFromException_collaborators _)).plain hs).1
  all_goals rw [returnFromException_cpu, takeException_cpu]

/-- `P()` with bit 4 clear is the status byte of the flags with `B` clear (rules R21, R208). -/
theorem Flags.pack_and_EF (p : Flags) : p.pack &&& 0xEF = ({ p with b := false } : Flags).pack := by
  obtain ⟨n, v, b, d, i, z, c⟩ := p
  revert n v b d i z c
  decide

/-- Settles O41: both entries are left by the same return, and differ in the `B` of the status byte they push. -/
theorem rtiReturnsFromHandler : Obligations.RtiReturnsFromHandler := by
  intro s hs hm
  constructor
  case left =>
    intro vec
    refine ⟨_, rfl, ?_⟩
    rw [interruptEntry, returnFromException_takeException (s := addCycles 7 s) _ _ _ hs hm, Flags.pack_and_EF,
      Flags.unpack_pack, addCycles_cpu]
  case right =>
    intro pad
    refine ⟨_, _, exec_brk pad s, rfl, ?_⟩
    rw [returnFromException_takeException (s := s.setP { s.cpu.p with b := true }) _ _ _ hs hm, Flags.unpack_pack]
    rfl

end Sys2Proof.Machine

/-! SUPPORT. The hardware interrupt entry (spec/60_exceptions.md). -/

namespace Sys2Proof.Machine

/-- The hardware entry is the common entry after 7 cycles, with the flags packed with `B` clear as the status byte (rules
R21, R208). -/
theorem interruptEntry_eq_takeException (vec : Word) (s : State) :
    interruptEntry vec s = takeException true ({ s.cpu.p with b := false } : Flags).pack vec (addCycles 7 s) := by
  rw [interruptEntry, Flags.pack_and_EF]

/-- Cycles charged first count in the frame of what comes after them (rule R208). -/
theorem Frame.of_addCycles {addrs : List Word} {n : Nat} {s t : State} (h : Frame addrs 0 (addCycles n s) t) :
    Frame addrs n s t := by
  obtain ⟨hmem, hcollab, hdraws, hcycles⟩ := h
  exact ⟨hmem, (addCycles_busOnly n s).collaborators.trans hcollab, hdraws, hcycles⟩

/-- Settles O39: what the common entry does after 7 cycles are charged; the vector is read past the pushes. -/
theorem interruptEntryEffect : Obligations.InterruptEntryEffect := by
  intro vec s
  obtain ⟨hcpu, hframe, htrace, hstored⟩ :=
    takeException_setP_effect true ({ s.cpu.p with b := false } : Flags).pack vec (addCycles 7 s) s.cpu.p
  rw [interruptEntry_eq_takeException]
  refine ⟨hcpu, hframe.of_addCycles, htrace, hstored, takeException_vector .., fun hlt hgt => ?_⟩
  rw [takeException_pc _ _ _ hgt hlt, makeWord_toNat]
  rfl

end Sys2Proof.Machine

/-! SUPPORT. The snapshot: what `load` accepts is what `save` writes, one field after the other. -/

namespace Sys2Proof.Machine

/-- A number read from four bytes is spelled by them (rule R251). -/
theorem take_of_fieldAt {blob : List Byte} {offset n : Nat} (h : fieldAt blob offset = some n) :
    (blob.drop offset).take 4 = le32 n := by
  unfold fieldAt at h
  split at h
  case h_1 b0 b1 b2 b3 rest hbytes =>
    cases h
    rw [hbytes]
    simp only [List.take_succ_cons, List.take_zero, le32, List.cons.injEq, and_true]
    refine ⟨?_, ?_, ?_, ?_⟩ <;> bv_omega
  case h_2 => cases h

/-- A register field read holds the register as `save` writes it (rules R251, R252). -/
theorem take_of_loadBits {w : Nat} {blob : List Byte} {offset : Nat} {v : BitVec w}
    (h : loadBits w blob offset = some v) : (blob.drop offset).take 4 = le32 v.toNat := by
  obtain ⟨n, hn, hv⟩ := Option.bind_eq_some_iff.mp h
  obtain ⟨hlt, rfl⟩ : n < 2 ^ w ∧ BitVec.ofNat w n = v := by simpa using hv
  rw [take_of_fieldAt hn, BitVec.toNat_ofNat, Nat.mod_eq_of_lt hlt]

/-- A boolean field read holds the pattern `save` writes for it, even where the two patterns are equal (rules R251,
R252). -/
theorem take_of_loadBool {pat : Config.BoolPatterns} {blob : List Byte} {offset : Nat} {b : Bool}
    (h : loadBool pat blob offset = some b) : (blob.drop offset).take 4 = boolField pat b := by
  obtain ⟨n, hn, hb⟩ := Option.bind_eq_some_iff.mp h
  rw [take_of_fieldAt hn]
  split at hb
  case isTrue htrue => cases hb; exact congrArg le32 htrue
  case isFalse =>
    split at hb
    case isTrue hfalse => cases hb; exact congrArg le32 hfalse
    case isFalse => cases hb

/-- ExecutionStatus of four bits has them as its number (rules R24, R251). -/
theorem ExecStatus.toNat_of_bits (n : BitVec 4) :
    (⟨n.getLsbD 2, n.getLsbD 3, n.getLsbD 0, n.getLsbD 1⟩ : ExecStatus).toNat = n.toNat := by
  revert n
  decide

/-- An ExecutionStatus field read holds the number `save` writes for it (rules R24, R252). -/
theorem take_of_loadStatus {blob : List Byte} {offset : Nat} {es : ExecStatus} (h : loadStatus blob offset = some es) :
    (blob.drop offset).take 4 = le32 es.toNat := by
  obtain ⟨n, hn, rfl⟩ := Option.map_eq_some_iff.mp h
  rw [take_of_loadBits hn, ExecStatus.toNat_of_bits]

/-- A parser that goes on read one more field: what is known of the stream grows by that field as `save` writes it. -/
theorem take_of_bind_field {α : Type} {read : Option α} {next : α → Option ProcessorState} {c : ProcessorState}
    {field : α → List Byte} {blob before : List Byte} {offset : Nat}
    (hfield : ∀ {v}, read = some v → (blob.drop offset).take 4 = field v) (hbefore : blob.take offset = before)
    (h : read.bind next = some c) : ∃ v, blob.take (offset + 4) = before ++ field v ∧ next v = some c := by
  obtain ⟨v, hread, hnext⟩ := Option.bind_eq_some_iff.mp h
  exact ⟨v, by rw [List.take_add, hbefore, hfield hread], hnext⟩

/-- A blob that parses begins with what `save` writes for the state parsed (rules R251, R252, log entry 15); no premise on
the patterns is needed. -/
theorem take_of_parseSnapshot {pat : Config.BoolPatterns} {blob : List Byte} {c : ProcessorState}
    (h : parseSnapshot pat blob = some c) : blob.take 68 = save pat c := by
  unfold parseSnapshot at h
  split at h
  case isFalse => cases h
  case isTrue taken =>
    obtain ⟨a, taken, h⟩ := take_of_bind_field take_of_loadBits taken h
    obtain ⟨x, taken, h⟩ := take_of_bind_field take_of_loadBits taken h
    obtain ⟨y, taken, h⟩ := take_of_bind_field take_of_loadBits taken h
    obtain ⟨sp, taken, h⟩ := take_of_bind_field take_of_loadBits taken h
    obtain ⟨ir, taken, h⟩ := take_of_bind_field take_of_loadBits taken h
    obtain ⟨pc, taken, h⟩ := take_of_bind_field take_of_loadBits taken h
    obtain ⟨n, taken, h⟩ := take_of_bind_field take_of_loadBool taken h
    obtain ⟨v, taken, h⟩ := take_of_bind_field take_of_loadBool taken h
    obtain ⟨b, taken, h⟩ := take_of_bind_field take_of_loadBool taken h
    obtain ⟨d, taken, h⟩ := take_of_bind_field take_of_loadBool taken h
    obtain ⟨i, taken, h⟩ := take_of_bind_field take_of_loadBool taken h
    obtain ⟨notZero, taken, h⟩ := take_of_bind_field take_of_loadBool taken h
    obtain ⟨carry, taken, h⟩ := take_of_bind_field take_of_loadBool taken h
    obtain ⟨es, taken, h⟩ := take_of_bind_field take_of_loadStatus taken h
    cases h
    rw [taken]
    simp only [save, Bool.not_not, List.append_assoc]

/-- `load` refuses a blob that begins with no snapshot, and then changes nothing (rule R252). -/
theorem loadSnapshot_of_not_saved {pat : Config.BoolPatterns} {blob : List Byte} (h : ∀ c, blob.take 68 ≠ save pat c)
    (s : State) : loadSnapshot pat blob s = (false, s) :=
  loadSnapshot_none (Option.eq_none_iff_forall_ne_some.mpr fun c hc => h c (take_of_parseSnapshot hc)) s

/-- Settles O60: a blob that parses begins with the snapshot of the state parsed, and a snapshot has 68 bytes and the
tag. -/
theorem loadIsAllOrNothing : Obligations.LoadIsAllOrNothing := by
  intro pat blob s
  refine ⟨?_, fun hshort => loadSnapshot_of_not_saved (fun c hc => ?_) s,
    fun htag => loadSnapshot_of_not_saved (fun c hc => htag ?_) s⟩
  case refine_1 =>
    cases hparse : parseSnapshot pat blob with
    | none => exact .inl (loadSnapshot_none hparse s)
    | some c => exact .inr ⟨c, take_of_parseSnapshot hparse, by simp only [loadSnapshot, hparse]⟩
  case refine_2 =>
    have hlen : (blob.take 68).length = 68 := congrArg List.length hc
    rw [List.length_take] at hlen
    omega
  case refine_3 =>
    calc blob.take 12 = (blob.take 68).take 12 := by rw [List.take_take]; rfl
      _ = (save pat c).take 12 := by rw [hc]
      _ = snapshotTag := rfl

end Sys2Proof.Machine
